-- ==== Sys2Proof/Word.lean ====
section
/-! DEFINITION. The word types of SFD-PID: the byte of every stream, the 64-bit register, and the binary64 bit pattern. -/

namespace Sys2Proof

/-- A byte of the link, command or response stream (00_scope.md R14). -/
abbrev Byte := BitVec 8

/-- The value of a register of the register map (10_state.md R48: every register is 64 bits wide). -/
abbrev Word64 := BitVec 64

/-- An IEEE 754 binary64 value as its bit pattern (00_scope.md R20; 20_memory.md R76). -/
abbrev Binary64 := BitVec 64

end Sys2Proof
end

