-- ==== Sys2Proof/Machine/Operands.lean ====
section
/-! DEFINITION. The operand forms of commands and responses: multi-byte fields, most significant byte first
(20_memory.md R75, R76). -/

namespace Sys2Proof.Machine

/-- The natural a big-endian byte sequence denotes. -/
def beNat (bs : List Byte) : Nat := bs.foldl (fun acc b => acc * 256 + b.toNat) 0

/-- The n low bytes of v, most significant byte first. -/
def beBytes : Nat → Nat → List Byte
  | 0, _ => []
  | n + 1, v => BitVec.ofNat 8 (v / 256 ^ n) :: beBytes n v

/-- u16be (00_scope.md R16). -/
def u16be (hi lo : Byte) : BitVec 16 := hi ++ lo

/-- The 64-bit field whose 8 bytes are `bs`, most significant byte first (20_memory.md R76). -/
def word64Of (bs : List Byte) : Word64 := BitVec.ofNat 64 (beNat bs)

/-- The 8 bytes of a 64-bit field, most significant byte first (20_memory.md R76). -/
def word64Bytes (w : Word64) : List Byte := beBytes 8 w.toNat

end Sys2Proof.Machine
end

