-- ==== Sys2Proof/Syntax.lean ====
section
/-! DEFINITION. The commands of the block: one constructor for each row of spec/opcode_table.json (30_encoding.md R100). -/

namespace Sys2Proof

/-- A host command (00_scope.md R3: the spec's word for what is elsewhere called an instruction is command). -/
inductive Instr where
  /-- DEC_RESET (41_decoder_poll.md R166). -/
  | decReset
  /-- DEC_POLL: the time and the newly arrived bytes, oldest first (41_decoder_poll.md R150). The count n is the length of `data`. -/
  | decPoll (now : Binary64) (data : List Byte)
  /-- PID_RESET (42_pid.md R200). -/
  | pidReset
  /-- PID_UPDATE: setpoint and measured value (42_pid.md R190). -/
  | pidUpdate (sp pv : Binary64)
  /-- READ_REG: the register number (43_register_access.md R220). -/
  | readReg (reg : Byte)
  deriving DecidableEq, Repr

end Sys2Proof
end

