-- ==== Sys2Proof/WellFormed.lean ====
section
/-! DEFINITION. Which terms of `Instr` an encoding exists for. -/

namespace Sys2Proof

/-- CHUNK_MAX: the most bytes one DEC_POLL carries, fixed by its 16-bit count (30_encoding.md R103). -/
def chunkMax : Nat := 65535

/-- A command that has an encoding: a DEC_POLL carries at most CHUNK_MAX bytes (30_encoding.md R101, R103). Every value of
every other operand is encodable (R102, R104). -/
def Instr.wf : Instr → Bool
  | .decReset => true
  | .decPoll _ data => decide (data.length ≤ chunkMax)
  | .pidReset => true
  | .pidUpdate _ _ => true
  | .readReg _ => true

end Sys2Proof
end

