-- ==== Sys2Proof/Decode.lean ====
section
/-! DEFINITION. Decoding the command stream, total on any bytes, and the encoder (30_encoding.md R99 to R104, R112, R113). -/

namespace Sys2Proof

open Sys2Proof.Machine

/-- The opcodes of 30_encoding.md R100. -/
def opDecReset : Byte := 0x01
def opDecPoll : Byte := 0x02
def opPidReset : Byte := 0x11
def opPidUpdate : Byte := 0x12
def opReadReg : Byte := 0xF0

/-- What stands at the head of the command stream. -/
inductive Decoded where
  /-- A complete command, and the bytes after it. -/
  | command (i : Instr) (rest : List Byte)
  /-- A reserved opcode, which is a command of length 1, and the bytes after it (30_encoding.md R112). -/
  | reserved (op : Byte) (rest : List Byte)
  /-- Not all bytes of the command have arrived (30_encoding.md R99). -/
  | incomplete
  deriving DecidableEq, Repr

/-- The length in bytes of the command at the head of the stream, none while the bytes that fix it have not arrived
(30_encoding.md R113). -/
def commandLength (bs : List Byte) : Option Nat :=
  match bs with
  | [] => none
  | op :: _ =>
    if op = opDecPoll then
      match bs.drop 9 with
      | hi :: lo :: _ => some (11 + (u16be hi lo).toNat)
      | _ => none
    else if op = opPidUpdate then some 17
    else if op = opReadReg then some 2
    else some 1

/-- The command whose bytes are exactly `bs`, of the length `commandLength` gives; none for a reserved opcode. -/
def decodeCommand (bs : List Byte) : Option Instr :=
  match bs with
  | [] => none
  | op :: args =>
    if op = opDecReset then some .decReset
    else if op = opDecPoll then some (.decPoll (word64Of (args.take 8)) (args.drop 10))
    else if op = opPidReset then some .pidReset
    else if op = opPidUpdate then some (.pidUpdate (word64Of (args.take 8)) (word64Of (args.drop 8)))
    else if op = opReadReg then some (.readReg (args.headD 0))
    else none

/-- What stands at the head of the command stream `bs`. -/
def decode (bs : List Byte) : Decoded :=
  match commandLength bs with
  | none => .incomplete
  | some n =>
    if bs.length < n then .incomplete
    else
      match decodeCommand (bs.take n) with
      | some i => .command i (bs.drop n)
      | none => .reserved (bs.headD 0) (bs.drop n)

/-- The bytes of a command (30_encoding.md R100 to R104). -/
def encode : Instr → List Byte
  | .decReset => [opDecReset]
  | .decPoll now data => opDecPoll :: (word64Bytes now ++ beBytes 2 data.length ++ data)
  | .pidReset => [opPidReset]
  | .pidUpdate sp pv => opPidUpdate :: (word64Bytes sp ++ word64Bytes pv)
  | .readReg reg => [opReadReg, reg]

/-- The length of a command in bytes (30_encoding.md R100). -/
def Instr.byteLength : Instr → Nat
  | .decReset => 1
  | .decPoll _ data => 11 + data.length
  | .pidReset => 1
  | .pidUpdate _ _ => 17
  | .readReg _ => 2

/-- The bytes of the word w of nbits bits, numbered as spec/opcode_table.json numbers them (the first byte is the least
significant), cut or filled with zero bytes to the length of the command they begin. -/
def tableWordBytes (nbits w : Nat) : List Byte :=
  let given := (List.range ((nbits + 7) / 8)).map fun k => BitVec.ofNat 8 (w / 256 ^ k)
  let headed := given ++ List.replicate 17 0
  let n := (commandLength headed).getD 1
  (headed ++ List.replicate (n - headed.length) 0).take n

/-- The command the decoder reads from the word w of nbits bits of spec/opcode_table.json. -/
def decodeTableWord (nbits w : Nat) : Option Instr :=
  match decode (tableWordBytes nbits w) with
  | .command i _ => some i
  | .reserved _ _ => none
  | .incomplete => none

end Sys2Proof
end

