-- ==== Sys2Proof/Config.lean ====
section
/-! DEFINITION. The parameters of an instantiation (00_scope.md section 4), the types of the decoded tags their tables
name, and the constants with no body that stand for the parameters the spec leaves open. -/

namespace Sys2Proof

/-- The decoded test frequency (40_frame_decode.md R133). The unit, hertz, and `dc` for the value 0 are naming only (93 G1). -/
inductive Frequency where
  | hz100
  | hz120
  | hz1000
  | hz10000
  | hz100000
  | dc
  | unknown
  deriving DecidableEq, Repr

/-- Which variant of a quantity a tag names. The source gives the families of tags and not their variants
(91_not_in_source.md N8), so the set stays open: `other` (log 4). -/
inductive Variant where
  | series
  | parallel
  | dc
  | equivalent
  | other (n : Nat)
  deriving DecidableEq, Repr

/-- A symbolic quantity tag, by the families the source lists (40_frame_decode.md R137). -/
inductive QuantityTag where
  | inductance (v : Variant)
  | capacitance (v : Variant)
  | resistance (v : Variant)
  | dissipationFactor
  | qualityFactor
  | phaseAngle
  deriving DecidableEq, Repr

/-- The parameter FIRST_CALL_ERROR (42_pid.md R191). -/
inductive FirstCallError where
  | store
  | keep
  deriving DecidableEq, Repr

/-- The parameters of one instantiation (00_scope.md section 4). Which values are legal: `Machine.Config.legal`
(70_reset_and_hazards.md R313). A table is a list of pairs; its first entry for a key counts. -/
structure Config where
  byteTime        : Binary64
  framePeriod     : Binary64
  driftTol        : Binary64
  staleTimeout    : Binary64
  mismatchFaults  : Bool
  m2InfoByte      : Nat
  freqTable       : List (BitVec 3 × Frequency)
  scaleTable      : List (BitVec 5 × Int)
  q1Table         : List ((Byte × Bool) × QuantityTag)
  q2Table         : List (Byte × QuantityTag)
  bufCap          : Nat
  kp              : Binary64
  ki              : Binary64
  kd              : Binary64
  dt              : Binary64
  windupLimit     : Binary64
  firstCallError  : FirstCallError
  deriving DecidableEq, Repr

/-- Free value: the parameter KP of the machine whose reset state is `State.reset` (log 2; 91_not_in_source.md N17). -/
opaque Config.freeKp : Binary64

/-- Free value: the parameter KI of the machine whose reset state is `State.reset` (log 2; 91_not_in_source.md N17). -/
opaque Config.freeKi : Binary64

/-- Free value: the parameter KD of the machine whose reset state is `State.reset` (log 2; 91_not_in_source.md N17). -/
opaque Config.freeKd : Binary64

/-- Free value: the parameter DT of the machine whose reset state is `State.reset` (log 2; 91_not_in_source.md N17). -/
opaque Config.freeDt : Binary64

end Sys2Proof
end

