-- ==== Sys2Proof/Machine/Float64.lean ====
section
/-! DEFINITION. The binary64 operations of the block (00_scope.md R20). A finite value is an exact whole number of units of
2^-1074, the least positive binary64 value; an operation computes its exact result on whole numbers and rounds it once, to
nearest, ties to even. -/

namespace Sys2Proof.Machine

/-- The 11-bit biased exponent field. -/
def expField (x : Binary64) : Nat := (x.extractLsb' 52 11).toNat

/-- The 52-bit fraction field. -/
def fracField (x : Binary64) : Nat := (x.extractLsb' 0 52).toNat

/-- The sign bit. -/
def signBit (x : Binary64) : Bool := x.getLsbD 63

def isNaN (x : Binary64) : Bool := expField x == 0x7FF && fracField x != 0

def isInf (x : Binary64) : Bool := expField x == 0x7FF && fracField x == 0

def isFinite (x : Binary64) : Bool := expField x != 0x7FF

/-- The magnitude of a finite value, in units of 2^-1074. -/
def units (x : Binary64) : Nat :=
  if expField x = 0 then fracField x else (2 ^ 52 + fracField x) * 2 ^ (expField x - 1)

/-- A finite value, in units of 2^-1074: the value is `signedUnits x * 2^-1074` exactly. -/
def signedUnits (x : Binary64) : Int := if signBit x then -(units x : Int) else units x

/-- One unit is 2^-1074, so 1.0 is this many units. -/
def unitsPerOne : Nat := 2 ^ 1074

/-- The pattern with sign `neg` and magnitude bits `m`. -/
def withSign (neg : Bool) (m : Nat) : Binary64 := BitVec.ofNat 64 (m + if neg then 2 ^ 63 else 0)

def posZero : Binary64 := 0x0000000000000000
def one : Binary64 := 0x3FF0000000000000

/-- The NaN an invalid operation gives. No rule gives its pattern; it is never stored and never sent (log 8). -/
def quietNaN : Binary64 := 0x7FF8000000000000

/-- The magnitude bits of an infinity. -/
def infMagnitude : Nat := 0x7FF * 2 ^ 52

/-- num / den rounded to the nearest natural, a tie to the even one. -/
def divHalfEven (num den : Nat) : Nat :=
  let q := num / den
  let r := num % den
  if 2 * r < den then q else if den < 2 * r then q + 1 else q + q % 2

/-- The binary64 value nearest to (num / den) * 2^-1074 with the sign `neg`, ties to even (00_scope.md R20). The quantum of the
result is 2^k units; magnitude bits count up through the subnormals, the binades and into infinity without a gap, so the
rounded significand is added to the place its binade starts at, and a carry out of it needs no case of its own. -/
def roundUnits (neg : Bool) (num den : Nat) : Binary64 :=
  let k := (num / den).log2 - 52
  withSign neg (min (k * 2 ^ 52 + divHalfEven num (den * 2 ^ k)) infMagnitude)

/-- Sign change. -/
def fneg (x : Binary64) : Binary64 := x ^^^ 0x8000000000000000

/-- `abs(x)` clears the sign bit (00_scope.md R20). -/
def fabs (x : Binary64) : Binary64 := x &&& 0x7FFFFFFFFFFFFFFF

/-- The sum of two finite values: an exact sum of zero is -0.0 only when both operands are negative (IEEE 754, to nearest). -/
def addFinite (x y : Binary64) : Binary64 :=
  let s := signedUnits x + signedUnits y
  if s = 0 then withSign (signBit x && signBit y) 0 else roundUnits (decide (s < 0)) s.natAbs 1

/-- x + y (00_scope.md R20). -/
def fadd (x y : Binary64) : Binary64 :=
  if isNaN x || isNaN y then quietNaN
  else if isInf x then (if isInf y && signBit x != signBit y then quietNaN else x)
  else if isInf y then y
  else addFinite x y

/-- x - y (00_scope.md R20). -/
def fsub (x y : Binary64) : Binary64 := fadd x (fneg y)

/-- x * y (00_scope.md R20). -/
def fmul (x y : Binary64) : Binary64 :=
  let neg := signBit x != signBit y
  if isNaN x || isNaN y then quietNaN
  else if isInf x || isInf y then
    (if (isFinite x && units x == 0) || (isFinite y && units y == 0) then quietNaN else withSign neg infMagnitude)
  else roundUnits neg (units x * units y) unitsPerOne

/-- x / y (00_scope.md R20). -/
def fdiv (x y : Binary64) : Binary64 :=
  let neg := signBit x != signBit y
  if isNaN x || isNaN y then quietNaN
  else if isInf x then (if isInf y then quietNaN else withSign neg infMagnitude)
  else if isInf y then withSign neg 0
  else if units y = 0 then (if units x = 0 then quietNaN else withSign neg infMagnitude)
  else roundUnits neg (units x * unitsPerOne) (units y)

/-- The conversion f64(n) of a natural (00_scope.md R20). -/
def f64 (n : Nat) : Binary64 := roundUnits false (n * unitsPerOne) 1

/-- The binary64 value nearest to the decimal fraction num / den: what a decimal literal denotes (00_scope.md R20). -/
def nearest (neg : Bool) (num den : Nat) : Binary64 := roundUnits neg (num * unitsPerOne) den

/-- The magnitude bits of a pattern: as naturals they are in the order of the magnitudes. -/
def magnitude (x : Binary64) : Nat := (x.extractLsb' 0 63).toNat

/-- A whole number whose order is the order of the values of two patterns that are not NaN; both zeros give 0. -/
def orderKey (x : Binary64) : Int := if signBit x then -(magnitude x : Int) else magnitude x

/-- x < y, false if either is NaN (00_scope.md R20). -/
def flt (x y : Binary64) : Bool := !isNaN x && !isNaN y && decide (orderKey x < orderKey y)

/-- x > y, false if either is NaN (00_scope.md R20). -/
def fgt (x y : Binary64) : Bool := flt y x

/-- x <= y, false if either is NaN (00_scope.md R20). -/
def fle (x y : Binary64) : Bool := !isNaN x && !isNaN y && decide (orderKey x ≤ orderKey y)

/-- x >= y, false if either is NaN (00_scope.md R20). -/
def fge (x y : Binary64) : Bool := fle y x

end Sys2Proof.Machine
end

