-- ==== Sys2Proof/Machine/Defaults.lean ====
section
/-! DEFINITION. The default parameter values (00_scope.md section 4; 40_frame_decode.md R133; 93_implementation_defined.md section 3). -/

namespace Sys2Proof

open Sys2Proof.Machine

/-- A free constant kept inside the legal gains: finite values stand for themselves (00_scope.md R11; log 2). -/
def legalGain (x : Binary64) : Binary64 := if isFinite x then x else posZero

/-- A free constant kept inside the legal sample intervals: finite values above 0 stand for themselves (00_scope.md R11; log 2). -/
def legalInterval (x : Binary64) : Binary64 := if isFinite x && fgt x posZero then x else one

/-- FSEL 0..5 in the order the source lists the frequencies; 6 and 7 are unknown (40_frame_decode.md R133). -/
def defaultFreqTable : List (BitVec 3 × Frequency) :=
  [(0, .hz100), (1, .hz120), (2, .hz1000), (3, .hz10000), (4, .hz100000), (5, .dc)]

/-- PRESUMED (log 3): the default SCALE_TABLE of 93_implementation_defined.md section 3, from general knowledge. -/
def defaultScaleTable : List (BitVec 5 × Int) :=
  [(1, 0), (2, 3), (3, 6), (5, -6), (6, -3), (7, 0), (8, 3), (9, -12), (10, -9), (11, -6), (12, -3)]

/-- PRESUMED (log 3): the default Q1_TABLE of 93_implementation_defined.md section 3, from general knowledge. -/
def defaultQ1Table : List ((Byte × Bool) × QuantityTag) :=
  [((0x01, false), .inductance .series), ((0x01, true), .inductance .parallel),
   ((0x02, false), .capacitance .series), ((0x02, true), .capacitance .parallel),
   ((0x03, false), .resistance .series), ((0x03, true), .resistance .parallel),
   ((0x04, false), .resistance .dc), ((0x04, true), .resistance .dc)]

/-- PRESUMED (log 3): the default Q2_TABLE of 93_implementation_defined.md section 3, from general knowledge. -/
def defaultQ2Table : List (Byte × QuantityTag) :=
  [(0x01, .dissipationFactor), (0x02, .qualityFactor), (0x03, .resistance .equivalent), (0x04, .phaseAngle)]

/-- The parameters with every default the spec gives (00_scope.md section 4, R10, R12), and the four values it leaves open
as arguments. -/
def Config.withGains (kp ki kd dt : Binary64) : Config where
  byteTime       := 0x3F921FF2E48E8A72
  framePeriod    := 0x3FE013A92A305532
  driftTol       := 0x3FD3333333333333
  staleTimeout   := 0x4014000000000000
  mismatchFaults := true
  m2InfoByte     := 14
  freqTable      := defaultFreqTable
  scaleTable     := defaultScaleTable
  q1Table        := defaultQ1Table
  q2Table        := defaultQ2Table
  bufCap         := 65552
  kp             := kp
  ki             := ki
  kd             := kd
  dt             := dt
  windupLimit    := 0x4024000000000000
  firstCallError := .store

/-- The parameters of the machine whose reset state is `State.reset`: the defaults, with the open gains and the open sample
interval free among the legal values (log 2). -/
def Config.defaults : Config :=
  Config.withGains (legalGain Config.freeKp) (legalGain Config.freeKi) (legalGain Config.freeKd)
    (legalInterval Config.freeDt)

end Sys2Proof
end

