-- ==== Sys2Proof/Machine/State.lean ====
section
/-! DEFINITION. The state of the block, its value after reset, and the reasons a step can stop. -/

namespace Sys2Proof.Machine

/-- CAUSE: the three sticky cause bits of the fault flag (10_state.md R35). -/
structure Cause where
  drift  : Bool
  marker : Bool
  stale  : Bool
  deriving DecidableEq, Repr

/-- The DEC unit's state (10_state.md R32 to R40). -/
structure DecState where
  /-- BUF, oldest byte first (R32). -/
  buf   : List Byte
  /-- SYNC (R33). -/
  sync  : Bool
  /-- FAULT (R34). -/
  fault : Bool
  /-- CAUSE (R35). -/
  cause : Cause
  /-- LR, the last-receive time (R36). -/
  lr    : Option Binary64
  /-- T0 (R37). -/
  t0    : Option Binary64
  /-- T1 (R38). -/
  t1    : Option Binary64
  /-- FC, the frame counter (R39). -/
  fc    : Nat
  /-- EC, ever completed (R40). -/
  ec    : Bool
  deriving DecidableEq, Repr

/-- The PID unit's state (10_state.md R41 to R44). -/
structure PidState where
  /-- PV, the previous measured value (R41). -/
  pv  : Option Binary64
  /-- PE, the previous error (R42). -/
  pe  : Binary64
  /-- I, the integral accumulator (R43). -/
  i   : Binary64
  /-- SAT (R44). -/
  sat : Bool
  deriving DecidableEq, Repr

/-- The machine: the two units' state, the host port's two streams and reset pin, and the parameters of the instantiation,
which no command writes (log 1, log 6). -/
structure State where
  /-- The parameters of this instantiation (00_scope.md section 4). -/
  cfg  : Config
  /-- The DEC unit. -/
  dec  : DecState
  /-- The PID unit. -/
  pid  : PidState
  /-- The command bytes received and not yet taken by a command, oldest first (10_state.md R51; 30_encoding.md R99). -/
  cmd  : List Byte
  /-- The response bytes not yet delivered to the host, oldest first (30_encoding.md R105; 70_reset_and_hazards.md R310). -/
  resp : List Byte
  /-- The level of the reset input `rst`, driven by the host (70_reset_and_hazards.md R310; log 7). -/
  rst  : Bool
  deriving DecidableEq, Repr

/-- Reasons a step stops with a fault: none. The block's faults are the sticky flag FAULT of the DEC unit and let the command
go on (60_exceptions.md R280, R287), so nothing raises one here; that no step can is safe. -/
inductive Fault where
  deriving DecidableEq, Repr

/-- Reasons a step has no next state. -/
inductive Refusal where
  /-- Raised by an arm of `exec` whose instruction has no meaning yet. Safe: nothing is claimed of such a step. -/
  | notModelled (mnemonic : String)
  /-- Raised by `step` while the command at the head of the stream is incomplete: the block is stuck until more bytes arrive
  or it is reset (70_reset_and_hazards.md R327; log 5). Safe: the spec gives no step there. -/
  | awaitingCommandBytes
  /-- Raised by `instantiate` for illegal parameters (70_reset_and_hazards.md R313; log 9). Safe: no such machine exists. -/
  | illegalConfiguration
  deriving DecidableEq, Repr

/-- The DEC unit after a reset (10_state.md R53). -/
def DecState.reset : DecState where
  buf   := []
  sync  := false
  fault := false
  cause := { drift := false, marker := false, stale := false }
  lr    := none
  t0    := none
  t1    := none
  fc    := 0
  ec    := false

/-- The PID unit after a reset (10_state.md R53). -/
def PidState.reset : PidState where
  pv  := none
  pe  := posZero
  i   := posZero
  sat := false

/-- The machine with the parameters c right after reset (10_state.md R53; 70_reset_and_hazards.md R310). -/
def State.resetWith (c : Config) : State where
  cfg  := c
  dec  := .reset
  pid  := .reset
  cmd  := []
  resp := []
  rst  := false

/-- The machine right after reset, with the default parameters. -/
def State.reset : State := State.resetWith Config.defaults

end Sys2Proof.Machine
end

