-- ==== Sys2Proof/Machine/Flags.lean ====
section
/-! DEFINITION. Every packing of flags into a byte or a register, and the output pins. -/

namespace Sys2Proof.Machine

/-- The w-bit word whose bit n is b and whose other bits are 0. -/
def flagAt (w n : Nat) (b : Bool) : BitVec w := if b then BitVec.twoPow w n else 0

/-- The flags byte of a DEC_POLL response (30_encoding.md R107). -/
def pollFlags (d : DecState) : Byte :=
  flagAt 8 0 d.sync ||| flagAt 8 1 d.fault ||| flagAt 8 2 d.ec |||
  flagAt 8 4 d.cause.drift ||| flagAt 8 5 d.cause.marker ||| flagAt 8 6 d.cause.stale

/-- The flags byte of a PID_UPDATE response (30_encoding.md R109). -/
def updateFlags (sat clamped first : Bool) : Byte := flagAt 8 0 sat ||| flagAt 8 1 clamped ||| flagAt 8 2 first

/-- DEC_STATUS (10_state.md R48; 43_register_access.md R221). -/
def decStatus (d : DecState) : Word64 :=
  flagAt 64 0 d.sync ||| flagAt 64 1 d.fault ||| flagAt 64 2 d.ec |||
  flagAt 64 3 d.lr.isSome ||| flagAt 64 4 d.t0.isSome ||| flagAt 64 5 d.t1.isSome |||
  flagAt 64 8 d.cause.drift ||| flagAt 64 9 d.cause.marker ||| flagAt 64 10 d.cause.stale

/-- PID_STATUS (10_state.md R48; 43_register_access.md R221). -/
def pidStatus (p : PidState) : Word64 := flagAt 64 0 p.pv.isSome ||| flagAt 64 1 p.sat

/-- CFG_FLAGS (10_state.md R48; 43_register_access.md R221). -/
def cfgFlags (c : Config) : Word64 :=
  flagAt 64 0 c.mismatchFaults ||| flagAt 64 1 (c.firstCallError == .store) ||| (BitVec.ofNat 64 c.m2InfoByte <<< 8)

/-- The output dec_fault (10_state.md R50). -/
def State.decFaultPin (s : State) : Bool := s.dec.fault

/-- The output dec_sync (10_state.md R50). -/
def State.decSyncPin (s : State) : Bool := s.dec.sync

/-- The output pid_saturated (10_state.md R50). -/
def State.pidSaturatedPin (s : State) : Bool := s.pid.sat

end Sys2Proof.Machine
end

