-- ==== Sys2Proof/Machine/Ops.lean ====
section
/-! DEFINITION. The shared operations: the receive-buffer primitives, raising a fault, refusing a command, answering one. -/

namespace Sys2Proof.Machine

/-- Status codes of a response (30_encoding.md R106). -/
inductive Status where
  | ok
  | illegal
  | badOperand
  | badRegister
  | overflow
  | numeric
  deriving DecidableEq, Repr

/-- The code of a status (30_encoding.md R106). -/
def Status.code : Status → Byte
  | .ok => 0x00
  | .illegal => 0x01
  | .badOperand => 0x02
  | .badRegister => 0x03
  | .overflow => 0x04
  | .numeric => 0x05

/-- FRAME_LEN (00_scope.md R9). -/
def frameLen : Nat := 17

/-- BufLen() (20_memory.md R71). -/
def DecState.bufLen (d : DecState) : Nat := d.buf.length

/-- BufAppend(s) (20_memory.md R72). -/
def DecState.bufAppend (s : List Byte) (d : DecState) : DecState := { d with buf := d.buf ++ s }

/-- BufDrop(n) (20_memory.md R73). -/
def DecState.bufDrop (n : Nat) (d : DecState) : DecState := { d with buf := d.buf.drop n }

/-- The causes of a fault (60_exceptions.md R281). -/
inductive FaultCause where
  | drift
  | marker
  | stale
  deriving DecidableEq, Repr

/-- CAUSE.C <- 1. -/
def Cause.record (x : FaultCause) (k : Cause) : Cause :=
  match x with
  | .drift => { k with drift := true }
  | .marker => { k with marker := true }
  | .stale => { k with stale := true }

/-- fault(C): set FAULT and the cause bit; the command goes on (00_scope.md R22; 60_exceptions.md R280, R281). -/
def raiseFault (x : FaultCause) (d : DecState) : DecState := { d with fault := true, cause := d.cause.record x }

/-- The end of a command: its response bytes join the response stream (30_encoding.md R105). -/
def respond (bs : List Byte) (s : State) : Host.Outcome State Fault Refusal := .next { s with resp := s.resp ++ bs }

/-- refuse(S): the single status byte, and no other change (00_scope.md R22; 30_encoding.md R105; 60_exceptions.md R282). -/
def refuseWith (st : Status) (s : State) : Host.Outcome State Fault Refusal := respond [st.code] s

/-- The OK response: the status byte 0x00, then the result bytes (30_encoding.md R105). -/
def respondOk (result : List Byte) (s : State) : Host.Outcome State Fault Refusal :=
  respond (Status.ok.code :: result) s

/-- A reserved opcode is answered ILLEGAL and changes no other state (43_register_access.md R223; 30_encoding.md R112). -/
def answerReserved (_op : Byte) (s : State) : Host.Outcome State Fault Refusal := refuseWith .illegal s

/-- The block reset: both units to their reset values, the partial command and the undelivered responses discarded, the
parameters kept (70_reset_and_hazards.md R310, R311). DESIGN CHOICE (log 7): whole commands received and not yet started are
discarded as well; R310 and R311 name a partly received command only. -/
def State.blockReset (s : State) : State := { s with dec := .reset, pid := .reset, cmd := [], resp := [] }

end Sys2Proof.Machine
end

