-- ==== Sys2Proof/Machine/FrameDecode.lean ====
section
/-! DEFINITION. The marker test, the decode of a frame into a measurement record, and the packing of a record on the host
port (30_encoding.md R90 to R98, R108; 40_frame_decode.md). -/

namespace Sys2Proof.Machine

/-- MarkersOK(s, i), used where i + 17 <= len(s) (40_frame_decode.md R130). -/
def markersOK (s : List Byte) (i : Nat) : Bool :=
  s[i]? == some 0x00 && s[i + 1]? == some 0x0D && s[i + 15]? == some 0x0D && s[i + 16]? == some 0x0A

/-- The fields of a frame (30_encoding.md R92 to R97). -/
structure FrameFields where
  fsel  : BitVec 3
  suf   : Bool
  q1sel : Byte
  m1    : BitVec 16
  e1    : BitVec 3
  s1    : BitVec 5
  q2sel : Byte
  m2    : BitVec 16
  e2    : BitVec 3
  s2    : BitVec 5
  deriving DecidableEq, Repr

/-- Byte k of the frame f (00_scope.md R15). -/
def frameByte (f : List Byte) (k : Nat) : Byte := f.getD k 0

/-- The exponent bits 2:0 of an info byte (30_encoding.md R96, R97). -/
def infoExponent (b : Byte) : BitVec 3 := b.extractLsb' 0 3

/-- The scale bits 7:3 of an info byte (30_encoding.md R96, R97). -/
def infoScale (b : Byte) : BitVec 5 := b.extractLsb' 3 5

/-- The fields of the frame f; no other bit of f is read (30_encoding.md R91 to R97). -/
def frameFields (c : Config) (f : List Byte) : FrameFields where
  fsel  := (frameByte f 3).extractLsb' 5 3
  suf   := (frameByte f 2).getLsbD 7
  q1sel := frameByte f 5
  m1    := u16be (frameByte f 6) (frameByte f 7)
  e1    := infoExponent (frameByte f 8)
  s1    := infoScale (frameByte f 8)
  q2sel := frameByte f 10
  m2    := u16be (frameByte f 11) (frameByte f 12)
  e2    := infoExponent (frameByte f c.m2InfoByte)
  s2    := infoScale (frameByte f c.m2InfoByte)

/-- FREQ (40_frame_decode.md R133). -/
def freqOf (c : Config) (fsel : BitVec 3) : Frequency := (c.freqTable.lookup fsel).getD .unknown

/-- SCALE_K: the table's exponent, 0 for a code outside it (40_frame_decode.md R136). -/
def scaleK (c : Config) (s : BitVec 5) : Int := (c.scaleTable.lookup s).getD 0

/-- Whether SCALE_TABLE is defined at s (30_encoding.md R108). -/
def scaleKnown (c : Config) (s : BitVec 5) : Bool := (c.scaleTable.lookup s).isSome

/-- Q1_TABLE(Q1SEL, SUF) (40_frame_decode.md R137). -/
def quantity1Of (c : Config) (q1sel : Byte) (suf : Bool) : Option QuantityTag := c.q1Table.lookup (q1sel, suf)

/-- Q2_TABLE(Q2SEL) (40_frame_decode.md R137). -/
def quantity2Of (c : Config) (q2sel : Byte) : Option QuantityTag := c.q2Table.lookup q2sel

/-- An exact decimal Dec(M, E, k), carried as the triple (40_frame_decode.md R138). -/
structure Decimal where
  mant : BitVec 16
  expo : BitVec 3
  k    : Int
  deriving DecidableEq, Repr

/-- The value M * 10^(k - E), exact (00_scope.md R21; 40_frame_decode.md R138). -/
def Decimal.value (d : Decimal) : ℚ := (d.mant.toNat : ℚ) * (10 : ℚ) ^ (d.k - (d.expo.toNat : Int))

/-- MeasurementRecord (40_frame_decode.md R139). -/
structure MeasurementRecord where
  frequency    : Frequency
  quantity1    : Option QuantityTag
  measurement1 : Decimal
  quantity2    : Option QuantityTag
  measurement2 : Option Decimal
  deriving DecidableEq, Repr

/-- The record of a frame's fields (40_frame_decode.md R132, R140, R141). -/
def recordOf (c : Config) (x : FrameFields) : MeasurementRecord where
  frequency    := freqOf c x.fsel
  quantity1    := quantity1Of c x.q1sel x.suf
  measurement1 := { mant := x.m1, expo := x.e1, k := scaleK c x.s1 }
  quantity2    := quantity2Of c x.q2sel
  measurement2 :=
    if (quantity2Of c x.q2sel).isSome then some { mant := x.m2, expo := x.e2, k := scaleK c x.s2 } else none

/-- DecodeFrame(f) (40_frame_decode.md R131, R132). -/
def decodeFrame (c : Config) (f : List Byte) : MeasurementRecord := recordOf c (frameFields c f)

/-- Two records have the same configuration (40_frame_decode.md R142). -/
def sameConfig (r r' : MeasurementRecord) : Bool :=
  r.frequency == r'.frequency && r.quantity1 == r'.quantity1 && r.quantity2 == r'.quantity2

/-- What a poll emits for a frame: the record, and the raw fields its packed form carries (30_encoding.md R108). -/
structure Emitted where
  fields : FrameFields
  record : MeasurementRecord
  deriving DecidableEq, Repr

/-- emit(DecodeFrame(f)) (41_decoder_poll.md R159). -/
def emitFrame (c : Config) (f : List Byte) : Emitted :=
  { fields := frameFields c f, record := decodeFrame c f }

/-- One bit of a packed record. -/
def recordBit (b : Bool) (n : Nat) : Byte := if b then BitVec.twoPow 8 n else 0

/-- The 12 bytes of a record on the host port (30_encoding.md R108). -/
def packRecord (c : Config) (r : Emitted) : List Byte :=
  let x := r.fields
  let known2 := r.record.quantity2.isSome
  let m2 : BitVec 16 := if known2 then x.m2 else 0
  [ (x.fsel.zeroExtend 8 <<< 5) ||| recordBit x.suf 4 ||| recordBit r.record.quantity1.isSome 3 ||| recordBit known2 2,
    x.q1sel,
    x.q2sel,
    x.m1.extractLsb' 8 8,
    x.m1.extractLsb' 0 8,
    x.s1 ++ x.e1,
    m2.extractLsb' 8 8,
    m2.extractLsb' 0 8,
    if known2 then x.s2 ++ x.e2 else 0,
    BitVec.ofInt 8 r.record.measurement1.k,
    if known2 then BitVec.ofInt 8 (scaleK c x.s2) else 0,
    recordBit (scaleKnown c x.s1) 0 ||| recordBit (known2 && scaleKnown c x.s2) 1 ]

/-- The record the host recovers from its 12 bytes, with the tables it shares with the block (30_encoding.md R108). -/
def unpackRecord (c : Config) (bs : List Byte) : MeasurementRecord where
  frequency    := freqOf c ((frameByte bs 0).extractLsb' 5 3)
  quantity1    := quantity1Of c (frameByte bs 1) ((frameByte bs 0).getLsbD 4)
  measurement1 :=
    { mant := u16be (frameByte bs 3) (frameByte bs 4), expo := infoExponent (frameByte bs 5), k := (frameByte bs 9).toInt }
  quantity2    := quantity2Of c (frameByte bs 2)
  measurement2 :=
    if (quantity2Of c (frameByte bs 2)).isSome then
      some { mant := u16be (frameByte bs 6) (frameByte bs 7), expo := infoExponent (frameByte bs 8), k := (frameByte bs 10).toInt }
    else none

end Sys2Proof.Machine
end

