-- ==== Sys2Proof/Machine/Dec.lean ====
section
/-! DEFINITION. The DEC unit's commands, DEC_POLL and DEC_RESET (41_decoder_poll.md). -/

namespace Sys2Proof.Machine

/-- The bound FC stays below (10_state.md R39). -/
def counterBound : Nat := 2 ^ 32

/-- The refusal tests of DEC_POLL, in their order (41_decoder_poll.md R152). -/
def pollRefusal (c : Config) (now : Binary64) (data : List Byte) (d : DecState) : Option Status :=
  if !isFinite now then some .badOperand
  else if c.bufCap < d.bufLen + data.length then some .overflow
  else if counterBound ≤ d.fc + (d.bufLen + data.length) / frameLen then some .overflow
  else none

/-- Step 1: append the bytes and move the last-receive time (41_decoder_poll.md R153, R154). -/
def pollAppend (now : Binary64) (data : List Byte) (d : DecState) : DecState :=
  let d := d.bufAppend data
  if data ≠ [] ∨ d.lr = none then { d with lr := some now } else d

/-- The least offset at which a frame starts, if any (41_decoder_poll.md R155). -/
def syncOffset (buf : List Byte) : Option Nat := (List.range (buf.length - (frameLen - 1))).find? (markersOK buf)

/-- Step 2: acquire sync (41_decoder_poll.md R155). -/
def pollSync (d : DecState) : DecState :=
  if !d.sync && decide (frameLen ≤ d.bufLen) then
    match syncOffset d.buf with
    | some i => { d.bufDrop i with sync := true }
    | none => d
  else d

/-- The condition of step 3 (41_decoder_poll.md R156). -/
def driftDue (d : DecState) : Bool := d.sync && !d.fault && (d.fc != 0 || !d.ec)

/-- The bytes of the partial frame at the tail of BUF (41_decoder_poll.md R157: the spec's name is section). -/
def partialBytes (d : DecState) : Nat := d.bufLen % frameLen

/-- The estimated arrival time of the partial frame's first byte (41_decoder_poll.md R157). -/
def arrivalEstimate (c : Config) (now : Binary64) (d : DecState) : Binary64 :=
  fsub now (fmul (f64 (partialBytes d)) c.byteTime)

/-- The nominal time for the frames counted since the last check that found no loss (41_decoder_poll.md R157). -/
def nominalTime (c : Config) (d : DecState) : Binary64 := fmul (f64 (d.fc + d.bufLen / frameLen)) c.framePeriod

/-- The discrepancy of the estimate against the previous one (41_decoder_poll.md R157). -/
def discrepancy (c : Config) (estimate previous : Binary64) (d : DecState) : Binary64 :=
  fsub (fsub estimate previous) (nominalTime c d)

/-- The comparison of step 3 with the previous estimate (41_decoder_poll.md R157). -/
def driftCompare (c : Config) (estimate : Binary64) (d : DecState) : DecState :=
  match d.t1 with
  | none => d
  | some previous =>
    if flt (discrepancy c estimate previous d) c.driftTol then { d with fc := 0 } else raiseFault .drift d

/-- Step 3: the drift check (41_decoder_poll.md R156, R157). -/
def pollDrift (c : Config) (now : Binary64) (d : DecState) : DecState :=
  if driftDue d && partialBytes d != 0 then
    let estimate := arrivalEstimate c now d
    { driftCompare c estimate { d with t0 := some estimate } with t1 := some estimate }
  else d

/-- What step 4 leaves: the unit's state and the records emitted, in order. -/
structure Extraction where
  dec     : DecState
  records : List Emitted
  deriving DecidableEq, Repr

/-- A frame accepted: drop it and count it (41_decoder_poll.md R159). -/
def acceptFrame (d : DecState) : DecState := { d.bufDrop frameLen with fc := d.fc + 1, ec := true }

/-- A marker mismatch at the head: SYNC cleared, the fault raised when the parameter says so, BUF kept (41_decoder_poll.md R160). -/
def markerMismatch (c : Config) (d : DecState) : DecState :=
  let d := { d with sync := false }
  if c.mismatchFaults then raiseFault .marker d else d

/-- Step 4: the extraction loop, at most `fuel` rounds; len(BUF) div 17 rounds always suffice (41_decoder_poll.md R158 to R160). -/
def extractFrames (c : Config) : Nat → DecState → Extraction
  | 0, d => { dec := d, records := [] }
  | fuel + 1, d =>
    if d.sync && decide (frameLen ≤ d.bufLen) then
      if markersOK d.buf 0 then
        let later := extractFrames c fuel (acceptFrame d)
        { dec := later.dec, records := emitFrame c (d.buf.take frameLen) :: later.records }
      else { dec := markerMismatch c d, records := [] }
    else { dec := d, records := [] }

/-- Step 4 (41_decoder_poll.md R158). -/
def pollExtract (c : Config) (d : DecState) : Extraction := extractFrames c (d.bufLen / frameLen) d

/-- Step 5: the stale-link check; LR is present after step 1 (41_decoder_poll.md R162). -/
def pollStale (c : Config) (now : Binary64) (d : DecState) : DecState :=
  match d.lr with
  | none => d
  | some last => if fgt (fsub now last) c.staleTimeout then raiseFault .stale d else d

/-- Steps 1 to 3 of DEC_POLL (41_decoder_poll.md R151). -/
def pollBeforeExtract (c : Config) (now : Binary64) (data : List Byte) (d : DecState) : DecState :=
  pollDrift c now (pollSync (pollAppend now data d))

/-- Steps 1 to 5 of DEC_POLL (41_decoder_poll.md R151). -/
def pollSteps (c : Config) (now : Binary64) (data : List Byte) (d : DecState) : Extraction :=
  let x := pollExtract c (pollBeforeExtract c now data d)
  { x with dec := pollStale c now x.dec }

/-- Step 6: the result bytes of an OK poll (41_decoder_poll.md R164; 30_encoding.md R107). -/
def pollResult (c : Config) (x : Extraction) : List Byte :=
  pollFlags x.dec :: (beBytes 2 x.records.length ++ (x.records.map (packRecord c)).flatten)

/-- DEC_POLL (41_decoder_poll.md R150, R151). -/
def execDecPoll (now : Binary64) (data : List Byte) (s : State) : Host.Outcome State Fault Refusal :=
  match pollRefusal s.cfg now data s.dec with
  | some st => refuseWith st s
  | none =>
    let x := pollSteps s.cfg now data s.dec
    respondOk (pollResult s.cfg x) { s with dec := x.dec }

/-- DEC_RESET (41_decoder_poll.md R166). -/
def execDecReset (s : State) : Host.Outcome State Fault Refusal := respondOk [] { s with dec := .reset }

end Sys2Proof.Machine
end

