-- ==== Sys2Proof/Machine/Pid.lean ====
section
/-! DEFINITION. The PID unit's commands, PID_UPDATE and PID_RESET (42_pid.md). -/

namespace Sys2Proof.Machine

/-- The anti-windup step: the new integral (42_pid.md R193). -/
def newIntegral (c : Config) (i e : Binary64) : Binary64 :=
  if fgt (fabs e) c.windupLimit then posZero else fadd i (fmul e c.dt)

/-- The derivative (42_pid.md R194). -/
def derivative (c : Config) (e pe : Binary64) : Binary64 := fdiv (fsub e pe) c.dt

/-- The output sum, left to right (42_pid.md R195). -/
def outputSum (c : Config) (e i d : Binary64) : Binary64 :=
  fadd (fadd (fmul c.kp e) (fmul c.ki i)) (fmul c.kd d)

/-- The values an update after the first computes (42_pid.md R190: e, i, d and raw). -/
structure PidTerms where
  error    : Binary64
  integral : Binary64
  deriv    : Binary64
  raw      : Binary64
  deriving DecidableEq, Repr

/-- The values of an update (42_pid.md R192 to R195). -/
def pidTerms (c : Config) (p : PidState) (sp pv : Binary64) : PidTerms :=
  let e := fsub sp pv
  let i := newIntegral c p.i e
  let d := derivative c e p.pe
  { error := e, integral := i, deriv := d, raw := outputSum c e i d }

/-- The numeric refusal test (42_pid.md R199). -/
def PidTerms.anyNaN (t : PidTerms) : Bool := isNaN t.error || isNaN t.integral || isNaN t.deriv || isNaN t.raw

/-- The clamp to [0, 1] and whether it clamped (42_pid.md R196). -/
def clampOutput (raw : Binary64) : Binary64 × Bool :=
  if flt raw posZero then (posZero, true) else if fgt raw one then (one, true) else (raw, false)

/-- What the first call stores (42_pid.md R191). -/
def storeFirst (c : Config) (sp pv : Binary64) (p : PidState) : PidState :=
  match c.firstCallError with
  | .store => { p with pe := fsub sp pv, pv := some pv }
  | .keep => { p with pv := some pv }

/-- What a later update stores (42_pid.md R196, R197). -/
def storeUpdate (t : PidTerms) (pv : Binary64) (clamped : Bool) (p : PidState) : PidState :=
  { pv := some pv, pe := t.error, i := t.integral, sat := p.sat || clamped }

/-- The result bytes of an OK update (30_encoding.md R109). -/
def updateResult (out : Binary64) (sat clamped first : Bool) : List Byte :=
  word64Bytes out ++ [updateFlags sat clamped first]

/-- PID_UPDATE (42_pid.md R190). -/
def execPidUpdate (sp pv : Binary64) (s : State) : Host.Outcome State Fault Refusal :=
  if !isFinite sp || !isFinite pv then refuseWith .badOperand s
  else if s.pid.pv = none then
    respondOk (updateResult posZero s.pid.sat false true) { s with pid := storeFirst s.cfg sp pv s.pid }
  else
    let t := pidTerms s.cfg s.pid sp pv
    if t.anyNaN then refuseWith .numeric s
    else
      let (out, clamped) := clampOutput t.raw
      let p := storeUpdate t pv clamped s.pid
      respondOk (updateResult out p.sat clamped false) { s with pid := p }

/-- PID_RESET (42_pid.md R200). -/
def execPidReset (s : State) : Host.Outcome State Fault Refusal := respondOk [] { s with pid := .reset }

end Sys2Proof.Machine
end

