-- ==== Sys2Proof/Machine/Registers.lean ====
section
/-! DEFINITION. The register map and READ_REG (10_state.md R48; 43_register_access.md). -/

namespace Sys2Proof.Machine

/-- The register ID (10_state.md R48). -/
def idRegister : Word64 := 0x5346445049440007

/-- An Option field reads as 0 when absent (10_state.md R48). -/
def optionBits (x : Option Binary64) : Word64 := x.getD 0

/-- RegValue(reg), none for a reserved number (43_register_access.md R220 to R222). -/
def regValue (reg : Byte) (s : State) : Option Word64 :=
  match reg.toNat with
  | 0x00 => some (decStatus s.dec)
  | 0x01 => some (BitVec.ofNat 64 s.dec.bufLen)
  | 0x02 => some (BitVec.ofNat 64 s.dec.fc)
  | 0x03 => some (optionBits s.dec.lr)
  | 0x04 => some (optionBits s.dec.t0)
  | 0x05 => some (optionBits s.dec.t1)
  | 0x10 => some (pidStatus s.pid)
  | 0x11 => some (optionBits s.pid.pv)
  | 0x12 => some s.pid.pe
  | 0x13 => some s.pid.i
  | 0x20 => some s.cfg.kp
  | 0x21 => some s.cfg.ki
  | 0x22 => some s.cfg.kd
  | 0x23 => some s.cfg.dt
  | 0x24 => some s.cfg.windupLimit
  | 0x30 => some s.cfg.byteTime
  | 0x31 => some s.cfg.framePeriod
  | 0x32 => some s.cfg.driftTol
  | 0x33 => some s.cfg.staleTimeout
  | 0x34 => some (BitVec.ofNat 64 s.cfg.bufCap)
  | 0x35 => some (cfgFlags s.cfg)
  | 0xFF => some idRegister
  | _ => none

/-- READ_REG (43_register_access.md R220, R222; 30_encoding.md R110). -/
def execReadReg (reg : Byte) (s : State) : Host.Outcome State Fault Refusal :=
  match regValue reg s with
  | some v => respondOk (word64Bytes v) s
  | none => refuseWith .badRegister s

end Sys2Proof.Machine
end

