-- ==== Sys2Proof/Machine/Dispatch.lean ====
section
/-! DEFINITION. Which meaning each command has. -/

namespace Sys2Proof.Machine

def exec (i : Instr) (s : State) : Host.Outcome State Fault Refusal :=
  match i with
  | .decReset => Sys2Proof.Machine.execDecReset s
  | .decPoll now data => Sys2Proof.Machine.execDecPoll now data s
  | .pidReset => Sys2Proof.Machine.execPidReset s
  | .pidUpdate sp pv => Sys2Proof.Machine.execPidUpdate sp pv s
  | .readReg reg => Sys2Proof.Machine.execReadReg reg s

end Sys2Proof.Machine
end

