-- ==== Sys2Proof/Machine/Port.lean ====
section
/-! DEFINITION. What the host does at the port: command bytes in, response bytes out, the reset pin (10_state.md R51;
70_reset_and_hazards.md R310; log 7, log 10, log 13), and the placing of one table word at the head of the command stream. -/

namespace Sys2Proof.Machine

/-- The host sends bytes on the command stream (30_encoding.md R99). -/
def State.deliver (bs : List Byte) (s : State) : State := { s with cmd := s.cmd ++ bs }

/-- The host takes every response byte there is (30_encoding.md R105). -/
def State.takeResponses (s : State) : List Byte × State := (s.resp, { s with resp := [] })

/-- The host drives the reset input (70_reset_and_hazards.md R310). DESIGN CHOICE (log 7): the reset itself happens in a step
with the pin asserted, so a level that changes back before the block steps resets nothing. -/
def State.driveReset (level : Bool) (s : State) : State := { s with rst := level }

/-- The command of the word w of nbits bits placed at the head of the command stream, with the reset pin deasserted. -/
def State.placeTableWord (s : State) (nbits w : Nat) : State :=
  { s with cmd := tableWordBytes nbits w ++ s.cmd, rst := false }

end Sys2Proof.Machine
end

