-- ==== Sys2Proof/Machine/Step.lean ====
section
/-! DEFINITION. One step of the machine: the block reset while its pin is asserted, else the command at the head of the
command stream. -/

namespace Sys2Proof.Machine

/-- One step (20_memory.md R80, R84; 70_reset_and_hazards.md R310, R327; 43_register_access.md R223). -/
def step (s : State) : Host.Outcome State Fault Refusal :=
  if s.rst then .next s.blockReset
  else
    match decode s.cmd with
    | .command i rest => exec i { s with cmd := rest }
    | .reserved op rest => answerReserved op { s with cmd := rest }
    | .incomplete => .refused .awaitingCommandBytes

/-- s with the command of the word w of nbits bits at the head of its command stream, so that the next step runs it. -/
def State.withFetchWord (s : State) (nbits w : Nat) : State := s.placeTableWord nbits w

end Sys2Proof.Machine
end

