-- ==== Sys2Proof/Machine/Trajectory.lean ====
section
/-! DEFINITION. The host's setpoint trajectory (45_host_environment.md R253 to R257). It is no state of the block. -/

namespace Sys2Proof.Machine

/-- The two variants of a trajectory (45_host_environment.md R253). -/
inductive TrajectoryKind where
  | step
  | linear
  deriving DecidableEq, Repr

/-- A trajectory: the (cumulative time, value) waypoints and the cycle duration (45_host_environment.md R253). -/
structure Trajectory where
  kind      : TrajectoryKind
  waypoints : List (Binary64 × Binary64)
  period    : Binary64
  deriving DecidableEq, Repr

/-- At least one waypoint, times in order, a positive period; a Linear trajectory wraps at its last waypoint time
(45_host_environment.md R253). DESIGN CHOICE (log 17): the times, the period and the values are finite as well, though R253
puts no condition on the values and names no infinity. -/
def Trajectory.legal (t : Trajectory) : Bool :=
  !t.waypoints.isEmpty &&
  (t.waypoints.all fun w => isFinite w.1 && isFinite w.2) &&
  ((t.waypoints.zip t.waypoints.tail).all fun p => fle p.1.1 p.2.1) &&
  isFinite t.period && fgt t.period posZero &&
  (t.kind == .step || (t.waypoints.getLast?.map Prod.fst) == some t.period)

/-- A time the trajectory is defined at: elapsed >= 0 and finite (45_host_environment.md R253). -/
def validElapsed (elapsed : Binary64) : Bool := isFinite elapsed && fge elapsed posZero

/-- The exact remainder x = elapsed mod P, a binary64 value (45_host_environment.md R253). DESIGN CHOICE (log 17): for P = 0,
which R253 excludes, it is elapsed. -/
def cyclePosition (t : Trajectory) (elapsed : Binary64) : Binary64 :=
  roundUnits false (units elapsed % units t.period) 1

/-- The floor of the exact quotient elapsed / P (45_host_environment.md R256). DESIGN CHOICE (log 17): for P = 0, which R253
excludes, it is 0. -/
def Trajectory.iteration (t : Trajectory) (elapsed : Binary64) : Nat := units elapsed / units t.period

/-- StepValue at the position x of the cycle (45_host_environment.md R254). -/
def stepValue (ws : List (Binary64 × Binary64)) (x : Binary64) : Option Binary64 :=
  match ws.find? fun w => fge w.1 x with
  | some w => some w.2
  | none => ws.getLast?.map Prod.snd

/-- The interpolation between two waypoints, in the order of 45_host_environment.md R255. -/
def interpolate (w w' : Binary64 × Binary64) (x : Binary64) : Binary64 :=
  fadd w.2 (fmul (fsub w'.2 w.2) (fdiv (fsub x w.1) (fsub w'.1 w.1)))

/-- LinearValue at the position x of the cycle (45_host_environment.md R255). -/
def linearValue (ws : List (Binary64 × Binary64)) (x : Binary64) : Option Binary64 :=
  match ws.head?, ws.getLast? with
  | some first, some last =>
    if fle x first.1 then some first.2
    else if fge x last.1 then some last.2
    else ((ws.zip ws.tail).reverse.find? fun p => fle p.1.1 x).map fun p => interpolate p.1 p.2 x
  | _, _ => none

/-- value(traj, elapsed) (45_host_environment.md R254, R255). -/
def Trajectory.value (t : Trajectory) (elapsed : Binary64) : Option Binary64 :=
  match t.kind with
  | .step => stepValue t.waypoints (cyclePosition t elapsed)
  | .linear => linearValue t.waypoints (cyclePosition t elapsed)

end Sys2Proof.Machine
end

