-- ==== Sys2Proof/Machine/ControlLoop.lean ====
section
/-! DEFINITION. The host's loop, which drives the block through its port only (45_host_environment.md R243 to R252). It is
the block's environment and holds none of its state; log 12 says what the model fixes about it. -/

namespace Sys2Proof.Machine

/-- Nothing received is waiting, nothing is undelivered, the reset pin is not asserted: what the host's loop starts from. -/
def portIdle (s : State) : Bool := s.cmd.isEmpty && s.resp.isEmpty && !s.rst

/-- One command and its response: the bytes go down the command stream, the block steps, the host takes what came back. DESIGN
CHOICE (log 12): 45_host_environment.md R243 gives no command to a port that is not idle, so none is sent there and the tick
is outside the rules. -/
def transact (i : Instr) (s : State) : Option (List Byte × State) :=
  if portIdle s then
    match step (s.deliver (encode i)) with
    | .next s' => some s'.takeResponses
    | .fault _ => none
    | .refused _ => none
  else none

/-- What the host reads in the response to a DEC_POLL (30_encoding.md R105, R107). -/
structure PollReply where
  refused : Bool
  fault   : Bool
  records : List MeasurementRecord
  deriving DecidableEq, Repr

/-- The 12-byte records of a poll's response. -/
def splitRecords : Nat → List Byte → List (List Byte)
  | 0, _ => []
  | n + 1, bs => bs.take 12 :: splitRecords n (bs.drop 12)

/-- Reading the response to a DEC_POLL (30_encoding.md R107, R108). -/
def readPollReply (c : Config) (bs : List Byte) : Option PollReply :=
  match bs with
  | [] => none
  | status :: rest =>
    if status = Status.ok.code then
      match rest with
      | flags :: hi :: lo :: recs =>
        some { refused := false, fault := flags.getLsbD 1,
               records := (splitRecords (u16be hi lo).toNat recs).map (unpackRecord c) }
      | _ => none
    else some { refused := true, fault := false, records := [] }

/-- What the host reads in the response to a PID_UPDATE: the output, or none when it was refused (30_encoding.md R109). -/
def readUpdateReply (bs : List Byte) : Option Binary64 :=
  match bs with
  | [] => none
  | status :: rest => if status = Status.ok.code then some (word64Of (rest.take 8)) else none

/-- The payloads of a tick's DEC_POLLs: one, or several of at most CHUNK_MAX bytes (45_host_environment.md R243). DESIGN CHOICE
(log 16): with several, every payload but the last is filled to exactly CHUNK_MAX bytes. -/
def pollChunks : Nat → List Byte → List (List Byte)
  | 0, bs => [bs]
  | n + 1, bs => if bs.length ≤ chunkMax then [bs] else bs.take chunkMax :: pollChunks n (bs.drop chunkMax)

/-- The DEC_POLLs of one tick, with the same `now` (45_host_environment.md R243, R244). DESIGN CHOICE (log 16): a refusal ends
them, the flags of the last count, and the records of all of them are joined, in order, for steps 3 to 6. -/
def runPolls (now : Binary64) : List (List Byte) → State → Option (PollReply × State)
  | [], s => some ({ refused := false, fault := false, records := [] }, s)
  | chunk :: later, s => do
    let (bytes, s) ← transact (.decPoll now chunk) s
    let reply ← readPollReply s.cfg bytes
    if reply.refused then return (reply, s)
    match later with
    | [] => return (reply, s)
    | _ :: _ =>
      let (last, s) ← runPolls now later s
      return ({ last with records := reply.records ++ last.records }, s)

/-- How a run ends (45_host_environment.md R252). -/
inductive RunOutcome where
  | normalCompletion
  | chamberLinkFault
  | lcrLinkFault
  | configurationChanged
  | cancelled
  deriving DecidableEq, Repr

/-- The code of an outcome (45_host_environment.md R252). -/
def RunOutcome.code : RunOutcome → Nat
  | .normalCompletion => 0
  | .chamberLinkFault => 1
  | .lcrLinkFault => 2
  | .configurationChanged => 3
  | .cancelled => 4

/-- Whether an outcome is an error (45_host_environment.md R252). -/
def RunOutcome.isError : RunOutcome → Bool
  | .normalCompletion => false
  | .chamberLinkFault => true
  | .lcrLinkFault => true
  | .configurationChanged => true
  | .cancelled => false

/-- What the outside world gives the host in one tick (45_host_environment.md R247, R249, R251, R258). -/
structure TickInput where
  cancel       : Bool
  now          : Binary64
  samples      : List Binary64
  chamberError : Bool
  lcrBytes     : List Byte
  deriving DecidableEq, Repr

/-- The host's own variables in a run, and what it has written to the chamber (45_host_environment.md R243, R258). -/
structure LoopState where
  runStart : Binary64
  first    : Option MeasurementRecord
  lastPair : Option (Binary64 × Binary64)
  temps    : List (Binary64 × (Binary64 × Binary64))
  meas     : List (Decimal × Option Decimal)
  /-- The powers given to chamber.write since the run started, oldest first. -/
  writes   : List Binary64
  deriving DecidableEq, Repr

/-- The host's variables when a run starts (45_host_environment.md R243). -/
def LoopState.start (clock : Binary64) : LoopState :=
  { runStart := clock, first := none, lastPair := none, temps := [], meas := [], writes := [] }

/-- The configuration check of step 3: the reference after the records, none when one differs (45_host_environment.md R246). -/
def checkRecords : Option MeasurementRecord → List MeasurementRecord → Option (Option MeasurementRecord)
  | first, [] => some first
  | none, r :: rs => checkRecords (some r) rs
  | some r0, r :: rs => if sameConfig r r0 then checkRecords (some r0) rs else none

/-- Entry(r, first): measurement 2 is kept when the reference has a quantity 2 (45_host_environment.md R250). -/
def measurementEntry (first r : MeasurementRecord) : Decimal × Option Decimal :=
  (r.measurement1, if first.quantity2.isSome then r.measurement2 else none)

/-- The time series entries of a tick's samples: the newest takes this tick's pair, the older ones the last known pair
(45_host_environment.md R248). -/
def sampleEntries (last : Option (Binary64 × Binary64)) (pair : Binary64 × Binary64) (samples : List Binary64) :
    List (Binary64 × (Binary64 × Binary64)) :=
  samples.dropLast.map (fun x => (x, last.getD pair)) ++ (samples.getLast?.map fun x => (x, pair)).toList

/-- What one tick comes to. -/
inductive TickResult where
  /-- The run goes on; the power written to the chamber in the latest tick, if any. Those of all ticks are in `host.writes`. -/
  | running (block : State) (host : LoopState) (written : Option Binary64)
  /-- The run ended, with the block and the host's variables as the model leaves them (log 12). -/
  | ended (outcome : RunOutcome) (block : State) (host : LoopState)
  /-- The rules say nothing of this tick: elapsed is negative or not finite, there are samples and no waypoint, or a command was
  due and the port was not idle (log 12). -/
  | outsideSpec
  deriving DecidableEq, Repr

/-- Step 5: one update with the newest sample, whose output is written to the chamber (45_host_environment.md R248). -/
def controlStep (sp newest : Binary64) (samples : List Binary64) (s : State) (l : LoopState) :
    Option (State × Option (LoopState × Binary64)) := do
  let (bytes, s) ← transact (.pidUpdate sp newest) s
  match readUpdateReply bytes with
  | none => return (s, none)
  | some out =>
    let pair := (sp, out)
    return (s, some ({ l with writes := l.writes ++ [out],
                              temps := l.temps ++ sampleEntries l.lastPair pair samples, lastPair := some pair }, out))

/-- Step 6: append the measurements (45_host_environment.md R250). -/
def appendMeasurements (records : List MeasurementRecord) (l : LoopState) : LoopState :=
  match l.first with
  | none => l
  | some first => { l with meas := l.meas ++ records.map (measurementEntry first) }

/-- Steps 4 to 6 of a tick (45_host_environment.md R247, R248, R250). DESIGN CHOICE (log 17): the trajectory is not tested for
`Trajectory.legal`; with one that R253 excludes the tick runs on, but for one with no waypoint to give the
setpoint. -/
def tickAfterCheck (traj : Trajectory) (limit : Nat) (x : TickInput) (records : List MeasurementRecord) (s : State)
    (l : LoopState) : TickResult :=
  let elapsed := fsub x.now l.runStart
  if !validElapsed elapsed then .outsideSpec
  else if limit ≤ traj.iteration elapsed then .ended .normalCompletion s l
  else
    match x.samples.getLast? with
    | none => .running s (appendMeasurements records l) none
    | some newest =>
      match traj.value elapsed with
      | none => .outsideSpec
      | some sp =>
        match controlStep sp newest x.samples s l with
        | none => .outsideSpec
        | some (s, none) => .ended .chamberLinkFault s l
        | some (s, some (l, out)) => .running s (appendMeasurements records l) (some out)

/-- One tick of the loop (45_host_environment.md R243 to R251). RUN returns an outcome alone; DESIGN CHOICE (log 12): an ended
tick also gives the host's variables, and for a configuration change those before the tick's records. -/
def tick (traj : Trajectory) (limit : Nat) (x : TickInput) (s : State) (l : LoopState) : TickResult :=
  if x.cancel then .ended .cancelled s l
  else
    match runPolls x.now (pollChunks (x.lcrBytes.length / chunkMax) x.lcrBytes) s with
    | none => .outsideSpec
    | some (reply, s) =>
      if x.chamberError then .ended .chamberLinkFault s l
      else if reply.refused || reply.fault then .ended .lcrLinkFault s l
      else
        match checkRecords l.first reply.records with
        | none => .ended .configurationChanged s l
        | some first => tickAfterCheck traj limit x reply.records s { l with first := first }

/-- The loop over a list of ticks, up to the one that ends it (45_host_environment.md R243). -/
def runTicks (traj : Trajectory) (limit : Nat) : List TickInput → State → LoopState → TickResult
  | [], s, l => .running s l none
  | x :: later, s, l =>
    match tick traj limit x s l with
    | .running s l w =>
      match later with
      | [] => .running s l w
      | _ :: _ => runTicks traj limit later s l
    | r => r

/-- RUN: both unit resets, the run's start time, then the ticks (45_host_environment.md R242, R243). -/
def runLoop (traj : Trajectory) (limit : Nat) (clock : Binary64) (ticks : List TickInput) (s : State) : TickResult :=
  match transact .decReset s with
  | none => .outsideSpec
  | some (_, s) =>
    match transact .pidReset s with
    | none => .outsideSpec
    | some (_, s) => runTicks traj limit ticks s (LoopState.start clock)

end Sys2Proof.Machine
end

