-- ==== Sys2Proof/Machine/Instantiate.lean ====
section
/-! DEFINITION. Instantiation: which parameters are legal, and the machine they give (70_reset_and_hazards.md R313). -/

namespace Sys2Proof

open Sys2Proof.Machine

/-- The time constants are in range (00_scope.md R10). -/
def Config.timesLegal (c : Config) : Bool :=
  isFinite c.byteTime && fge c.byteTime posZero &&
  isFinite c.framePeriod && fgt c.framePeriod posZero &&
  isFinite c.driftTol && fgt c.driftTol posZero &&
  isFinite c.staleTimeout && fgt c.staleTimeout posZero

/-- The controller's constants are in range (00_scope.md R11, R12). -/
def Config.gainsLegal (c : Config) : Bool :=
  isFinite c.kp && isFinite c.ki && isFinite c.kd &&
  isFinite c.dt && fgt c.dt posZero &&
  isFinite c.windupLimit && fge c.windupLimit posZero

/-- SCALE_TABLE has 11 entries for 11 codes, each with k in -12..6 (40_frame_decode.md R136). -/
def Config.scaleTableLegal (c : Config) : Bool :=
  decide (c.scaleTable.length = 11) && decide (c.scaleTable.map Prod.fst).Nodup &&
  c.scaleTable.all fun e => decide (-12 ≤ e.2 ∧ e.2 ≤ 6)

/-- The parameters an instantiation accepts (70_reset_and_hazards.md R313). -/
def Config.legal (c : Config) : Bool :=
  c.gainsLegal && c.timesLegal && decide (17 ≤ c.bufCap ∧ c.bufCap < 1114112) &&
  decide (c.m2InfoByte = 13 ∨ c.m2InfoByte = 14) && c.scaleTableLegal

namespace Machine

/-- The machine with the parameters c after its power-on reset, refused when they are illegal (70_reset_and_hazards.md R310, R313). -/
def instantiate (c : Config) : Host.Outcome State Fault Refusal :=
  if c.legal then .next (State.resetWith c) else .refused .illegalConfiguration

end Machine

end Sys2Proof
end

