-- ==== Sys2Proof/Safety.lean ====
section
/-! DEFINITION. What holds of every machine that was instantiated legally and stepped from its reset: the terms the claims use. -/

namespace Sys2Proof.Machine

/-- The DEC unit's invariant. -/
structure DecInv (c : Config) (d : DecState) : Prop where
  /-- BUF never holds more than BUF_CAP bytes (10_state.md R32; 20_memory.md R72). -/
  bufFits : d.buf.length ≤ c.bufCap
  /-- FC stays below 2^32 (10_state.md R39). -/
  counterBounded : d.fc < 2 ^ 32
  /-- While synchronized, less than a frame is left in BUF between commands (41_decoder_poll.md R165, 1). -/
  syncedShort : d.sync = true → d.buf.length < 17
  /-- FAULT says exactly that at least one cause is set (60_exceptions.md R286). -/
  faultRecorded : d.fault = (d.cause.drift || d.cause.marker || d.cause.stale)
  /-- LR is absent only before the session's first poll (10_state.md R36). -/
  freshUntilPolled : d.lr = none → d = DecState.reset
  /-- LR is a `now` operand, so finite (41_decoder_poll.md R152, R154). -/
  lastReceiveFinite : ∀ x, d.lr = some x → isFinite x = true
  /-- T0 and T1 are written together, with the same value (41_decoder_poll.md R157). -/
  estimatesAgree : d.t0 = d.t1
  /-- An estimate is never a NaN (41_decoder_poll.md R157; log 8). -/
  estimateNumber : ∀ x, d.t1 = some x → isNaN x = false
  /-- A nonzero frame counter means a frame was completed (41_decoder_poll.md R159). -/
  countedCompleted : d.fc ≠ 0 → d.ec = true

/-- The PID unit's invariant. -/
structure PidInv (p : PidState) : Prop where
  /-- PV is absent only before the first accepted update (10_state.md R41). -/
  freshUntilUpdated : p.pv = none → p = PidState.reset
  /-- PV is an accepted operand, so finite (42_pid.md R198). -/
  previousFinite : ∀ x, p.pv = some x → isFinite x = true
  /-- PE is never a NaN (42_pid.md R199). -/
  errorNumber : isNaN p.pe = false
  /-- I is never a NaN (42_pid.md R199). -/
  integralNumber : isNaN p.i = false

/-- The machine's invariant: legal parameters (70_reset_and_hazards.md R313) and both units'. -/
structure State.Inv (s : State) : Prop where
  legal : s.cfg.legal = true
  dec   : DecInv s.cfg s.dec
  pid   : PidInv s.pid

/-- The port is idle: nothing received is waiting, nothing is undelivered, the reset pin is not asserted. -/
structure State.PortIdle (s : State) : Prop where
  cmd  : s.cmd = []
  resp : s.resp = []
  rst  : s.rst = false

/-- A sequence of commands, each executed at the state the one before it left (20_memory.md R84). -/
def execAll : List Instr → State → Host.Outcome State Fault Refusal
  | [], s => .next s
  | i :: later, s =>
    match exec i s with
    | .next s' => execAll later s'
    | .fault r => .fault r
    | .refused r => .refused r

/-- The commands of the DEC unit (30_encoding.md R100). -/
def isDecCommand : Instr → Bool
  | .decReset => true
  | .decPoll _ _ => true
  | .pidReset => false
  | .pidUpdate _ _ => false
  | .readReg _ => false

/-- The commands of the PID unit (30_encoding.md R100). -/
def isPidCommand : Instr → Bool
  | .decReset => false
  | .decPoll _ _ => false
  | .pidReset => true
  | .pidUpdate _ _ => true
  | .readReg _ => false

/-- When the block performs a DEC_POLL rather than refusing it (41_decoder_poll.md R152). -/
structure PollAccepted (now : Binary64) (data : List Byte) (s : State) : Prop where
  finite : isFinite now = true
  fits   : s.dec.buf.length + data.length ≤ s.cfg.bufCap
  counts : s.dec.fc + (s.dec.buf.length + data.length) / 17 < 2 ^ 32

/-- The register numbers that are not reserved (43_register_access.md R220). -/
def registerDefined (reg : Byte) : Prop :=
  reg.toNat ≤ 0x05 ∨ (0x10 ≤ reg.toNat ∧ reg.toNat ≤ 0x13) ∨ (0x20 ≤ reg.toNat ∧ reg.toNat ≤ 0x24) ∨
  (0x30 ≤ reg.toNat ∧ reg.toNat ≤ 0x35) ∨ reg.toNat = 0xFF

/-- The frame f is 17 bytes with the four markers (30_encoding.md R90). -/
def ValidFrame (f : List Byte) : Prop := f.length = 17 ∧ markersOK f 0 = true

end Sys2Proof.Machine
end

