-- ==== Sys2Proof/Certificates/Slice0/Obligations.lean ====
section
/-! DEFINITION. The statements for the provers. -/

open Sys2Proof Sys2Proof.Machine

/-! ## Encoding and the command stream -/

/-- Tier 1: words written out from 30_encoding.md R100 to R104 decode to the commands they stand for, and 0x7F is reserved. -/
def Obligations.WordsDecodeAsTheTableSays : Prop :=
  decode [0x01, 0xAA] = .command .decReset [0xAA] ∧
  decode [0x02, 0x40, 0x24, 0, 0, 0, 0, 0, 0, 0, 1, 0x55] = .command (.decPoll 0x4024000000000000 [0x55]) [] ∧
  decode [0x11] = .command .pidReset [] ∧
  decode [0x12, 0x40, 0x3E, 0, 0, 0, 0, 0, 0, 0x40, 0x39, 0, 0, 0, 0, 0, 0] =
    .command (.pidUpdate 0x403E000000000000 0x4039000000000000) [] ∧
  decode [0xF0, 0x13] = .command (.readReg 0x13) [] ∧
  decode [0x7F, 0x01] = .reserved 0x7F [0x01]

/-- Every command with an encoding is read back from its bytes, whatever bytes follow it (30_encoding.md R99 to R104). -/
def Obligations.DecodeInvertsEncode : Prop :=
  ∀ (i : Instr) (rest : List Byte), i.wf = true → decode (encode i ++ rest) = .command i rest

/-- Bytes that decode to a command are exactly that command's encoding and what follows it: every word has one meaning. -/
def Obligations.DecodedBytesAreTheEncoding : Prop :=
  ∀ (bs : List Byte) (i : Instr) (rest : List Byte),
    decode bs = .command i rest → i.wf = true ∧ bs = encode i ++ rest

/-- 30_encoding.md R113: the length from byte 0, and from bytes 9..10 for 0x02. -/
def Obligations.CommandLengthFollowsTheOpcode : Prop :=
  ∀ (op : Byte) (args : List Byte),
    (op = 0x02 → ∀ (hi lo : Byte), args[8]? = some hi → args[9]? = some lo →
      commandLength (op :: args) = some (11 + (hi.toNat * 256 + lo.toNat))) ∧
    (op = 0x12 → commandLength (op :: args) = some 17) ∧
    (op = 0xF0 → commandLength (op :: args) = some 2) ∧
    (op ≠ 0x02 → op ≠ 0x12 → op ≠ 0xF0 → commandLength (op :: args) = some 1)

/-- A step runs the command at the head of the stream and takes its bytes (30_encoding.md R99; 20_memory.md R84). -/
def Obligations.StepRunsTheDecodedCommand : Prop :=
  ∀ (s : State) (i : Instr) (rest : List Byte),
    s.rst = false → decode s.cmd = .command i rest → step s = exec i { s with cmd := rest }

/-- 43_register_access.md R223: a reserved opcode is one byte, answered ILLEGAL, and nothing else changes. -/
def Obligations.ReservedOpcodeIsAnsweredIllegal : Prop :=
  ∀ (s : State) (op : Byte) (rest : List Byte),
    s.rst = false → s.cmd = op :: rest → op ∉ ([0x01, 0x02, 0x11, 0x12, 0xF0] : List Byte) →
      step s = .next { s with cmd := rest, resp := s.resp ++ [0x01] }

/-- 30_encoding.md R99: the work of a command starts only when all its bytes have arrived; then it runs. That the waiting
block has no step is 70_reset_and_hazards.md R327. -/
def Obligations.PartialCommandWaitsForItsBytes : Prop :=
  ∀ (s : State) (i : Instr) (k : Nat),
    i.wf = true → s.rst = false → s.cmd = (encode i).take k → k < (encode i).length →
      step s = .refused .awaitingCommandBytes ∧
      step (s.deliver ((encode i).drop k)) = exec i { s with cmd := [] }

/-- Every command ends in a next state with one response appended, and leaves the parameters, the command stream and the
reset pin alone (30_encoding.md R105; 20_memory.md R80; 10_state.md R30). -/
def Obligations.EveryCommandCompletesWithOneResponse : Prop :=
  ∀ (i : Instr) (s : State), ∃ (t : State) (r : List Byte),
    exec i s = .next t ∧ t.resp = s.resp ++ r ∧ r ≠ [] ∧ t.cfg = s.cfg ∧ t.cmd = s.cmd ∧ t.rst = s.rst

/-- 30_encoding.md R111: the length of every response. The number k of records stands in bytes 2 and 3 of the response. -/
def Obligations.ResponseLengths : Prop :=
  ∀ (i : Instr) (s : State), s.Inv → ∃ (t : State) (r : List Byte),
    exec i s = .next t ∧ t.resp = s.resp ++ r ∧
    ((∃ st : Status, st ≠ .ok ∧ r = [st.code]) ∨
     (r.head? = some 0x00 ∧
      match i with
      | .decReset => r.length = 1
      | .decPoll _ _ => ∃ flags hi lo recs,
          r = 0x00 :: flags :: hi :: lo :: recs ∧ r.length = 4 + 12 * (hi.toNat * 256 + lo.toNat)
      | .pidReset => r.length = 1
      | .pidUpdate _ _ => r.length = 10
      | .readReg _ => r.length = 9))

/-- 20_memory.md R84: running the stream of several commands is their sequential composition. -/
def Obligations.CommandStreamIsSequentialComposition : Prop :=
  ∀ (is : List Instr) (s : State) (rest : List Byte),
    (∀ i ∈ is, i.wf = true) → s.rst = false → s.cmd = (is.map encode).flatten ++ rest →
      Host.Core.run Sys2Proof.core is.length s = execAll is { s with cmd := rest }

/-- 10_state.md R31: each unit's commands read and write that unit's state only (and read the parameters); READ_REG writes none. -/
def Obligations.UnitsOwnDisjointState : Prop :=
  (∀ (i : Instr) (s s' : State), isDecCommand i = true → s.cfg = s'.cfg → s.dec = s'.dec →
    ∃ (t t' : State) (r : List Byte), exec i s = .next t ∧ exec i s' = .next t' ∧
      t.dec = t'.dec ∧ t.resp = s.resp ++ r ∧ t'.resp = s'.resp ++ r ∧ t.pid = s.pid ∧ t'.pid = s'.pid) ∧
  (∀ (i : Instr) (s s' : State), isPidCommand i = true → s.cfg = s'.cfg → s.pid = s'.pid →
    ∃ (t t' : State) (r : List Byte), exec i s = .next t ∧ exec i s' = .next t' ∧
      t.pid = t'.pid ∧ t.resp = s.resp ++ r ∧ t'.resp = s'.resp ++ r ∧ t.dec = s.dec ∧ t'.dec = s'.dec) ∧
  (∀ (reg : Byte) (s : State), ∃ t : State, exec (.readReg reg) s = .next t ∧ t.dec = s.dec ∧ t.pid = s.pid)

/-- 20_memory.md R89: the state of each unit after a sequence of commands depends only on the commands addressed to it. -/
def Obligations.UnitSequencesAreIndependent : Prop :=
  ∀ (is : List Instr) (s : State), ∃ t u v : State,
    execAll is s = .next t ∧
    execAll (is.filter isDecCommand) s = .next u ∧ t.dec = u.dec ∧
    execAll (is.filter isPidCommand) s = .next v ∧ t.pid = v.pid

/-! ## Reset, instantiation, invariants -/

/-- 41_decoder_poll.md R166, with its example. -/
def Obligations.DecResetRestoresResetValues : Prop :=
  encode .decReset = [0x01] ∧
  (∀ s : State, exec .decReset s = .next { s with
    dec := { buf := [], sync := false, fault := false, cause := { drift := false, marker := false, stale := false },
             lr := none, t0 := none, t1 := none, fc := 0, ec := false },
    resp := s.resp ++ [0x00] }) ∧
  (∀ s t : State, exec .decReset s = .next t → ∃ u, exec .decReset t = .next u ∧ u.dec = t.dec) ∧
  (∀ s t : State, exec .decReset s = .next t →
    exec (.readReg 0x00) t = .next { t with resp := t.resp ++ [0x00, 0, 0, 0, 0, 0, 0, 0, 0] })

/-- 42_pid.md R200. -/
def Obligations.PidResetRestoresResetValues : Prop :=
  encode .pidReset = [0x11] ∧
  (∀ s : State, exec .pidReset s = .next { s with
    pid := { pv := none, pe := 0x0000000000000000, i := 0x0000000000000000, sat := false },
    resp := s.resp ++ [0x00] }) ∧
  (∀ s t : State, exec .pidReset s = .next t → ∃ u, exec .pidReset t = .next u ∧ u.pid = t.pid)

/-- 70_reset_and_hazards.md R310: the block reset, by its pin and at power-on (`instantiate`). That it
empties the command stream of whole commands not yet started, and not of a partial one alone, is the model's choice (log 7).
Nothing is said of the pin's level after it, which is the model's choice too (log 7). -/
def Obligations.BlockResetRestoresEveryElement : Prop :=
  (∀ s : State, s.rst = true → ∃ t : State, step s = .next t ∧
    t.dec = { buf := [], sync := false, fault := false, cause := { drift := false, marker := false, stale := false },
              lr := none, t0 := none, t1 := none, fc := 0, ec := false } ∧
    t.pid = { pv := none, pe := 0x0000000000000000, i := 0x0000000000000000, sat := false } ∧
    t.decFaultPin = false ∧ t.decSyncPin = false ∧ t.pidSaturatedPin = false ∧
    t.cmd = [] ∧ t.resp = [] ∧ t.cfg = s.cfg) ∧
  (∀ c : Config, c.legal = true → ∃ t : State, instantiate c = .next t ∧ t.cfg = c ∧
    ∀ s : State, t.dec = s.blockReset.dec ∧ t.pid = s.blockReset.pid ∧
      t.cmd = s.blockReset.cmd ∧ t.resp = s.blockReset.resp)

/-- 70_reset_and_hazards.md R311: each unit reset resets its unit to the values of the block reset and leaves the rest; both
together are the block reset, but for the streams. That the block reset discards whole waiting commands too is the model's
choice (log 7). -/
def Obligations.UnitResetsMakeUpTheBlockReset : Prop :=
  ∀ s : State, ∃ t u : State, exec .decReset s = .next t ∧ exec .pidReset t = .next u ∧
    t.dec = s.blockReset.dec ∧ t.pid = s.pid ∧ t.cfg = s.cfg ∧ t.cmd = s.cmd ∧
    u.pid = s.blockReset.pid ∧ u.dec = t.dec ∧ u.cfg = s.cfg ∧ u.cmd = s.cmd ∧
    s.blockReset = { u with cmd := [], resp := [] }

/-- 70_reset_and_hazards.md R313: exactly the parameters that meet every condition are instantiated. A finite value is
compared with zero through its exact value. That the 11 entries of SCALE_TABLE are entries for 11 different codes (the clause
`Nodup`) is the model's reading of "has 11 entries" after 40_frame_decode.md R136 (log 9, DEDUCED). -/
def Obligations.InstantiationRefusesIllegalParameters : Prop :=
  ∀ c : Config,
    let legal : Prop :=
      (isFinite c.kp = true ∧ isFinite c.ki = true ∧ isFinite c.kd = true ∧
        isFinite c.dt = true ∧ 0 < signedUnits c.dt) ∧
      (isFinite c.windupLimit = true ∧ 0 ≤ signedUnits c.windupLimit) ∧
      (isFinite c.byteTime = true ∧ 0 ≤ signedUnits c.byteTime ∧
        isFinite c.framePeriod = true ∧ 0 < signedUnits c.framePeriod ∧
        isFinite c.driftTol = true ∧ 0 < signedUnits c.driftTol ∧
        isFinite c.staleTimeout = true ∧ 0 < signedUnits c.staleTimeout) ∧
      (17 ≤ c.bufCap ∧ c.bufCap < 1114112) ∧
      (c.m2InfoByte = 13 ∨ c.m2InfoByte = 14) ∧
      (c.scaleTable.length = 11 ∧ (c.scaleTable.map Prod.fst).Nodup ∧ ∀ e ∈ c.scaleTable, -12 ≤ e.2 ∧ e.2 ≤ 6)
    (legal → instantiate c = .next (State.resetWith c)) ∧
    (¬ legal → instantiate c = .refused .illegalConfiguration)

/-- The invariant holds of every legally instantiated machine, and of `State.reset`, whatever its free gains (log 2). -/
def Obligations.ResetMeetsTheInvariant : Prop :=
  State.reset.Inv ∧ ∀ (c : Config) (t : State), instantiate c = .next t → t.Inv

/-- Every step keeps the invariant: a command, a reserved opcode's answer, a block reset. -/
def Obligations.StepKeepsTheInvariant : Prop :=
  ∀ s t : State, s.Inv → step s = .next t → t.Inv

/-- The parameters never change, whatever the step (10_state.md R49; 00_scope.md section 4). -/
def Obligations.StepKeepsTheParameters : Prop :=
  ∀ s t : State, step s = .next t → t.cfg = s.cfg

/-- 00_scope.md R10 and R12: the defaults are the binary64 values nearest to the literals 0.0177, 0.5024, 0.3, 5.0 and 10.0,
and have the patterns the spec gives. -/
def Obligations.DefaultConstantsAreNearestToTheLiterals : Prop :=
  ∀ kp ki kd dt : Binary64,
    let c := Config.withGains kp ki kd dt
    c.byteTime = 0x3F921FF2E48E8A72 ∧ c.framePeriod = 0x3FE013A92A305532 ∧ c.driftTol = 0x3FD3333333333333 ∧
    c.staleTimeout = 0x4014000000000000 ∧
    signedUnits c.staleTimeout = 5 * unitsPerOne ∧ signedUnits c.windupLimit = 10 * unitsPerOne ∧
    ∀ z : Binary64, isFinite z = true →
      (10000 * signedUnits c.byteTime - 177 * unitsPerOne).natAbs ≤ (10000 * signedUnits z - 177 * unitsPerOne).natAbs ∧
      (10000 * signedUnits c.framePeriod - 5024 * unitsPerOne).natAbs ≤ (10000 * signedUnits z - 5024 * unitsPerOne).natAbs ∧
      (10 * signedUnits c.driftTol - 3 * unitsPerOne).natAbs ≤ (10 * signedUnits z - 3 * unitsPerOne).natAbs

/-! ## Binary64 arithmetic (00_scope.md R20) -/

/-- x + y and x - y of finite values: infinite exactly when the exact result is at or past the middle between the largest
finite value and the next binade, and otherwise the nearest finite value, the one with an even significand when two are
equally near. -/
def Obligations.AdditionAndSubtractionRoundToNearestEven : Prop :=
  ∀ x y : Binary64, isFinite x = true → isFinite y = true →
    (isFinite (fadd x y) = true ↔ (signedUnits x + signedUnits y).natAbs < (2 ^ 54 - 1) * 2 ^ 2044) ∧
    (isFinite (fsub x y) = true ↔ (signedUnits x - signedUnits y).natAbs < (2 ^ 54 - 1) * 2 ^ 2044) ∧
    ∀ z : Binary64, isFinite z = true →
      (isFinite (fadd x y) = true →
        let exact := signedUnits x + signedUnits y
        let near := (exact - signedUnits (fadd x y)).natAbs
        let other := (exact - signedUnits z).natAbs
        near ≤ other ∧
        (near = other → signedUnits z ≠ signedUnits (fadd x y) → (fadd x y).getLsbD 0 = false)) ∧
      (isFinite (fsub x y) = true →
        let exact := signedUnits x - signedUnits y
        let near := (exact - signedUnits (fsub x y)).natAbs
        let other := (exact - signedUnits z).natAbs
        near ≤ other ∧
        (near = other → signedUnits z ≠ signedUnits (fsub x y) → (fsub x y).getLsbD 0 = false))

/-- x * y of finite values: finite exactly when the exact product, signedUnits x * signedUnits y over 2^1074, is below the
middle between the largest finite value and the next binade, and then the nearest finite value, the one with an even
significand when two are equally near. -/
def Obligations.MultiplicationRoundsToNearestEven : Prop :=
  ∀ x y : Binary64, isFinite x = true → isFinite y = true →
    let exact := signedUnits x * signedUnits y
    (isFinite (fmul x y) = true ↔ exact.natAbs < unitsPerOne * ((2 ^ 54 - 1) * 2 ^ 2044)) ∧
    ∀ z : Binary64, isFinite z = true → isFinite (fmul x y) = true →
      let near := (exact - unitsPerOne * signedUnits (fmul x y)).natAbs
      let other := (exact - unitsPerOne * signedUnits z).natAbs
      near ≤ other ∧ (near = other → signedUnits z ≠ signedUnits (fmul x y) → (fmul x y).getLsbD 0 = false)

/-- x / y of finite values, y not zero: finite exactly when the exact quotient, signedUnits x * 2^1074 over signedUnits y, is
below that middle, and then the nearest finite value, the one with an even significand when two are equally near. -/
def Obligations.DivisionRoundsToNearestEven : Prop :=
  ∀ x y : Binary64, isFinite x = true → isFinite y = true → units y ≠ 0 →
    let exact := signedUnits x * unitsPerOne
    (isFinite (fdiv x y) = true ↔ exact.natAbs < units y * ((2 ^ 54 - 1) * 2 ^ 2044)) ∧
    ∀ z : Binary64, isFinite z = true → isFinite (fdiv x y) = true →
      let near := (exact - signedUnits y * signedUnits (fdiv x y)).natAbs
      let other := (exact - signedUnits y * signedUnits z).natAbs
      near ≤ other ∧ (near = other → signedUnits z ≠ signedUnits (fdiv x y) → (fdiv x y).getLsbD 0 = false)

/-- The comparisons of two patterns that are not NaN compare their values, each infinity lying beyond every finite value; a
NaN makes all four false; abs clears the sign bit of every pattern, and of a finite value gives the magnitude. -/
def Obligations.ComparisonsCompareValues : Prop :=
  let value (x : Binary64) : WithBot (WithTop Int) :=
    if x = 0x7FF0000000000000 then ⊤ else if x = 0xFFF0000000000000 then ⊥ else ((signedUnits x : WithTop Int) : WithBot (WithTop Int))
  (∀ x y : Binary64, isNaN x = false → isNaN y = false →
    (flt x y = true ↔ value x < value y) ∧ (fgt x y = true ↔ value y < value x) ∧
    (fle x y = true ↔ value x ≤ value y) ∧ (fge x y = true ↔ value y ≤ value x)) ∧
  (∀ x y : Binary64, isNaN x = true ∨ isNaN y = true →
    flt x y = false ∧ fgt x y = false ∧ fle x y = false ∧ fge x y = false) ∧
  (∀ (x : Binary64) (k : Nat), (fabs x).getLsbD k = (x.getLsbD k && decide (k ≠ 63))) ∧
  (∀ x : Binary64, isFinite x = true → isFinite (fabs x) = true ∧ signedUnits (fabs x) = units x)

/-- f64(n) of a natural up to 2^53 is exact (41_decoder_poll.md R151, last sentence). -/
def Obligations.SmallNaturalsConvertExactly : Prop :=
  ∀ n : Nat, n ≤ 2 ^ 53 → isFinite (f64 n) = true ∧ signedUnits (f64 n) = (n * unitsPerOne : Nat)

/-! ## Frames and records -/

/-- Only the bits 30_encoding.md R91 marks as used reach the record, so every value of the others is accepted (R114). -/
def Obligations.IgnoredFrameBitsHaveNoEffect : Prop :=
  ∀ (c : Config) (f g : List Byte),
    (∀ k ∈ [5, 6, 7, 8, 10, 11, 12, c.m2InfoByte], f.getD k 0 = g.getD k 0) →
    (f.getD 2 0).getLsbD 7 = (g.getD 2 0).getLsbD 7 →
    (∀ b ∈ [5, 6, 7], (f.getD 3 0).getLsbD b = (g.getD 3 0).getLsbD b) →
      decodeFrame c f = decodeFrame c g ∧ packRecord c (emitFrame c f) = packRecord c (emitFrame c g)

/-- 40_frame_decode.md R133: the frequency decode, with the default table. -/
def Obligations.FrequencyCodes : Prop :=
  ∀ (kp ki kd dt : Binary64) (f : List Byte),
    (decodeFrame (Config.withGains kp ki kd dt) f).frequency =
      match (f.getD 3 0).toNat / 32 with
      | 0 => .hz100
      | 1 => .hz120
      | 2 => .hz1000
      | 3 => .hz10000
      | 4 => .hz100000
      | 5 => .dc
      | _ => .unknown

/-- 40_frame_decode.md R138: the value of a measurement, its bounds for legal parameters, and the spec's example. -/
def Obligations.MeasurementValueIsAnExactDecimal : Prop :=
  (∀ d : Decimal, d.value = (d.mant.toNat : ℚ) * (10 : ℚ) ^ (d.k - (d.expo.toNat : Int))) ∧
  (∀ (c : Config) (f : List Byte), c.legal = true →
    ∀ d : Decimal, d = (decodeFrame c f).measurement1 ∨ some d = (decodeFrame c f).measurement2 →
      0 ≤ d.value ∧ d.value ≤ 65535 * 10 ^ 6) ∧
  (Decimal.mk 1234 3 (-3)).value = 1234 / 1000000

/-- 40_frame_decode.md R140 and R141: quantity 2 and measurement 2 are absent together, and measurement 1 is the frame's
mantissa, exponent and scale whether or not quantity 1 is present. -/
def Obligations.SecondMeasurementIsAbsentWithItsQuantity : Prop :=
  ∀ (c : Config) (f : List Byte),
    ((decodeFrame c f).measurement2 = none ↔ (decodeFrame c f).quantity2 = none) ∧
    ((decodeFrame c f).quantity2 = none ↔ c.q2Table.lookup (f.getD 10 0) = none) ∧
    ∃ k : Int, (decodeFrame c f).measurement1 =
      { mant := BitVec.ofNat 16 ((f.getD 6 0).toNat * 256 + (f.getD 7 0).toNat),
        expo := BitVec.ofNat 3 ((f.getD 8 0).toNat % 8), k := k } ∧
      k = (c.scaleTable.lookup (BitVec.ofNat 5 ((f.getD 8 0).toNat / 8))).getD 0

/-- 30_encoding.md R108: the 12 bytes of a record, and the host's recovery of the whole typed record from them. -/
def Obligations.PackedRecordLayoutAndRecovery : Prop :=
  ∀ (c : Config) (f : List Byte), c.legal = true →
    let b := packRecord c (emitFrame c f)
    let known1 := (c.q1Table.lookup (f.getD 5 0, (f.getD 2 0).getLsbD 7)).isSome
    let known2 := (c.q2Table.lookup (f.getD 10 0)).isSome
    let info2 := f.getD c.m2InfoByte 0
    let scale1 := c.scaleTable.lookup (BitVec.ofNat 5 ((f.getD 8 0).toNat / 8))
    let scale2 := c.scaleTable.lookup (BitVec.ofNat 5 (info2.toNat / 8))
    b.length = 12 ∧
    (b.getD 0 0).toNat = (f.getD 3 0).toNat / 32 * 32 + (f.getD 2 0).toNat / 128 * 16 +
      (if known1 then 8 else 0) + (if known2 then 4 else 0) ∧
    b.getD 1 0 = f.getD 5 0 ∧ b.getD 2 0 = f.getD 10 0 ∧
    b.getD 3 0 = f.getD 6 0 ∧ b.getD 4 0 = f.getD 7 0 ∧ b.getD 5 0 = f.getD 8 0 ∧
    b.getD 6 0 = (if known2 then f.getD 11 0 else 0) ∧ b.getD 7 0 = (if known2 then f.getD 12 0 else 0) ∧
    b.getD 8 0 = (if known2 then info2 else 0) ∧
    (b.getD 9 0).toInt = scale1.getD 0 ∧
    (b.getD 10 0).toInt = (if known2 then scale2.getD 0 else 0) ∧
    (b.getD 11 0).toNat = (if scale1.isSome then 1 else 0) + (if known2 && scale2.isSome then 2 else 0) ∧
    unpackRecord c b = decodeFrame c f

/-- 40_frame_decode.md R142: the configuration is the decoded frequency and the two tags, and nothing else. -/
def Obligations.ConfigurationIsTheDecodedTriple : Prop :=
  ∀ r r' : MeasurementRecord,
    sameConfig r r' = true ↔
      r.frequency = r'.frequency ∧ r.quantity1 = r'.quantity1 ∧ r.quantity2 = r'.quantity2

/-! ## DEC_POLL -/

/-- 41_decoder_poll.md R152: the three refusals, in their order; a refused poll changes nothing but the response. -/
def Obligations.PollRefusals : Prop :=
  ∀ (s : State) (now : Binary64) (data : List Byte),
    (isFinite now = false → exec (.decPoll now data) s = .next { s with resp := s.resp ++ [0x02] }) ∧
    (isFinite now = true → s.cfg.bufCap < s.dec.buf.length + data.length →
      exec (.decPoll now data) s = .next { s with resp := s.resp ++ [0x04] }) ∧
    (isFinite now = true → s.dec.buf.length + data.length ≤ s.cfg.bufCap →
      2 ^ 32 ≤ s.dec.fc + (s.dec.buf.length + data.length) / 17 →
      exec (.decPoll now data) s = .next { s with resp := s.resp ++ [0x04] })

/-- An accepted poll completes: its five steps in order on the DEC state, and the OK response of 30_encoding.md R107, whose
flags byte is given as the sum of its bits. Its frame: the PID state, the parameters, the command stream and the pin are as before. -/
def Obligations.AcceptedPollCompletes : Prop :=
  ∀ (s : State) (now : Binary64) (data : List Byte), PollAccepted now data s →
    let d3 := pollDrift s.cfg now (pollSync (pollAppend now data s.dec))
    let x := pollExtract s.cfg d3
    let d5 := pollStale s.cfg now x.dec
    let bit (b : Bool) (n : Nat) : Nat := if b then 2 ^ n else 0
    let flags : Nat := bit d5.sync 0 + bit d5.fault 1 + bit d5.ec 2 +
      bit d5.cause.drift 4 + bit d5.cause.marker 5 + bit d5.cause.stale 6
    exec (.decPoll now data) s = .next { s with
      dec := d5,
      resp := s.resp ++ ([0x00, BitVec.ofNat 8 flags, BitVec.ofNat 8 (x.records.length / 256), BitVec.ofNat 8 x.records.length] ++
        (x.records.map (packRecord s.cfg)).flatten) }

/-- 41_decoder_poll.md R153 and R154, on the whole command: LR after an accepted poll. -/
def Obligations.PollMovesLastReceive : Prop :=
  ∀ (s : State) (now : Binary64) (data : List Byte), PollAccepted now data s →
    ∃ t : State, exec (.decPoll now data) s = .next t ∧
      (data ≠ [] ∨ s.dec.lr = none → t.dec.lr = some now) ∧
      (data = [] → s.dec.lr ≠ none → t.dec.lr = s.dec.lr)

/-- Where every byte goes (20_memory.md R73, R74; 41_decoder_poll.md R155, R159): the retained and the new bytes are, in
order, the bytes dropped at sync (none when already synchronized), the frames extracted, and the bytes kept; the records are
those of the frames, in order, and FC and EC follow them. -/
def Obligations.PollPartitionsTheByteStream : Prop :=
  ∀ (s : State) (now : Binary64) (data : List Byte), PollAccepted now data s →
    ∃ (t : State) (junk : List Byte) (frames : List (List Byte)),
      exec (.decPoll now data) s = .next t ∧
      s.dec.buf ++ data = junk ++ frames.flatten ++ t.dec.buf ∧
      (∀ f ∈ frames, f.length = 17 ∧
        f[0]? = some 0x00 ∧ f[1]? = some 0x0D ∧ f[15]? = some 0x0D ∧ f[16]? = some 0x0A) ∧
      (s.dec.sync = true → junk = []) ∧
      t.resp = s.resp ++ ([0x00, pollFlags t.dec] ++ beBytes 2 frames.length ++
        (frames.map fun f => packRecord s.cfg (emitFrame s.cfg f)).flatten) ∧
      (t.dec.fc = s.dec.fc + frames.length ∨ t.dec.fc = frames.length) ∧
      t.dec.ec = (s.dec.ec || !frames.isEmpty)

/-- 41_decoder_poll.md R155: sync acquisition. The marker test is spelled out as the four bytes of 40_frame_decode.md R130. -/
def Obligations.SyncTakesTheLeastMarkedOffset : Prop :=
  ∀ d : DecState,
    let marked (i : Nat) : Prop :=
      d.buf[i]? = some 0x00 ∧ d.buf[i + 1]? = some 0x0D ∧ d.buf[i + 15]? = some 0x0D ∧ d.buf[i + 16]? = some 0x0A
    (d.sync = true ∨ d.buf.length < 17 → pollSync d = d) ∧
    (d.sync = false → 17 ≤ d.buf.length → (∀ i, i + 17 ≤ d.buf.length → ¬ marked i) → pollSync d = d) ∧
    (∀ i : Nat, d.sync = false → i + 17 ≤ d.buf.length → marked i → (∀ j, j < i → ¬ marked j) →
      pollSync d = { d with buf := d.buf.drop i, sync := true })

/-- 41_decoder_poll.md R156 and R157: the drift check. -/
def Obligations.DriftCheckRule : Prop :=
  ∀ (c : Config) (now : Binary64) (d : DecState),
    let part := d.buf.length % 17
    let t0 := fsub now (fmul (f64 part) c.byteTime)
    let nominal := fmul (f64 (d.fc + d.buf.length / 17)) c.framePeriod
    let due := d.sync = true ∧ d.fault = false ∧ (d.fc ≠ 0 ∨ d.ec = false)
    (¬ due ∨ part = 0 → pollDrift c now d = d) ∧
    (due → part ≠ 0 → d.t1 = none → pollDrift c now d = { d with t0 := some t0, t1 := some t0 }) ∧
    (∀ p : Binary64, due → part ≠ 0 → d.t1 = some p →
      (flt (fsub (fsub t0 p) nominal) c.driftTol = true →
        pollDrift c now d = { d with t0 := some t0, t1 := some t0, fc := 0 }) ∧
      (flt (fsub (fsub t0 p) nominal) c.driftTol = false →
        pollDrift c now d = { d with t0 := some t0, t1 := some t0, fault := true, cause := { d.cause with drift := true } }))

/-- 41_decoder_poll.md R158 to R160: what the extraction loop leaves. -/
def Obligations.ExtractionLoopEndsByTheRules : Prop :=
  ∀ (c : Config) (d : DecState),
    let x := pollExtract c d
    (d.sync = false → x = { dec := d, records := [] }) ∧
    (x.dec.sync = false ∨ x.dec.buf.length < 17) ∧
    x.dec.fc = d.fc + x.records.length ∧
    x.dec.ec = (d.ec || !x.records.isEmpty) ∧
    x.dec.lr = d.lr ∧ x.dec.t0 = d.t0 ∧ x.dec.t1 = d.t1 ∧
    (d.sync = true → x.dec.sync = true → x.dec.fault = d.fault ∧ x.dec.cause = d.cause) ∧
    (d.sync = true → x.dec.sync = false →
      17 ≤ x.dec.buf.length ∧ markersOK x.dec.buf 0 = false ∧
      (c.mismatchFaults = true → x.dec.fault = true ∧ x.dec.cause = { d.cause with marker := true }) ∧
      (c.mismatchFaults = false → x.dec.fault = d.fault ∧ x.dec.cause = d.cause))

/-- 41_decoder_poll.md R162 on the whole command: STALE is set by an accepted poll exactly when now - LR, with LR as this poll
left it, exceeds STALE_TIMEOUT, synchronized or not, faulted or not; and then FAULT is set. -/
def Obligations.StaleLinkRule : Prop :=
  ∀ (s : State) (now : Binary64) (data : List Byte), PollAccepted now data s →
    ∃ (t : State) (last : Binary64), exec (.decPoll now data) s = .next t ∧ t.dec.lr = some last ∧
      (fgt (fsub now last) s.cfg.staleTimeout = true → t.dec.fault = true ∧ t.dec.cause.stale = true) ∧
      (fgt (fsub now last) s.cfg.staleTimeout = false → t.dec.cause.stale = s.dec.cause.stale)

/-- 41_decoder_poll.md R163: the fault and its causes are cleared by DEC_RESET and the block reset only; a faulted unit's other
steps go on, and step 3 stops. -/
def Obligations.FaultIsSticky : Prop :=
  (∀ (i : Instr) (s : State), i ≠ .decReset → ∃ t : State, exec i s = .next t ∧
    (s.dec.fault = true → t.dec.fault = true) ∧
    (s.dec.cause.drift = true → t.dec.cause.drift = true) ∧
    (s.dec.cause.marker = true → t.dec.cause.marker = true) ∧
    (s.dec.cause.stale = true → t.dec.cause.stale = true)) ∧
  (∀ s : State, ∃ t : State, exec .decReset s = .next t ∧ t.dec.fault = false ∧
    t.dec.cause = { drift := false, marker := false, stale := false }) ∧
  (∀ s : State, s.rst = true → ∃ t : State, step s = .next t ∧ t.dec.fault = false ∧
    t.dec.cause = { drift := false, marker := false, stale := false }) ∧
  (∀ (c : Config) (now : Binary64) (data : List Byte) (d d' : DecState), d' = { d with fault := true } →
    pollDrift c now d' = d' ∧
    pollAppend now data d' = { pollAppend now data d with fault := true } ∧
    pollSync d' = { pollSync d with fault := true } ∧
    (pollExtract c d').records = (pollExtract c d).records ∧
    (pollExtract c d').dec = { (pollExtract c d).dec with fault := true } ∧
    pollStale c now d' = { pollStale c now d with fault := true })

/-- The consequences 1 to 5 of 41_decoder_poll.md R165, on the whole command, in its order (consequence 6 is in
UnitsOwnDisjointState). k is the number of records the poll returns: FC grows by it, from 0 when the check of this poll found
no loss and from the old FC otherwise. `checked` says that step 3 runs and sees a partial frame. -/
def Obligations.PollConsequences : Prop :=
  ∀ (s : State) (now : Binary64) (data : List Byte), PollAccepted now data s →
    let buf := s.dec.buf ++ data
    let before := pollSync (pollAppend now data s.dec)
    let part := before.buf.length % 17
    let checked := before.sync = true ∧ s.dec.fault = false ∧ (s.dec.fc ≠ 0 ∨ s.dec.ec = false) ∧ part ≠ 0
    let t0 := fsub now (fmul (f64 part) s.cfg.byteTime)
    let nominal := fmul (f64 (s.dec.fc + before.buf.length / 17)) s.cfg.framePeriod
    let noLoss := checked ∧ ∃ p, s.dec.t1 = some p ∧ flt (fsub (fsub t0 p) nominal) s.cfg.driftTol = true
    ∃ (t : State) (k : Nat) (flags : Byte) (recs : List Byte), exec (.decPoll now data) s = .next t ∧
      t.resp = s.resp ++ ([0x00, flags, BitVec.ofNat 8 (k / 256), BitVec.ofNat 8 k] ++ recs) ∧ recs.length = 12 * k ∧
      (t.dec.sync = true → t.dec.buf.length ≤ 16) ∧
      (t.dec.sync = false →
        (s.dec.sync = false ∧ t.dec.buf = buf ∧ ∀ i, i + 17 ≤ buf.length → markersOK buf i = false) ∨
        (17 ≤ t.dec.buf.length ∧ markersOK t.dec.buf 0 = false)) ∧
      (noLoss → t.dec.fc = k) ∧ (¬ noLoss → t.dec.fc = s.dec.fc + k) ∧
      (part = 0 → t.dec.cause.drift = s.dec.cause.drift) ∧
      (¬ checked → t.dec.cause.drift = s.dec.cause.drift ∧ t.dec.t1 = s.dec.t1 ∧ t.dec.t0 = s.dec.t0)

/-! ## PID_UPDATE -/

/-- 42_pid.md R191: the first call. The flags byte is 4 (FIRST) plus SAT as it stands. -/
def Obligations.PidFirstCall : Prop :=
  ∀ (s : State) (sp pv : Binary64), s.pid.pv = none → isFinite sp = true → isFinite pv = true →
    exec (.pidUpdate sp pv) s = .next { s with
      pid := { s.pid with pv := some pv, pe := if s.cfg.firstCallError = .store then fsub sp pv else s.pid.pe },
      resp := s.resp ++ ([0x00, 0, 0, 0, 0, 0, 0, 0, 0] ++ [if s.pid.sat then 0x05 else 0x04]) }

/-- 42_pid.md R192 to R195 and R197, with the saturation of R196: every later accepted update. -/
def Obligations.PidUpdateFollowsTheRules : Prop :=
  ∀ (s : State) (sp pv prev : Binary64), s.pid.pv = some prev → isFinite sp = true → isFinite pv = true →
    let e := fsub sp pv
    let i := if fgt (fabs e) s.cfg.windupLimit then 0x0000000000000000 else fadd s.pid.i (fmul e s.cfg.dt)
    let d := fdiv (fsub e s.pid.pe) s.cfg.dt
    let raw := fadd (fadd (fmul s.cfg.kp e) (fmul s.cfg.ki i)) (fmul s.cfg.kd d)
    let out := if flt raw 0x0000000000000000 then 0x0000000000000000
               else if fgt raw 0x3FF0000000000000 then 0x3FF0000000000000 else raw
    let clamped := flt raw 0x0000000000000000 || fgt raw 0x3FF0000000000000
    isNaN e = false → isNaN i = false → isNaN d = false → isNaN raw = false →
      exec (.pidUpdate sp pv) s = .next { s with
        pid := { pv := some pv, pe := e, i := i, sat := s.pid.sat || clamped },
        resp := s.resp ++ (0x00 :: word64Bytes out ++
          [BitVec.ofNat 8 ((if s.pid.sat || clamped then 1 else 0) + (if clamped then 2 else 0))]) }

/-- 42_pid.md R198 and R199: the two refusals, BAD_OPERAND before NUMERIC, with no change of state. -/
def Obligations.PidUpdateRefusals : Prop :=
  ∀ (s : State) (sp pv : Binary64),
    (isFinite sp = false ∨ isFinite pv = false →
      exec (.pidUpdate sp pv) s = .next { s with resp := s.resp ++ [0x02] }) ∧
    (∀ prev : Binary64, isFinite sp = true → isFinite pv = true → s.pid.pv = some prev →
      let e := fsub sp pv
      let i := if fgt (fabs e) s.cfg.windupLimit then 0x0000000000000000 else fadd s.pid.i (fmul e s.cfg.dt)
      let d := fdiv (fsub e s.pid.pe) s.cfg.dt
      let raw := fadd (fadd (fmul s.cfg.kp e) (fmul s.cfg.ki i)) (fmul s.cfg.kd d)
      isNaN e = true ∨ isNaN i = true ∨ isNaN d = true ∨ isNaN raw = true →
        exec (.pidUpdate sp pv) s = .next { s with resp := s.resp ++ [0x05] })

/-- 42_pid.md R201: every accepted update returns a finite value from 0 to 1. -/
def Obligations.PidOutputStaysInTheUnitInterval : Prop :=
  ∀ (s t : State) (sp pv : Binary64), exec (.pidUpdate sp pv) s = .next t →
    (∃ st : Status, st ≠ .ok ∧ t = { s with resp := s.resp ++ [st.code] }) ∨
    ∃ (out : Binary64) (flags : Byte), t.resp = s.resp ++ (0x00 :: word64Bytes out ++ [flags]) ∧
      (s.pid.pv = none → out = 0x0000000000000000) ∧
      isFinite out = true ∧ 0 ≤ signedUnits out ∧ signedUnits out ≤ unitsPerOne

/-- 10_state.md R44 and 42_pid.md R196: SAT is set by a clamping update only, and cleared by PID_RESET and the block reset only. -/
def Obligations.SaturationFlagIsSticky : Prop :=
  (∀ (i : Instr) (s : State), i ≠ .pidReset → ∃ t : State, exec i s = .next t ∧
    (s.pid.sat = true → t.pid.sat = true) ∧
    (s.pid.sat = false → t.pid.sat = true → ∃ sp pv : Binary64, i = .pidUpdate sp pv ∧
      ∃ out : Binary64, (out = 0x0000000000000000 ∨ out = 0x3FF0000000000000) ∧
        t.resp = s.resp ++ (0x00 :: word64Bytes out ++ [0x03]))) ∧
  (∀ s : State, ∃ t : State, exec .pidReset s = .next t ∧ t.pid.sat = false) ∧
  (∀ s : State, s.rst = true → ∃ t : State, step s = .next t ∧ t.pid.sat = false)

/-- 10_state.md R41 and R44: of PV only its presence is read, and SAT alters no computed value. -/
def Obligations.UpdateReadsOnlyThePresenceOfPv : Prop :=
  ∀ (s s' : State) (sp pv x x' : Binary64), s.cfg = s'.cfg →
    s.pid = { s'.pid with pv := some x, sat := s.pid.sat } → s'.pid.pv = some x' →
    ∃ t t' : State, exec (.pidUpdate sp pv) s = .next t ∧ exec (.pidUpdate sp pv) s' = .next t' ∧
      t.pid.pe = t'.pid.pe ∧ t.pid.i = t'.pid.i ∧
      ∃ r r' : List Byte, t.resp = s.resp ++ r ∧ t'.resp = s'.resp ++ r' ∧ r.take 9 = r'.take 9

/-- 42_pid.md R202: with the setpoint held (pv = sp) and the previous error +0.0, the integral stays, the derivative is
nothing, and an update that is accepted returns clamp(KI * I). -/
def Obligations.HeldSetpointIsASteadyState : Prop :=
  ∀ (s : State) (sp prev : Binary64), s.cfg.legal = true → s.pid.pv = some prev → s.pid.pe = 0x0000000000000000 →
    isFinite s.pid.i = true → isFinite sp = true →
    let v := fmul s.cfg.ki (fadd s.pid.i 0x0000000000000000)
    let held := if flt v 0x0000000000000000 then 0x0000000000000000
                else if fgt v 0x3FF0000000000000 then 0x3FF0000000000000 else v
    ∃ (t : State) (out : Binary64) (flags : Byte), exec (.pidUpdate sp sp) s = .next t ∧
      t.pid.pe = 0x0000000000000000 ∧ signedUnits t.pid.i = signedUnits s.pid.i ∧
      t.resp = s.resp ++ (0x00 :: word64Bytes out ++ [flags]) ∧ signedUnits out = signedUnits held

/-! ## READ_REG -/

/-- 43_register_access.md R220 and R222: a defined number answers its register, a reserved one BAD_REGISTER; no state changes. -/
def Obligations.ReadRegAnswersEveryNumber : Prop :=
  ∀ (s : State) (reg : Byte),
    (registerDefined reg → ∃ v : Word64, regValue reg s = some v ∧
      exec (.readReg reg) s = .next { s with resp := s.resp ++ (0x00 :: word64Bytes v) }) ∧
    (¬ registerDefined reg → exec (.readReg reg) s = .next { s with resp := s.resp ++ [0x03] })

/-- 43_register_access.md R221: the value of every register. DEC_STATUS, PID_STATUS and CFG_FLAGS are given as sums of their
bits. And 10_state.md R50: the three outputs mirror FAULT, SYNC and SAT. -/
def Obligations.RegisterValues : Prop :=
  ∀ s : State, s.Inv →
    let d := s.dec
    let p := s.pid
    let c := s.cfg
    let bit (b : Bool) (n : Nat) : Nat := if b then 2 ^ n else 0
    ((regValue 0x00 s).map BitVec.toNat = some
      (bit d.sync 0 + bit d.fault 1 + bit d.ec 2 + bit d.lr.isSome 3 + bit d.t0.isSome 4 + bit d.t1.isSome 5 +
       bit d.cause.drift 8 + bit d.cause.marker 9 + bit d.cause.stale 10)) ∧
    (regValue 0x01 s).map BitVec.toNat = some d.buf.length ∧
    (regValue 0x02 s).map BitVec.toNat = some d.fc ∧
    regValue 0x03 s = some (d.lr.getD 0) ∧ regValue 0x04 s = some (d.t0.getD 0) ∧ regValue 0x05 s = some (d.t1.getD 0) ∧
    (regValue 0x10 s).map BitVec.toNat = some (bit p.pv.isSome 0 + bit p.sat 1) ∧
    regValue 0x11 s = some (p.pv.getD 0) ∧ regValue 0x12 s = some p.pe ∧ regValue 0x13 s = some p.i ∧
    regValue 0x20 s = some c.kp ∧ regValue 0x21 s = some c.ki ∧ regValue 0x22 s = some c.kd ∧
    regValue 0x23 s = some c.dt ∧ regValue 0x24 s = some c.windupLimit ∧
    regValue 0x30 s = some c.byteTime ∧ regValue 0x31 s = some c.framePeriod ∧
    regValue 0x32 s = some c.driftTol ∧ regValue 0x33 s = some c.staleTimeout ∧
    (regValue 0x34 s).map BitVec.toNat = some c.bufCap ∧
    (regValue 0x35 s).map BitVec.toNat = some
      (bit c.mismatchFaults 0 + bit (c.firstCallError == .store) 1 + c.m2InfoByte * 256) ∧
    regValue 0xFF s = some 0x5346445049440007 ∧
    s.decFaultPin = d.fault ∧ s.decSyncPin = d.sync ∧ s.pidSaturatedPin = p.sat

/-- 43_register_access.md R224: reading is harmless and repeatable, the configuration never changes, and after a reset every
register of the two units reads 0. -/
def Obligations.ReadingRegistersIsHarmless : Prop :=
  (∀ (s : State) (reg : Byte), ∃ (t : State) (r : List Byte), exec (.readReg reg) s = .next t ∧ t = { s with resp := s.resp ++ r } ∧
    (∃ u : State, exec (.readReg reg) t = .next u ∧ u.resp = t.resp ++ r) ∧
    ∀ (i : Instr) (v : State), exec i s = .next v → ∃ (w : State) (q : List Byte), exec i t = .next w ∧
      w.dec = v.dec ∧ w.pid = v.pid ∧ v.resp = s.resp ++ q ∧ w.resp = t.resp ++ q) ∧
  (∀ (s t : State) (reg : Byte), step s = .next t → 0x20 ≤ reg.toNat → regValue reg t = regValue reg s) ∧
  (∀ (c : Config) (reg : Byte), reg.toNat ≤ 0x05 ∨ (0x10 ≤ reg.toNat ∧ reg.toNat ≤ 0x13) →
    regValue reg (State.resetWith c) = some 0)

/-! ## The host (45_host_environment.md) -/

/-- 45_host_environment.md R256 and the source's example of it: the exact quotient and the exact remainder. -/
def Obligations.IterationAndPositionAreExact : Prop :=
  ∀ (traj : Trajectory) (elapsed : Binary64), traj.legal = true → validElapsed elapsed = true →
    isFinite (cyclePosition traj elapsed) = true ∧
    signedUnits elapsed = traj.iteration elapsed * signedUnits traj.period + signedUnits (cyclePosition traj elapsed) ∧
    0 ≤ signedUnits (cyclePosition traj elapsed) ∧
    signedUnits (cyclePosition traj elapsed) < signedUnits traj.period ∧
    (flt elapsed traj.period = true → traj.iteration elapsed = 0) ∧
    (fge elapsed traj.period = true → signedUnits elapsed < 2 * signedUnits traj.period → traj.iteration elapsed = 1)

/-- 45_host_environment.md R254: the Step variant. It says what the model answers for every Step trajectory with a waypoint and
every elapsed time; for those R253 excludes that is the model's choice (log 17). -/
def Obligations.StepTrajectoryTakesTheFirstBoundary : Prop :=
  ∀ (traj : Trajectory) (elapsed : Binary64), traj.kind = .step → traj.waypoints ≠ [] →
    ∃ j : Nat, ∃ w : Binary64 × Binary64, traj.waypoints[j]? = some w ∧ traj.value elapsed = some w.2 ∧
      (∀ k (u : Binary64 × Binary64), k < j → traj.waypoints[k]? = some u → fge u.1 (cyclePosition traj elapsed) = false) ∧
      (fge w.1 (cyclePosition traj elapsed) = true ∨ j + 1 = traj.waypoints.length)

/-- 45_host_environment.md R245 and R251: the precedence of the outcomes of one tick. What becomes of the records of the
earlier polls of a tick with several (more than 65535 bytes), joined for the configuration check and dropped on a link fault,
is the model's choice (log 16), and so is a tick with a trajectory R253 excludes (log 17). RUN returns an outcome alone: that
an ended tick gives the host's variables as well, and for a configuration change those before the tick's records although
the pseudocode of R243 has stored `first` by then, is the model's choice too (log 12). -/
def Obligations.TickOutcomePrecedence : Prop :=
  ∀ (traj : Trajectory) (limit : Nat) (x : TickInput) (s : State) (l : LoopState),
    (x.cancel = true → tick traj limit x s l = .ended .cancelled s l) ∧
    (∀ (reply : PollReply) (s' : State), x.cancel = false →
      runPolls x.now (pollChunks (x.lcrBytes.length / chunkMax) x.lcrBytes) s = some (reply, s') →
      (x.chamberError = true → tick traj limit x s l = .ended .chamberLinkFault s' l) ∧
      (x.chamberError = false → reply.refused = true ∨ reply.fault = true →
        tick traj limit x s l = .ended .lcrLinkFault s' l) ∧
      (x.chamberError = false → reply.refused = false → reply.fault = false → checkRecords l.first reply.records = none →
        tick traj limit x s l = .ended .configurationChanged s' l) ∧
      (∀ first, x.chamberError = false → reply.refused = false → reply.fault = false →
        checkRecords l.first reply.records = some first → validElapsed (fsub x.now l.runStart) = true →
        limit ≤ traj.iteration (fsub x.now l.runStart) →
        tick traj limit x s l = .ended .normalCompletion s' { l with first := first }))

/-- 45_host_environment.md R248 and R250, for a tick that gets past step 4. One entry for each record joins the measurements:
measurement 1, and measurement 2 when the reference has a quantity 2. Without samples nothing else happens. With samples and
an accepted update the output is written to the chamber after all earlier ones, each older sample takes the pair of the last
tick that had samples, or this tick's if there is none, and the newest takes this tick's. A refused update ends the run as a
chamber link fault with nothing written or appended. For a tick of more than 65535 bytes the records are joined (log 16), the
trajectory is any (log 17), and what an ended run returns beside its outcome is the model's form (log 12). -/
def Obligations.TickControlStep : Prop :=
  ∀ (traj : Trajectory) (limit : Nat) (x : TickInput) (s s' : State) (l : LoopState) (reply : PollReply)
    (first : Option MeasurementRecord),
    let elapsed := fsub x.now l.runStart
    let entries := match first with
      | none => []
      | some r0 => reply.records.map fun r => (r.measurement1, if r0.quantity2.isSome then r.measurement2 else none)
    x.cancel = false → x.chamberError = false →
    runPolls x.now (pollChunks (x.lcrBytes.length / chunkMax) x.lcrBytes) s = some (reply, s') →
    reply.refused = false → reply.fault = false → checkRecords l.first reply.records = some first →
    validElapsed elapsed = true → traj.iteration elapsed < limit →
      (x.samples = [] →
        tick traj limit x s l = .running s' { l with first := first, meas := l.meas ++ entries } none) ∧
      ∀ (older : List Binary64) (newest sp : Binary64) (p : PidState) (bytes : List Byte),
        x.samples = older ++ [newest] → traj.value elapsed = some sp → s'.PortIdle →
        exec (.pidUpdate sp newest) s' = .next { s' with pid := p, resp := bytes } →
          (∀ (out : Binary64) (flags : Byte), bytes = 0x00 :: (word64Bytes out ++ [flags]) →
            tick traj limit x s l = .running { s' with pid := p }
              { l with
                first := first
                writes := l.writes ++ [out]
                lastPair := some (sp, out)
                temps := l.temps ++ older.map (fun sample => (sample, l.lastPair.getD (sp, out))) ++ [(newest, (sp, out))]
                meas := l.meas ++ entries } (some out)) ∧
          (∀ st : Status, st ≠ .ok → bytes = [st.code] →
            tick traj limit x s l = .ended .chamberLinkFault { s' with pid := p } { l with first := first })

/-- 45_host_environment.md R246: the reference is the first record ever seen, and every record must agree with it. -/
def Obligations.ConfigurationCheckUsesTheFirstRecord : Prop :=
  ∀ (first : Option MeasurementRecord) (records : List MeasurementRecord),
    match first.or records.head? with
    | none => checkRecords first records = some none
    | some r0 =>
      ((∀ r ∈ records, r.frequency = r0.frequency ∧ r.quantity1 = r0.quantity1 ∧ r.quantity2 = r0.quantity2) →
        checkRecords first records = some (some r0)) ∧
      ((∃ r ∈ records, ¬ (r.frequency = r0.frequency ∧ r.quantity1 = r0.quantity1 ∧ r.quantity2 = r0.quantity2)) →
        checkRecords first records = none)

/-- 45_host_environment.md R259, for a run of one tick without chamber samples that delivers the five frames together: five
measurement entries and no fault. The loop as a list of tick inputs is the model's form (log 12), and that it
runs with a trajectory R253 excludes is the model's choice (log 17). -/
def Obligations.FiveFramesGiveFiveMeasurements : Prop :=
  ∀ (traj : Trajectory) (limit : Nat) (clock now : Binary64) (frames : List (List Byte)) (s : State),
    s.PortIdle → s.cfg.legal = true → 85 ≤ s.cfg.bufCap →
    frames.length = 5 → (∀ f ∈ frames, ValidFrame f) →
    (∀ f ∈ frames, ∀ g ∈ frames, sameConfig (decodeFrame s.cfg f) (decodeFrame s.cfg g) = true) →
    isFinite now = true → validElapsed (fsub now clock) = true → traj.iteration (fsub now clock) < limit →
    ∃ (block : State) (host : LoopState),
      runLoop traj limit clock
        [{ cancel := false, now := now, samples := [], chamberError := false, lcrBytes := frames.flatten }] s =
        .running block host none ∧
      host.meas.length = 5 ∧ block.dec.fault = false

/-! ## The marker test, and binary64 operands that are not ordinary numbers -/

/-- 40_frame_decode.md R130: the marker test compares exactly four bytes, with its example; and what ValidFrame means. -/
def Obligations.MarkerTestComparesFourBytes : Prop :=
  (∀ (bs : List Byte) (i : Nat), i + 17 ≤ bs.length →
    (markersOK bs i = true ↔
      bs[i]? = some 0x00 ∧ bs[i + 1]? = some 0x0D ∧ bs[i + 15]? = some 0x0D ∧ bs[i + 16]? = some 0x0A) ∧
    ∀ (k : Nat) (v : Byte), k < i ∨ (i + 2 ≤ k ∧ k ≤ i + 14) ∨ i + 17 ≤ k → markersOK (bs.set k v) i = markersOK bs i) ∧
  (∀ f : List Byte, ValidFrame f ↔ f.length = 17 ∧
    f[0]? = some 0x00 ∧ f[1]? = some 0x0D ∧ f[15]? = some 0x0D ∧ f[16]? = some 0x0A) ∧
  (let fa : List Byte :=
     [0x00, 0x0D, 0x80, 0x40, 0x00, 0x01, 0x04, 0xD2, 0x33, 0x00, 0x01, 0x00, 0x7B, 0x00, 0x03, 0x0D, 0x0A]
   markersOK fa 0 = true ∧ markersOK (fa.set 16 0x0B) 0 = false)

/-- The four operations where an operand is infinite, zero or NaN, and the signs of their results (IEEE 754, which
00_scope.md R20 names): which results are NaN, which are infinite, the sign of an overflow and the sign of a zero. Nothing is
said of the bits of a NaN (log 8). -/
def Obligations.SpecialOperandsAndResultSigns : Prop :=
  let pInf : Binary64 := 0x7FF0000000000000
  let nInf : Binary64 := 0xFFF0000000000000
  let pZero : Binary64 := 0x0000000000000000
  let nZero : Binary64 := 0x8000000000000000
  let neg (x : Binary64) : Bool := x.getLsbD 63
  let infinite (x : Binary64) : Prop := x = pInf ∨ x = nInf
  let zero (x : Binary64) : Prop := x = pZero ∨ x = nZero
  let opposite (x : Binary64) : Binary64 := x ^^^ nZero
  (∀ x : Binary64, isNaN x = true ↔ isFinite x = false ∧ ¬ infinite x) ∧
  ∀ x y : Binary64,
    -- x + y and x - y
    (isNaN (fadd x y) = true ↔ isNaN x = true ∨ isNaN y = true ∨ (infinite x ∧ infinite y ∧ x ≠ y)) ∧
    (infinite x → isNaN (fadd x y) = false → fadd x y = x) ∧
    (infinite y → isNaN (fadd x y) = false → fadd x y = y) ∧
    (isFinite x = true → isFinite y = true → signedUnits x + signedUnits y = 0 →
      fadd x y = if x = nZero ∧ y = nZero then nZero else pZero) ∧
    (isFinite x = true → isFinite y = true → signedUnits x + signedUnits y ≠ 0 →
      neg (fadd x y) = decide (signedUnits x + signedUnits y < 0)) ∧
    fsub x y = fadd x (opposite y) ∧
    -- x * y
    (isNaN (fmul x y) = true ↔
      isNaN x = true ∨ isNaN y = true ∨ (infinite x ∧ zero y) ∨ (zero x ∧ infinite y)) ∧
    (isNaN (fmul x y) = false → neg (fmul x y) = (neg x != neg y)) ∧
    (infinite x ∨ infinite y → isNaN (fmul x y) = false → infinite (fmul x y)) ∧
    -- x / y
    (isNaN (fdiv x y) = true ↔
      isNaN x = true ∨ isNaN y = true ∨ (infinite x ∧ infinite y) ∨ (zero x ∧ zero y)) ∧
    (isNaN (fdiv x y) = false → neg (fdiv x y) = (neg x != neg y)) ∧
    (infinite x ∨ zero y → isNaN (fdiv x y) = false → infinite (fdiv x y)) ∧
    (isFinite x = true → infinite y → zero (fdiv x y))
end

