-- ==== Sys2Proof/Laws/State.lean ====
section
/-! SUPPORT. One lemma per field for each named update of the state, so that no proof unfolds one. -/

namespace Sys2Proof.Machine

variable (s : State) (d : DecState) (k : Cause) (bs : List Byte) (n : Nat) (b : Bool) (x : FaultCause)

@[simp] theorem bufAppend_buf : (d.bufAppend bs).buf = d.buf ++ bs := rfl
@[simp] theorem bufAppend_sync : (d.bufAppend bs).sync = d.sync := rfl
@[simp] theorem bufAppend_fault : (d.bufAppend bs).fault = d.fault := rfl
@[simp] theorem bufAppend_cause : (d.bufAppend bs).cause = d.cause := rfl
@[simp] theorem bufAppend_lr : (d.bufAppend bs).lr = d.lr := rfl
@[simp] theorem bufAppend_t0 : (d.bufAppend bs).t0 = d.t0 := rfl
@[simp] theorem bufAppend_t1 : (d.bufAppend bs).t1 = d.t1 := rfl
@[simp] theorem bufAppend_fc : (d.bufAppend bs).fc = d.fc := rfl
@[simp] theorem bufAppend_ec : (d.bufAppend bs).ec = d.ec := rfl

@[simp] theorem bufDrop_buf : (d.bufDrop n).buf = d.buf.drop n := rfl
@[simp] theorem bufDrop_sync : (d.bufDrop n).sync = d.sync := rfl
@[simp] theorem bufDrop_fault : (d.bufDrop n).fault = d.fault := rfl
@[simp] theorem bufDrop_cause : (d.bufDrop n).cause = d.cause := rfl
@[simp] theorem bufDrop_lr : (d.bufDrop n).lr = d.lr := rfl
@[simp] theorem bufDrop_t0 : (d.bufDrop n).t0 = d.t0 := rfl
@[simp] theorem bufDrop_t1 : (d.bufDrop n).t1 = d.t1 := rfl
@[simp] theorem bufDrop_fc : (d.bufDrop n).fc = d.fc := rfl
@[simp] theorem bufDrop_ec : (d.bufDrop n).ec = d.ec := rfl

@[simp] theorem raiseFault_buf : (raiseFault x d).buf = d.buf := rfl
@[simp] theorem raiseFault_sync : (raiseFault x d).sync = d.sync := rfl
@[simp] theorem raiseFault_fault : (raiseFault x d).fault = true := rfl
@[simp] theorem raiseFault_cause : (raiseFault x d).cause = d.cause.record x := rfl
@[simp] theorem raiseFault_lr : (raiseFault x d).lr = d.lr := rfl
@[simp] theorem raiseFault_t0 : (raiseFault x d).t0 = d.t0 := rfl
@[simp] theorem raiseFault_t1 : (raiseFault x d).t1 = d.t1 := rfl
@[simp] theorem raiseFault_fc : (raiseFault x d).fc = d.fc := rfl
@[simp] theorem raiseFault_ec : (raiseFault x d).ec = d.ec := rfl

@[simp] theorem record_drift_drift : (k.record .drift).drift = true := rfl
@[simp] theorem record_drift_marker : (k.record .drift).marker = k.marker := rfl
@[simp] theorem record_drift_stale : (k.record .drift).stale = k.stale := rfl
@[simp] theorem record_marker_drift : (k.record .marker).drift = k.drift := rfl
@[simp] theorem record_marker_marker : (k.record .marker).marker = true := rfl
@[simp] theorem record_marker_stale : (k.record .marker).stale = k.stale := rfl
@[simp] theorem record_stale_drift : (k.record .stale).drift = k.drift := rfl
@[simp] theorem record_stale_marker : (k.record .stale).marker = k.marker := rfl
@[simp] theorem record_stale_stale : (k.record .stale).stale = true := rfl

@[simp] theorem acceptFrame_buf : (acceptFrame d).buf = d.buf.drop 17 := rfl
@[simp] theorem acceptFrame_sync : (acceptFrame d).sync = d.sync := rfl
@[simp] theorem acceptFrame_fault : (acceptFrame d).fault = d.fault := rfl
@[simp] theorem acceptFrame_cause : (acceptFrame d).cause = d.cause := rfl
@[simp] theorem acceptFrame_lr : (acceptFrame d).lr = d.lr := rfl
@[simp] theorem acceptFrame_t0 : (acceptFrame d).t0 = d.t0 := rfl
@[simp] theorem acceptFrame_t1 : (acceptFrame d).t1 = d.t1 := rfl
@[simp] theorem acceptFrame_fc : (acceptFrame d).fc = d.fc + 1 := rfl
@[simp] theorem acceptFrame_ec : (acceptFrame d).ec = true := rfl

@[simp] theorem bufLen_eq : d.bufLen = d.buf.length := rfl

@[simp] theorem deliver_cmd : (s.deliver bs).cmd = s.cmd ++ bs := rfl
@[simp] theorem deliver_cfg : (s.deliver bs).cfg = s.cfg := rfl
@[simp] theorem deliver_dec : (s.deliver bs).dec = s.dec := rfl
@[simp] theorem deliver_pid : (s.deliver bs).pid = s.pid := rfl
@[simp] theorem deliver_resp : (s.deliver bs).resp = s.resp := rfl
@[simp] theorem deliver_rst : (s.deliver bs).rst = s.rst := rfl

@[simp] theorem driveReset_rst : (s.driveReset b).rst = b := rfl
@[simp] theorem driveReset_cfg : (s.driveReset b).cfg = s.cfg := rfl
@[simp] theorem driveReset_dec : (s.driveReset b).dec = s.dec := rfl
@[simp] theorem driveReset_pid : (s.driveReset b).pid = s.pid := rfl
@[simp] theorem driveReset_cmd : (s.driveReset b).cmd = s.cmd := rfl
@[simp] theorem driveReset_resp : (s.driveReset b).resp = s.resp := rfl

@[simp] theorem blockReset_cfg : s.blockReset.cfg = s.cfg := rfl
@[simp] theorem blockReset_dec : s.blockReset.dec = DecState.reset := rfl
@[simp] theorem blockReset_pid : s.blockReset.pid = PidState.reset := rfl
@[simp] theorem blockReset_cmd : s.blockReset.cmd = [] := rfl
@[simp] theorem blockReset_resp : s.blockReset.resp = [] := rfl
@[simp] theorem blockReset_rst : s.blockReset.rst = s.rst := rfl

variable (c : Config)

@[simp] theorem resetWith_cfg : (State.resetWith c).cfg = c := rfl
@[simp] theorem resetWith_dec : (State.resetWith c).dec = DecState.reset := rfl
@[simp] theorem resetWith_pid : (State.resetWith c).pid = PidState.reset := rfl
@[simp] theorem resetWith_cmd : (State.resetWith c).cmd = [] := rfl
@[simp] theorem resetWith_resp : (State.resetWith c).resp = [] := rfl
@[simp] theorem resetWith_rst : (State.resetWith c).rst = false := rfl

end Sys2Proof.Machine
end

