-- ==== Sys2Proof/Laws/Dec.lean ====
section
/-! SUPPORT. What each step of DEC_POLL leaves, one lemma per step. -/

namespace Sys2Proof.Machine

/-- Step 1. -/
theorem pollAppend_eq (now : Binary64) (data : List Byte) (d : DecState) :
    pollAppend now data d =
      { d with buf := d.buf ++ data, lr := if data ≠ [] ∨ d.lr = none then some now else d.lr } := by
  by_cases h : data ≠ [] ∨ d.lr = none
  · rw [if_pos h]
    exact if_pos h
  · rw [if_neg h]
    exact if_neg h

/-- The flags byte of a DEC_POLL response as the sum of its bits (30_encoding.md R107). -/
theorem pollFlags_eq (d : DecState) :
    pollFlags d = BitVec.ofNat 8
      ((if d.sync then 2 ^ 0 else 0) + (if d.fault then 2 ^ 1 else 0) + (if d.ec then 2 ^ 2 else 0) +
       (if d.cause.drift then 2 ^ 4 else 0) + (if d.cause.marker then 2 ^ 5 else 0) + (if d.cause.stale then 2 ^ 6 else 0)) := by
  unfold pollFlags
  cases d.sync <;> cases d.fault <;> cases d.ec <;> cases d.cause.drift <;> cases d.cause.marker <;> cases d.cause.stale <;> rfl

/-- The marker test is the comparison of its four bytes (40_frame_decode.md R130). -/
theorem markersOK_iff (bs : List Byte) (i : Nat) :
    markersOK bs i = true ↔
      bs[i]? = some 0x00 ∧ bs[i + 1]? = some 0x0D ∧ bs[i + 15]? = some 0x0D ∧ bs[i + 16]? = some 0x0A := by
  simp [markersOK, and_assoc]

/-- The scan of step 2 answers the least marked offset at which a whole frame stands. -/
theorem syncOffset_some {buf : List Byte} {i : Nat} (h : syncOffset buf = some i) :
    i + 17 ≤ buf.length ∧ markersOK buf i = true ∧ ∀ j, j < i → markersOK buf j = false := by
  unfold syncOffset at h
  have hm := List.mem_of_find?_eq_some h
  have hp := List.find?_some h
  rw [List.mem_range, frameLen] at hm
  refine ⟨by omega, hp, ?_⟩
  rw [List.find?_range_eq_some] at h
  intro j hj
  simpa using h.2.2 j hj

theorem syncOffset_none {buf : List Byte} (h : syncOffset buf = none) (i : Nat) (hi : i + 17 ≤ buf.length) :
    markersOK buf i = false := by
  unfold syncOffset at h
  rw [List.find?_eq_none] at h
  have := h i (by rw [List.mem_range, frameLen]; omega)
  simpa using this

theorem pollSync_eq (d : DecState) :
    pollSync d =
      if d.sync = false ∧ 17 ≤ d.buf.length then
        match syncOffset d.buf with
        | some i => { d with buf := d.buf.drop i, sync := true }
        | none => d
      else d := by
  unfold pollSync
  rw [bufLen_eq, frameLen]
  by_cases h : d.sync = false ∧ 17 ≤ d.buf.length
  · rw [if_pos h, if_pos (by simp [h.1, h.2])]
    cases syncOffset d.buf <;> rfl
  · rw [if_neg h, if_neg (by simpa using h)]

/-- Step 2. -/
theorem pollSync_cases (d : DecState) :
    (pollSync d = d ∧ (d.sync = true ∨ ∀ i, i + 17 ≤ d.buf.length → markersOK d.buf i = false)) ∨
    (∃ i, d.sync = false ∧ i + 17 ≤ d.buf.length ∧ markersOK d.buf i = true ∧
      (∀ j, j < i → markersOK d.buf j = false) ∧ pollSync d = { d with buf := d.buf.drop i, sync := true }) := by
  rw [pollSync_eq]
  split_ifs with h
  · cases ho : syncOffset d.buf with
    | none => exact .inl ⟨rfl, .inr (syncOffset_none ho)⟩
    | some i =>
      obtain ⟨h1, h2, h3⟩ := syncOffset_some ho
      exact .inr ⟨i, h.1, h1, h2, h3, rfl⟩
  · refine .inl ⟨rfl, ?_⟩
    cases hs : d.sync with
    | true => exact .inl rfl
    | false => exact .inr fun i hi => absurd ⟨hs, by omega⟩ h

/-- Step 3 changes T0, T1, FC (to zero), FAULT and the DRIFT cause only, and the last two together. -/
theorem pollDrift_cases (c : Config) (now : Binary64) (d : DecState) :
    pollDrift c now d = d ∨
    (d.sync = true ∧ d.fault = false ∧ d.buf.length % 17 ≠ 0 ∧ ∃ t,
      t = arrivalEstimate c now d ∧
      (pollDrift c now d = { d with t0 := some t, t1 := some t } ∨
       pollDrift c now d = { d with t0 := some t, t1 := some t, fc := 0 } ∨
       pollDrift c now d =
         { d with t0 := some t, t1 := some t, fault := true, cause := { d.cause with drift := true } })) := by
  unfold pollDrift
  split_ifs with h
  · right
    simp only [driftDue, partialBytes, frameLen, bufLen_eq, Bool.and_eq_true, Bool.not_eq_true', bne_iff_ne] at h
    refine ⟨h.1.1.1, h.1.1.2, h.2, _, rfl, ?_⟩
    unfold driftCompare
    dsimp only
    cases d.t1 with
    | none => exact .inl rfl
    | some p =>
      dsimp only
      split_ifs
      · exact .inr (.inl rfl)
      · exact .inr (.inr rfl)
  · exact .inl rfl

/-- Step 3 sets FC to zero exactly when it compares with an earlier estimate and finds no loss. -/
theorem pollDrift_fc (c : Config) (now : Binary64) (d : DecState) :
    (pollDrift c now d).fc =
      if driftDue d = true ∧ partialBytes d ≠ 0 ∧
          ∃ p, d.t1 = some p ∧ flt (discrepancy c (arrivalEstimate c now d) p d) c.driftTol = true
      then 0 else d.fc := by
  unfold pollDrift
  by_cases h : driftDue d = true ∧ partialBytes d ≠ 0
  · rw [if_pos (by simp [h.1, h.2])]
    unfold driftCompare
    dsimp only
    cases d.t1 with
    | none => simp
    | some p =>
      by_cases hp : flt (discrepancy c (arrivalEstimate c now d) p d) c.driftTol = true
      · rw [if_pos ⟨h.1, h.2, p, rfl, hp⟩]
        exact congrArg DecState.fc (if_pos hp)
      · rw [if_neg fun hh => hp (by obtain ⟨-, -, q, hq, hf⟩ := hh; cases hq; exact hf)]
        exact (congrArg DecState.fc (if_neg hp)).trans rfl
  · rw [if_neg (by simpa using h), if_neg fun hh => h ⟨hh.1, hh.2.1⟩]

/-- Step 3 leaves the unit alone unless it is due and sees a partial frame. -/
theorem pollDrift_of_not_checked {d : DecState} (h : ¬ (driftDue d = true ∧ partialBytes d ≠ 0)) (c : Config)
    (now : Binary64) : pollDrift c now d = d := if_neg (by simpa using h)

/-- One round of the loop of step 4. -/
theorem extractFrames_succ (c : Config) (fuel : Nat) (d : DecState) :
    extractFrames c (fuel + 1) d =
      if d.sync = true ∧ 17 ≤ d.buf.length then
        if markersOK d.buf 0 = true then
          { dec := (extractFrames c fuel (acceptFrame d)).dec,
            records := emitFrame c (d.buf.take 17) :: (extractFrames c fuel (acceptFrame d)).records }
        else { dec := markerMismatch c d, records := [] }
      else { dec := d, records := [] } := by
  rw [extractFrames, bufLen_eq, frameLen]
  by_cases h : d.sync = true ∧ 17 ≤ d.buf.length
  · rw [if_pos h, if_pos (by simp [h.1, h.2])]
  · rw [if_neg h, if_neg (by simpa using h)]

/-- The state after frames were accepted. -/
def DecState.afterFrames (d : DecState) (frames : List (List Byte)) (rest : List Byte) : DecState :=
  { d with buf := rest, fc := d.fc + frames.length, ec := d.ec || !frames.isEmpty }

/-- Step 4: the frames taken, in order, and how the loop ends. -/
theorem extractFrames_spec (c : Config) (fuel : Nat) (d : DecState) (h : d.buf.length / 17 ≤ fuel) :
    ∃ frames rest, d.buf = frames.flatten ++ rest ∧
      (∀ f ∈ frames, f.length = 17 ∧ markersOK f 0 = true) ∧
      (extractFrames c fuel d).records = frames.map (emitFrame c) ∧
      (((extractFrames c fuel d).dec = d.afterFrames frames rest ∧
          (d.sync = false ∧ frames = [] ∨ d.sync = true ∧ rest.length < 17)) ∨
       ((extractFrames c fuel d).dec = markerMismatch c (d.afterFrames frames rest) ∧
          d.sync = true ∧ 17 ≤ rest.length ∧ markersOK rest 0 = false)) := by
  induction fuel generalizing d with
  | zero =>
    refine ⟨[], d.buf, rfl, by simp, rfl, .inl ⟨by simp [extractFrames, DecState.afterFrames], ?_⟩⟩
    cases hs : d.sync with
    | false => exact .inl ⟨rfl, rfl⟩
    | true => exact .inr ⟨rfl, by omega⟩
  | succ fuel ih =>
    rw [extractFrames_succ]
    split_ifs with h1 h2
    · obtain ⟨frames, rest, hb, hv, hr, he⟩ := ih (acceptFrame d) (by rw [acceptFrame_buf, List.length_drop]; omega)
      refine ⟨d.buf.take 17 :: frames, rest, ?_, ?_, ?_, ?_⟩
      · rw [List.flatten_cons, List.append_assoc, ← hb, acceptFrame_buf, List.take_append_drop]
      · rintro f (_ | ⟨_, hf⟩)
        · refine ⟨by rw [List.length_take]; omega, ?_⟩
          rw [← h2]
          simp [markersOK]
        · exact hv f hf
      · dsimp only
        rw [hr, List.map_cons]
      · have ha : (acceptFrame d).afterFrames frames rest = d.afterFrames (d.buf.take 17 :: frames) rest := by
          simp only [DecState.afterFrames, acceptFrame, List.length_cons, List.isEmpty_cons, Bool.true_or, Bool.not_false,
            Bool.or_true, DecState.bufDrop]
          congr 1
          omega
        dsimp only
        rw [ha] at he
        rcases he with ⟨e, hs⟩ | ⟨e, hs⟩
        · refine .inl ⟨e, .inr ?_⟩
          rcases hs with ⟨hs, -⟩ | hs
          · rw [acceptFrame_sync, h1.1] at hs
            simp at hs
          · exact hs
        · exact .inr ⟨e, hs⟩
    · refine ⟨[], d.buf, rfl, by simp, rfl, .inr ⟨by simp [DecState.afterFrames], h1.1, h1.2, by simpa using h2⟩⟩
    · refine ⟨[], d.buf, rfl, by simp, rfl, .inl ⟨by simp [DecState.afterFrames], ?_⟩⟩
      cases hs : d.sync with
      | false => exact .inl ⟨rfl, rfl⟩
      | true => exact .inr ⟨rfl, by simpa [hs] using h1⟩

theorem pollExtract_spec (c : Config) (d : DecState) :
    ∃ frames rest, d.buf = frames.flatten ++ rest ∧
      (∀ f ∈ frames, f.length = 17 ∧ markersOK f 0 = true) ∧
      (pollExtract c d).records = frames.map (emitFrame c) ∧
      (((pollExtract c d).dec = d.afterFrames frames rest ∧
          (d.sync = false ∧ frames = [] ∨ d.sync = true ∧ rest.length < 17)) ∨
       ((pollExtract c d).dec = markerMismatch c (d.afterFrames frames rest) ∧
          d.sync = true ∧ 17 ≤ rest.length ∧ markersOK rest 0 = false)) :=
  extractFrames_spec c _ d le_rfl

/-- Step 5. -/
theorem pollStale_of_some {d : DecState} {last : Binary64} (h : d.lr = some last) (c : Config) (now : Binary64) :
    pollStale c now d = if fgt (fsub now last) c.staleTimeout then raiseFault .stale d else d := by
  rw [pollStale, h]

theorem pollStale_cases (c : Config) (now : Binary64) (d : DecState) :
    pollStale c now d = d ∨ pollStale c now d = raiseFault .stale d := by
  unfold pollStale
  split
  · exact .inl rfl
  · split_ifs
    · exact .inr rfl
    · exact .inl rfl

end Sys2Proof.Machine
end

