-- ==== Sys2Proof/Laws/Operands.lean ====
section
/-! SUPPORT. The byte-order lemmas: a field is read back from its bytes, and bytes from the field they make. -/

namespace Sys2Proof.Machine

@[simp] theorem beBytes_length (n v : Nat) : (beBytes n v).length = n := by
  induction n with
  | zero => rfl
  | succ n ih => simp [beBytes, ih]

theorem foldl_beNat (bs : List Byte) (a : Nat) :
    bs.foldl (fun acc b => acc * 256 + b.toNat) a = a * 256 ^ bs.length + beNat bs := by
  induction bs generalizing a with
  | nil => simp [beNat]
  | cons b bs ih =>
    simp only [List.foldl_cons, beNat, List.length_cons, Nat.zero_mul, Nat.zero_add]
    rw [ih, ih b.toNat, pow_succ]
    ring

theorem beNat_cons (b : Byte) (bs : List Byte) : beNat (b :: bs) = b.toNat * 256 ^ bs.length + beNat bs := by
  have h := foldl_beNat bs b.toNat
  simpa [beNat] using h

theorem beNat_lt (bs : List Byte) : beNat bs < 256 ^ bs.length := by
  induction bs with
  | nil => simp [beNat]
  | cons b bs ih =>
    have hb := Nat.mul_le_mul_right (256 ^ bs.length) (Nat.le_of_lt_succ b.isLt)
    rw [beNat_cons, List.length_cons, pow_succ]
    omega

theorem beNat_beBytes (n v : Nat) : beNat (beBytes n v) = v % 256 ^ n := by
  induction n with
  | zero => simp [beBytes, beNat, Nat.mod_one]
  | succ n ih =>
    rw [beBytes, beNat_cons, ih, beBytes_length, BitVec.toNat_ofNat, pow_succ 256 n,
      Nat.mod_mul (a := 256 ^ n) (b := 256), Nat.mul_comm, Nat.add_comm]

theorem beBytes_beNat (bs : List Byte) : beBytes bs.length (beNat bs) = bs := by
  induction bs with
  | nil => rfl
  | cons b bs ih =>
    have hlt := beNat_lt bs
    have hpos : 0 < 256 ^ bs.length := by positivity
    have hdiv : beNat (b :: bs) / 256 ^ bs.length = b.toNat := by
      rw [beNat_cons, Nat.add_comm, Nat.add_mul_div_right _ _ hpos, Nat.div_eq_of_lt hlt, Nat.zero_add]
    have hlow (n : Nat) (h : n ≤ bs.length) : beBytes n (beNat (b :: bs)) = beBytes n (beNat bs) := by
      induction n with
      | zero => rfl
      | succ n ihn =>
        have hn : n ≤ bs.length := by omega
        rw [beBytes, beBytes, ihn hn]
        congr 1
        apply BitVec.eq_of_toNat_eq
        rw [BitVec.toNat_ofNat, BitVec.toNat_ofNat, beNat_cons]
        obtain ⟨m, hm⟩ : ∃ m, bs.length = n + 1 + m := ⟨bs.length - (n + 1), by omega⟩
        have hsplit : b.toNat * 256 ^ bs.length + beNat bs
            = beNat bs + 256 ^ n * (256 * (b.toNat * 256 ^ m)) := by
          rw [hm]; ring
        rw [hsplit, Nat.add_mul_div_left _ _ (by positivity)]
        omega
    rw [List.length_cons, beBytes, hdiv, hlow _ le_rfl, ih]
    simp

@[simp] theorem word64Bytes_length (w : Word64) : (word64Bytes w).length = 8 := beBytes_length 8 _

@[simp] theorem word64Of_word64Bytes (w : Word64) : word64Of (word64Bytes w) = w := by
  apply BitVec.eq_of_toNat_eq
  have := w.isLt
  rw [word64Of, word64Bytes, beNat_beBytes, BitVec.toNat_ofNat]
  omega

theorem word64Bytes_word64Of (bs : List Byte) (h : bs.length = 8) : word64Bytes (word64Of bs) = bs := by
  have hlt := beNat_lt bs
  rw [h] at hlt
  rw [word64Bytes, word64Of, BitVec.toNat_ofNat, Nat.mod_eq_of_lt (by omega)]
  conv_lhs => rw [← h]
  exact beBytes_beNat bs

theorem u16be_toNat (hi lo : Byte) : (u16be hi lo).toNat = hi.toNat * 256 + lo.toNat := by
  have h := lo.isLt
  rw [u16be, BitVec.toNat_append, Nat.shiftLeft_eq, Nat.mul_comm, ← Nat.two_pow_add_eq_or_of_lt h, Nat.mul_comm]

theorem beBytes_two (n : Nat) : beBytes 2 n = [BitVec.ofNat 8 (n / 256), BitVec.ofNat 8 n] := by
  simp [beBytes]

end Sys2Proof.Machine
end

