-- ==== Sys2Proof/Laws/PerInstr.lean ====
section
/-! SUPPORT. Facts about every command as syntax, one lemma per constructor. -/

namespace Sys2Proof.Laws.EncodedLength

/-- A command's encoding has the length of 30_encoding.md R100. -/
def Statement (i : Instr) : Prop := (encode i).length = i.byteLength

theorem decReset : Statement .decReset := rfl

theorem decPoll (now : Binary64) (data : List Byte) : Statement (.decPoll now data) := by
  simp [Statement, encode, Instr.byteLength]
  omega

theorem pidReset : Statement .pidReset := rfl

theorem pidUpdate (sp pv : Binary64) : Statement (.pidUpdate sp pv) := by
  simp [Statement, encode, Instr.byteLength]

theorem readReg (reg : Byte) : Statement (.readReg reg) := rfl

end Sys2Proof.Laws.EncodedLength
end

