-- ==== Sys2Proof/Laws/Decode.lean ====
section
/-! SUPPORT. What the decoder does at the head of a stream, one lemma per part of it. -/

namespace Sys2Proof

open Sys2Proof.Machine

@[simp] theorem encode_length (i : Instr) : (encode i).length = i.byteLength := by
  cases i with
  | decReset => exact Laws.EncodedLength.decReset
  | decPoll now data => exact Laws.EncodedLength.decPoll now data
  | pidReset => exact Laws.EncodedLength.pidReset
  | pidUpdate sp pv => exact Laws.EncodedLength.pidUpdate sp pv
  | readReg reg => exact Laws.EncodedLength.readReg reg

theorem commandLength_nil : commandLength [] = none := rfl

theorem commandLength_decPoll (args : List Byte) :
    commandLength (opDecPoll :: args) =
      match args.drop 8 with
      | hi :: lo :: _ => some (11 + (u16be hi lo).toNat)
      | _ => none := rfl

theorem commandLength_pidUpdate (args : List Byte) : commandLength (opPidUpdate :: args) = some 17 := rfl

theorem commandLength_readReg (args : List Byte) : commandLength (opReadReg :: args) = some 2 := rfl

theorem commandLength_one (op : Byte) (args : List Byte) (h2 : op ≠ opDecPoll) (h12 : op ≠ opPidUpdate)
    (hf0 : op ≠ opReadReg) : commandLength (op :: args) = some 1 := by
  simp [commandLength, h2, h12, hf0]

/-- The two count bytes of a DEC_POLL give back the payload's length. -/
theorem u16be_count (n : Nat) (h : n ≤ chunkMax) : (u16be (BitVec.ofNat 8 (n / 256)) (BitVec.ofNat 8 n)).toNat = n := by
  rw [u16be_toNat, BitVec.toNat_ofNat, BitVec.toNat_ofNat]
  unfold chunkMax at h
  omega

/-- What `decode` answers, read off the length and the bytes. -/
theorem decode_of_length {bs : List Byte} {n : Nat} (h : commandLength bs = some n) :
    decode bs =
      if bs.length < n then .incomplete
      else match decodeCommand (bs.take n) with
        | some i => .command i (bs.drop n)
        | none => .reserved (bs.headD 0) (bs.drop n) := by
  rw [decode, h] <;> rfl

/-- The bytes that fix the length come first: more bytes do not change it. -/
theorem commandLength_append {bs : List Byte} {n : Nat} (h : commandLength bs = some n) (more : List Byte) :
    commandLength (bs ++ more) = some n := by
  cases bs with
  | nil => simp [commandLength] at h
  | cons op args =>
    by_cases h2 : op = opDecPoll
    · subst h2
      rw [List.cons_append]
      rw [commandLength_decPoll] at h ⊢
      split at h
      · rename_i hi lo tl heq
        have hle : 8 ≤ args.length := by
          have := congrArg List.length heq
          simp at this
          omega
        rw [List.drop_append_of_le_length hle, heq]
        exact h
      · simp at h
    · simpa [commandLength, h2] using h

theorem commandLength_encode (i : Instr) (rest : List Byte) (h : i.wf = true) :
    commandLength (encode i ++ rest) = some i.byteLength := by
  cases i with
  | decReset => rfl
  | pidReset => rfl
  | pidUpdate sp pv => rfl
  | readReg reg => rfl
  | decPoll now data =>
    have hn : data.length ≤ chunkMax := by simpa [Instr.wf] using h
    have hdrop : (word64Bytes now ++ beBytes 2 data.length ++ data ++ rest).drop 8 = beBytes 2 data.length ++ (data ++ rest) := by
      rw [List.append_assoc, List.append_assoc, List.drop_append_of_le_length (by simp), List.drop_of_length_le (by simp)]
      simp
    rw [encode, List.cons_append, commandLength_decPoll, hdrop, beBytes_two]
    simp [u16be_count _ hn, Instr.byteLength]

theorem decodeCommand_encode (i : Instr) : decodeCommand (encode i) = some i := by
  cases i with
  | decReset => rfl
  | pidReset => rfl
  | readReg reg => rfl
  | pidUpdate sp pv =>
    have ht : (word64Bytes sp ++ word64Bytes pv).take 8 = word64Bytes sp := by
      rw [List.take_append_of_le_length (by simp), List.take_of_length_le (by simp)]
    have hd : (word64Bytes sp ++ word64Bytes pv).drop 8 = word64Bytes pv := by
      rw [List.drop_append_of_le_length (by simp), List.drop_of_length_le (by simp)]
      simp
    simp [encode, decodeCommand, opPidUpdate, opDecReset, opDecPoll, opPidReset, ht, hd]
  | decPoll now data =>
    have ht : (word64Bytes now ++ (beBytes 2 data.length ++ data)).take 8 = word64Bytes now := by
      rw [List.take_append_of_le_length (by simp), List.take_of_length_le (by simp)]
    have hd : (word64Bytes now ++ (beBytes 2 data.length ++ data)).drop 10 = data := by
      rw [← List.append_assoc, List.drop_append_of_le_length (by simp), List.drop_of_length_le (by simp)]
      simp
    simp [encode, decodeCommand, opDecReset, opDecPoll, ht, hd]

end Sys2Proof
end

