-- ==== Sys2Proof/Laws/Float64.lean ====
section
/-! SUPPORT. Patterns as magnitudes and values, and that the one rounding step of the arithmetic is to nearest, ties to even. -/

namespace Sys2Proof.Machine

/-! ### Patterns -/

/-- The value, in units of 2^-1074, of the magnitude bits m of a finite pattern. -/
def unitsOf (m : Nat) : Nat := if m < 2 ^ 52 then m else (2 ^ 52 + m % 2 ^ 52) * 2 ^ (m / 2 ^ 52 - 1)

theorem magnitude_eq (x : Binary64) : magnitude x = x.toNat % 2 ^ 63 := by
  simp [magnitude, BitVec.extractLsb'_toNat]

theorem magnitude_lt (x : Binary64) : magnitude x < 2 ^ 63 := by
  rw [magnitude_eq]
  omega

theorem expField_eq (x : Binary64) : expField x = magnitude x / 2 ^ 52 := by
  have h := x.isLt
  rw [magnitude_eq, expField, BitVec.extractLsb'_toNat, Nat.shiftRight_eq_div_pow]
  omega

theorem fracField_eq (x : Binary64) : fracField x = magnitude x % 2 ^ 52 := by
  rw [magnitude_eq, fracField, BitVec.extractLsb'_toNat, Nat.shiftRight_eq_div_pow]
  omega

theorem signBit_eq (x : Binary64) : signBit x = decide (2 ^ 63 ≤ x.toNat) := by
  have h := x.isLt
  rw [signBit, BitVec.getLsbD, Nat.testBit_eq_decide_div_mod_eq]
  congr 1
  apply propext
  omega

theorem eq_withSign (x : Binary64) : x = withSign (signBit x) (magnitude x) := by
  have h := x.isLt
  apply BitVec.eq_of_toNat_eq
  rw [withSign, signBit_eq, magnitude_eq, BitVec.toNat_ofNat]
  split <;> rename_i hs <;> simp only [decide_eq_true_eq] at hs <;> omega

theorem units_eq (x : Binary64) : units x = unitsOf (magnitude x) := by
  unfold units unitsOf
  rw [expField_eq, fracField_eq]
  by_cases h : magnitude x < 2 ^ 52
  · rw [if_pos h, if_pos (Nat.div_eq_of_lt h), Nat.mod_eq_of_lt h]
  · rw [if_neg h, if_neg (by omega)]

theorem infMagnitude_eq : infMagnitude = 9218868437227405312 := rfl

theorem isFinite_iff (x : Binary64) : isFinite x = true ↔ magnitude x < infMagnitude := by
  have h := magnitude_lt x
  rw [isFinite, expField_eq, infMagnitude_eq, bne_iff_ne]
  omega

theorem isNaN_iff (x : Binary64) : isNaN x = true ↔ infMagnitude < magnitude x := by
  have h := magnitude_lt x
  rw [isNaN, expField_eq, fracField_eq, infMagnitude_eq, Bool.and_eq_true, beq_iff_eq, bne_iff_ne]
  omega

theorem isInf_iff (x : Binary64) : isInf x = true ↔ magnitude x = infMagnitude := by
  have h := magnitude_lt x
  rw [isInf, expField_eq, fracField_eq, infMagnitude_eq, Bool.and_eq_true, beq_iff_eq, beq_iff_eq]
  omega

theorem isNaN_of_isFinite {x : Binary64} (h : isFinite x = true) : isNaN x = false := by
  rw [isFinite_iff] at h
  rw [← Bool.not_eq_true, isNaN_iff]
  omega

theorem isInf_of_isFinite {x : Binary64} (h : isFinite x = true) : isInf x = false := by
  rw [isFinite_iff] at h
  rw [← Bool.not_eq_true, isInf_iff]
  omega

theorem magnitude_withSign (neg : Bool) {m : Nat} (h : m < 2 ^ 63) : magnitude (withSign neg m) = m := by
  rw [magnitude_eq, withSign, BitVec.toNat_ofNat]
  split <;> omega

theorem signBit_withSign (neg : Bool) {m : Nat} (h : m < 2 ^ 63) : signBit (withSign neg m) = neg := by
  rw [signBit_eq, withSign, BitVec.toNat_ofNat]
  cases neg
  · simp
    omega
  · simp
    omega

theorem signedUnits_eq (x : Binary64) :
    signedUnits x = if signBit x then -(unitsOf (magnitude x) : Int) else unitsOf (magnitude x) := by
  rw [signedUnits, units_eq]

theorem natAbs_signedUnits (x : Binary64) : (signedUnits x).natAbs = units x := by
  unfold signedUnits
  split <;> simp

/-! ### The order of magnitudes -/

theorem unitsOf_succ (m : Nat) : unitsOf (m + 1) = unitsOf m + 2 ^ (m / 2 ^ 52 - 1) := by
  unfold unitsOf
  rcases lt_trichotomy (m + 1) (2 ^ 52) with h | h | h
  · rw [if_pos h, if_pos (by omega), Nat.div_eq_of_lt (by omega)]
    rfl
  · rw [if_neg (by omega), if_pos (by omega), h, Nat.div_eq_of_lt (by omega : m < 2 ^ 52)]
    norm_num
    omega
  · rw [if_neg (by omega), if_neg (by omega)]
    by_cases hc : m % 2 ^ 52 = 2 ^ 52 - 1
    · have h1 : (m + 1) / 2 ^ 52 - 1 = (m / 2 ^ 52 - 1) + 1 := by omega
      have h2 : (m + 1) % 2 ^ 52 = 0 := by omega
      rw [h1, h2, hc, pow_succ 2 (m / 2 ^ 52 - 1)]
      generalize 2 ^ (m / 2 ^ 52 - 1) = p
      omega
    · have h1 : (m + 1) / 2 ^ 52 = m / 2 ^ 52 := by omega
      have h2 : (m + 1) % 2 ^ 52 = m % 2 ^ 52 + 1 := by omega
      rw [h1, h2]
      ring

theorem unitsOf_strictMono : StrictMono unitsOf := by
  apply strictMono_nat_of_lt_succ
  intro m
  rw [unitsOf_succ]
  have : 0 < 2 ^ (m / 2 ^ 52 - 1) := by positivity
  omega

theorem unitsOf_zero : unitsOf 0 = 0 := rfl

theorem signedUnits_lt_iff (x y : Binary64) : signedUnits x < signedUnits y ↔ orderKey x < orderKey y := by
  have h0 : ∀ m, 0 < unitsOf m ↔ 0 < m := fun m => by
    have := unitsOf_strictMono.lt_iff_lt (a := 0) (b := m)
    rwa [unitsOf_zero] at this
  have hx := h0 (magnitude x)
  have hy := h0 (magnitude y)
  have h1 := unitsOf_strictMono.lt_iff_lt (a := magnitude x) (b := magnitude y)
  have h2 := unitsOf_strictMono.lt_iff_lt (a := magnitude y) (b := magnitude x)
  rw [signedUnits_eq, signedUnits_eq, orderKey, orderKey]
  split <;> split <;> omega

/-! ### Rounding -/

/-- The quotient of `divHalfEven` is a nearest one, and the even one of two. -/
theorem divHalfEven_spec (num den j : Nat) (h : 0 < den) :
    ((num : Int) - den * divHalfEven num den).natAbs ≤ ((num : Int) - den * j).natAbs ∧
    (((num : Int) - den * divHalfEven num den).natAbs = ((num : Int) - den * j).natAbs →
      j ≠ divHalfEven num den → divHalfEven num den % 2 = 0) := by
  have hn : (num : Int) = den * (num / den : Nat) + (num % den : Nat) := by
    exact_mod_cast (Nat.div_add_mod num den).symm
  have hr : num % den < den := Nat.mod_lt num h
  unfold divHalfEven
  dsimp only
  generalize num / den = q at *
  generalize num % den = r at *
  have hd : (num : Int) - den * j = den * ((q : Int) - j) + r := by rw [hn]; ring
  have hsmall : ∀ e : Int, 1 ≤ e → (den : Int) ≤ den * e := fun e he => by nlinarith
  have hlarge : ∀ e : Int, e ≤ -1 → (den : Int) * e ≤ -den := fun e he => by nlinarith
  have h2large : ∀ e : Int, e ≤ -2 → (den : Int) * e ≤ -2 * den := fun e he => by nlinarith
  have hcase : (q : Int) - j = 0 ∨ 1 ≤ (q : Int) - j ∨ (q : Int) - j = -1 ∨ (q : Int) - j ≤ -2 := by omega
  have e0 : (num : Int) - den * q = r := by rw [hn]; ring
  have e1 : (num : Int) - den * ((q + 1 : Nat) : Int) = r - den := by rw [hn]; push_cast; ring
  rw [hd]
  split_ifs with h1 h2
  · rw [e0]
    rcases hcase with hc | hc | hc | hc
    · rw [hc, mul_zero]
      omega
    · have := hsmall _ hc
      omega
    · have := hlarge _ hc.le
      omega
    · have := h2large _ hc
      omega
  · rw [e1]
    rcases hcase with hc | hc | hc | hc
    · rw [hc, mul_zero]
      omega
    · have := hsmall _ hc
      omega
    · rw [hc]
      omega
    · have := h2large _ hc
      omega
  · have hpar : q % 2 = 0 ∨ q % 2 = 1 := by omega
    rcases hpar with hp | hp
    · rw [hp, Nat.add_zero, e0]
      rcases hcase with hc | hc | hc | hc
      · rw [hc, mul_zero]
        omega
      · have := hsmall _ hc
        omega
      · have := hlarge _ hc.le
        omega
      · have := h2large _ hc
        omega
    · rw [hp, e1]
      rcases hcase with hc | hc | hc | hc
      · rw [hc, mul_zero]
        omega
      · have := hsmall _ hc
        omega
      · rw [hc]
        omega
      · have := h2large _ hc
        omega

/-- The exponent of the quantum the quotient num / den is rounded to. -/
def quantum (num den : Nat) : Nat := (num / den).log2 - 52

/-- The significand after rounding. -/
def significand (num den : Nat) : Nat := divHalfEven num (den * 2 ^ quantum num den)

theorem roundUnits_eq (neg : Bool) (num den : Nat) :
    roundUnits neg num den =
      withSign neg (min (quantum num den * 2 ^ 52 + significand num den) infMagnitude) := rfl

theorem divHalfEven_le {num den b : Nat} (h : 0 < den) (hb : num ≤ den * b) : divHalfEven num den ≤ b := by
  by_contra hlt
  have := (divHalfEven_spec num den b h).1
  have h1 : (den : Int) * (b + 1) ≤ den * divHalfEven num den := by
    apply mul_le_mul_of_nonneg_left _ (by positivity)
    exact_mod_cast Nat.lt_of_not_le hlt
  have h2 : (num : Int) ≤ den * b := by exact_mod_cast hb
  have h3 : (den : Int) * (b + 1) = den * b + den := by ring
  have h4 : (0 : Int) < den := by exact_mod_cast h
  omega

theorem le_divHalfEven {num den b : Nat} (h : 0 < den) (hb : den * b ≤ num) : b ≤ divHalfEven num den := by
  have hq : b ≤ num / den := (Nat.le_div_iff_mul_le h).mpr (by rw [Nat.mul_comm]; exact hb)
  unfold divHalfEven
  dsimp only
  split_ifs <;> omega

/-- Where the quotient stands against its quantum. -/
theorem quantum_bounds (num den : Nat) (h : 0 < den) :
    num ≤ den * 2 ^ quantum num den * 2 ^ 53 ∧ (0 < quantum num den → den * 2 ^ quantum num den * 2 ^ 52 ≤ num) := by
  have hnum : num < den * (num / den + 1) := by
    rw [Nat.mul_add, Nat.mul_one]
    have h1 := Nat.div_add_mod num den
    have h2 := Nat.mod_lt num h
    omega
  have hle : num / den < 2 ^ ((num / den).log2 + 1) := Nat.lt_log2_self
  unfold quantum
  constructor
  · have : num / den + 1 ≤ 2 ^ ((num / den).log2 - 52) * 2 ^ 53 := by
      rw [← pow_add]
      exact le_trans hle (Nat.pow_le_pow_right (by norm_num) (by omega))
    calc num ≤ den * (num / den + 1) := hnum.le
      _ ≤ den * (2 ^ ((num / den).log2 - 52) * 2 ^ 53) := Nat.mul_le_mul_left den this
      _ = _ := by ring
  · intro hk
    have hne : num / den ≠ 0 := by
      intro h0
      rw [h0] at hk
      simp at hk
    have hlog : 2 ^ (num / den).log2 ≤ num / den := Nat.log2_self_le hne
    calc den * 2 ^ ((num / den).log2 - 52) * 2 ^ 52
        = den * 2 ^ (num / den).log2 := by
          rw [Nat.mul_assoc, ← pow_add]
          congr 2
          omega
      _ ≤ den * (num / den) := Nat.mul_le_mul_left den hlog
      _ ≤ num := Nat.mul_div_le num den

theorem significand_bounds (num den : Nat) (h : 0 < den) :
    significand num den ≤ 2 ^ 53 ∧ (0 < quantum num den → 2 ^ 52 ≤ significand num den) := by
  have hb := quantum_bounds num den h
  have hpos : 0 < den * 2 ^ quantum num den := by positivity
  exact ⟨divHalfEven_le hpos hb.1, fun hk => le_divHalfEven hpos (hb.2 hk)⟩

/-- The rounded magnitude bits have the value of the significand at its quantum. -/
theorem unitsOf_rounded (num den : Nat) (h : 0 < den) :
    unitsOf (quantum num den * 2 ^ 52 + significand num den) = significand num den * 2 ^ quantum num den := by
  obtain ⟨h1, h2⟩ := significand_bounds num den h
  generalize quantum num den = k at *
  generalize significand num den = q at *
  unfold unitsOf
  rcases Nat.eq_zero_or_pos k with rfl | hk
  · rcases lt_trichotomy q (2 ^ 52) with hq | hq | hq
    · rw [if_pos (by omega)]
      simp
    · rw [hq]
      decide
    · by_cases he : q = 2 ^ 53
      · rw [he]
        decide
      · have e1 : (0 * 2 ^ 52 + q) / 2 ^ 52 = 1 := by omega
        have e2 : (0 * 2 ^ 52 + q) % 2 ^ 52 = q - 2 ^ 52 := by omega
        rw [if_neg (by omega), e1, e2]
        omega
  · have hq := h2 hk
    rw [if_neg (by omega)]
    by_cases he : q = 2 ^ 53
    · have e1 : (k * 2 ^ 52 + q) / 2 ^ 52 - 1 = k + 1 := by omega
      have e2 : (k * 2 ^ 52 + q) % 2 ^ 52 = 0 := by omega
      rw [e1, e2, he, pow_succ 2 k]
      generalize 2 ^ k = p
      omega
    · have e1 : (k * 2 ^ 52 + q) / 2 ^ 52 - 1 = k := by omega
      have e2 : 2 ^ 52 + (k * 2 ^ 52 + q) % 2 ^ 52 = q := by omega
      rw [e1, e2]

/-- A magnitude whose value is no multiple of the quantum 2^k lies below 2^52 quanta. -/
theorem unitsOf_cases (n k : Nat) : 2 ^ k ∣ unitsOf n ∨ (0 < k ∧ unitsOf n < 2 ^ 52 * 2 ^ k) := by
  by_cases h : k ≤ n / 2 ^ 52 - 1
  · by_cases hn : n < 2 ^ 52
    · have : k = 0 := by
        rw [Nat.div_eq_of_lt hn] at h
        omega
      rw [this]
      exact .inl (one_dvd _)
    · left
      rw [unitsOf, if_neg hn]
      exact Dvd.dvd.mul_left (Nat.pow_dvd_pow 2 h) _
  · right
    refine ⟨by omega, ?_⟩
    have hlt : n < (k + 1) * 2 ^ 52 := by omega
    have he : unitsOf ((k + 1) * 2 ^ 52) = 2 ^ 52 * 2 ^ k := by
      rw [unitsOf, if_neg (by omega), Nat.mul_mod_left, Nat.mul_div_cancel _ (by norm_num), Nat.add_zero,
        Nat.add_sub_cancel]
    rw [← he]
    exact unitsOf_strictMono hlt

/-- Rounding on magnitudes: no finite magnitude is nearer, and of two equally near ones the even one is taken. -/
theorem rounded_nearest (num den n : Nat) (h : 0 < den) :
    ((num : Int) - den * unitsOf (quantum num den * 2 ^ 52 + significand num den)).natAbs ≤
      ((num : Int) - den * unitsOf n).natAbs ∧
    (((num : Int) - den * unitsOf (quantum num den * 2 ^ 52 + significand num den)).natAbs =
      ((num : Int) - den * unitsOf n).natAbs →
      unitsOf n ≠ unitsOf (quantum num den * 2 ^ 52 + significand num den) → significand num den % 2 = 0) := by
  have hb := quantum_bounds num den h
  rw [unitsOf_rounded num den h]
  have hpos : 0 < den * 2 ^ quantum num den := by positivity
  have hspec := fun j => divHalfEven_spec num (den * 2 ^ quantum num den) j hpos
  change ∀ j : Nat, ((num : Int) - (den * 2 ^ quantum num den : Nat) * significand num den).natAbs ≤ _ ∧
    (_ → j ≠ significand num den → significand num den % 2 = 0) at hspec
  have e1 : (den : Int) * (significand num den * 2 ^ quantum num den : Nat) =
      (den * 2 ^ quantum num den : Nat) * significand num den := by push_cast; ring
  rw [e1]
  rcases unitsOf_cases n (quantum num den) with ⟨j, hj⟩ | ⟨hk, hlt⟩
  · have e2 : (den : Int) * (unitsOf n) = (den * 2 ^ quantum num den : Nat) * j := by
      rw [hj]
      push_cast
      ring
    rw [e2]
    refine ⟨(hspec j).1, fun heq hne => (hspec j).2 heq ?_⟩
    rintro rfl
    exact hne (by rw [hj, Nat.mul_comm])
  · have h1 := hb.2 hk
    have h2 := (hspec (2 ^ 52)).1
    have h3 : (den : Int) * unitsOf n < (den * 2 ^ quantum num den : Nat) * (2 ^ 52 : Nat) := by
      have : den * unitsOf n < den * (2 ^ 52 * 2 ^ quantum num den) := Nat.mul_lt_mul_of_pos_left hlt h
      have e3 : den * (2 ^ 52 * 2 ^ quantum num den) = den * 2 ^ quantum num den * 2 ^ 52 := by ring
      rw [e3] at this
      exact_mod_cast this
    have h4 : ((den * 2 ^ quantum num den : Nat) : Int) * (2 ^ 52 : Nat) ≤ num := by exact_mod_cast h1
    generalize ((den * 2 ^ quantum num den : Nat) : Int) * (2 ^ 52 : Nat) = a at *
    generalize ((den * 2 ^ quantum num den : Nat) : Int) * significand num den = b at *
    generalize (den : Int) * unitsOf n = c at *
    omega

theorem magnitude_roundUnits (neg : Bool) (num den : Nat) :
    magnitude (roundUnits neg num den) = min (quantum num den * 2 ^ 52 + significand num den) infMagnitude := by
  rw [roundUnits_eq, magnitude_withSign]
  rw [infMagnitude_eq]
  omega

theorem signBit_roundUnits (neg : Bool) (num den : Nat) : signBit (roundUnits neg num den) = neg := by
  rw [roundUnits_eq, signBit_withSign]
  rw [infMagnitude_eq]
  omega

theorem isNaN_roundUnits (neg : Bool) (num den : Nat) : isNaN (roundUnits neg num den) = false := by
  rw [← Bool.not_eq_true, isNaN_iff, magnitude_roundUnits]
  omega

theorem isFinite_roundUnits_iff (neg : Bool) (num den : Nat) :
    isFinite (roundUnits neg num den) = true ↔ quantum num den * 2 ^ 52 + significand num den < infMagnitude := by
  rw [isFinite_iff, magnitude_roundUnits]
  omega

/-- The whole number `neg`, num stands for. -/
def signed (neg : Bool) (num : Nat) : Int := if neg then -(num : Int) else num

/-- The rounding of ± num / den units is a nearest finite value, when it is finite, and the even one of two
(00_scope.md R20). -/
theorem roundUnits_nearest (neg : Bool) (num den : Nat) (z : Binary64) (h : 0 < den)
    (hf : isFinite (roundUnits neg num den) = true) :
    (signed neg num - den * signedUnits (roundUnits neg num den)).natAbs ≤ (signed neg num - den * signedUnits z).natAbs ∧
    ((signed neg num - den * signedUnits (roundUnits neg num den)).natAbs = (signed neg num - den * signedUnits z).natAbs →
      signedUnits z ≠ signedUnits (roundUnits neg num den) → (roundUnits neg num den).getLsbD 0 = false) := by
  have hm : magnitude (roundUnits neg num den) = quantum num den * 2 ^ 52 + significand num den := by
    rw [magnitude_roundUnits]
    rw [isFinite_roundUnits_iff] at hf
    omega
  have hn := rounded_nearest num den (magnitude z) h
  have h0 := (rounded_nearest num den 0 h).1
  rw [unitsOf_zero] at h0
  have hlow : significand num den % 2 = 0 → (roundUnits neg num den).getLsbD 0 = false := by
    intro hs
    rw [BitVec.getLsbD, Nat.testBit_zero, decide_eq_false_iff_not]
    rw [magnitude_eq] at hm
    omega
  rw [signedUnits_eq, signedUnits_eq, signBit_roundUnits, hm]
  rw [← hm] at hn h0 ⊢
  generalize unitsOf (magnitude (roundUnits neg num den)) = u at *
  generalize unitsOf (magnitude z) = v at *
  have hpos : (0 : Int) ≤ den * v := by positivity
  have hv : (den : Int) * v = 0 → v = 0 := by
    intro hv
    rcases mul_eq_zero.mp hv with h' | h'
    · omega
    · exact_mod_cast h'
  have e1 : (den : Int) * -(u : Int) = -(den * u) := by ring
  have e2 : (den : Int) * -(v : Int) = -(den * v) := by ring
  push_cast at h0
  rw [mul_zero] at h0
  unfold signed
  cases neg <;> cases signBit z <;> simp only [if_true, if_false, Bool.false_eq_true, e1, e2]
  · exact ⟨hn.1, fun heq hne => hlow (hn.2 heq (by omega))⟩
  · generalize (den : Int) * v = b at *
    generalize (den : Int) * u = a at *
    refine ⟨by omega, fun heq hne => ?_⟩
    have hb0 : b = 0 := by omega
    have hv0 := hv hb0
    refine hlow (hn.2 (by omega) (by omega))
  · generalize (den : Int) * v = b at *
    generalize (den : Int) * u = a at *
    refine ⟨by omega, fun heq hne => ?_⟩
    have hb0 : b = 0 := by omega
    have hv0 := hv hb0
    refine hlow (hn.2 (by omega) (by omega))
  · generalize (den : Int) * v = b at *
    generalize (den : Int) * u = a at *
    refine ⟨by omega, fun heq hne => hlow (hn.2 (by omega) (by omega))⟩

/-- A whole number of units that a finite pattern stands for is rounded to that number. -/
theorem roundUnits_unitsOf (neg : Bool) (n : Nat) (h : n < infMagnitude) :
    roundUnits neg (unitsOf n) 1 = withSign neg n := by
  have hn := (rounded_nearest (unitsOf n) 1 n one_pos).1
  have he : unitsOf (quantum (unitsOf n) 1 * 2 ^ 52 + significand (unitsOf n) 1) = unitsOf n := by
    rw [Nat.cast_one, one_mul, one_mul, sub_self, Int.natAbs_zero] at hn
    generalize unitsOf (quantum (unitsOf n) 1 * 2 ^ 52 + significand (unitsOf n) 1) = a at *
    omega
  have := unitsOf_strictMono.injective he
  rw [roundUnits_eq, this, min_eq_left h.le]

theorem unitsOf_infMagnitude : unitsOf infMagnitude = 2 ^ 54 * 2 ^ 2044 := by
  rw [infMagnitude_eq, unitsOf, if_neg (by norm_num), ← pow_add]
  have e1 : 2 ^ 52 + 9218868437227405312 % 2 ^ 52 = 2 ^ 52 := by norm_num
  have e2 : 9218868437227405312 / 2 ^ 52 - 1 = 2046 := by norm_num
  rw [e1, e2, ← pow_add]

/-- The largest finite magnitude. -/
theorem unitsOf_infMagnitude_pred : unitsOf (infMagnitude - 1) + 2 * 2 ^ 2044 = 2 ^ 54 * 2 ^ 2044 := by
  have h := unitsOf_succ (infMagnitude - 1)
  have e : infMagnitude - 1 + 1 = infMagnitude := rfl
  have e2 : (infMagnitude - 1) / 2 ^ 52 - 1 = 2045 := by decide
  rw [e, e2, unitsOf_infMagnitude] at h
  rw [h, pow_succ' 2 2044]

/-- A rounding is finite exactly below the middle between the largest finite value and the next binade. -/
theorem isFinite_roundUnits_iff_lt (neg : Bool) (num den : Nat) (h : 0 < den) :
    isFinite (roundUnits neg num den) = true ↔ num < den * ((2 ^ 54 - 1) * 2 ^ 2044) := by
  rw [isFinite_roundUnits_iff]
  have h1 := (rounded_nearest num den infMagnitude h).1
  have h2 := rounded_nearest num den (infMagnitude - 1) h
  have h3 := (rounded_nearest num den infMagnitude h).2
  have hodd : quantum num den * 2 ^ 52 + significand num den = infMagnitude - 1 → significand num den % 2 = 1 := by
    rw [infMagnitude_eq]
    omega
  have hcase : quantum num den * 2 ^ 52 + significand num den < infMagnitude ∨
      infMagnitude ≤ quantum num den * 2 ^ 52 + significand num den := by omega
  generalize quantum num den * 2 ^ 52 + significand num den = m at *
  have hlt := unitsOf_strictMono.lt_iff_lt (a := m) (b := infMagnitude)
  have hle := unitsOf_strictMono.le_iff_le (a := infMagnitude) (b := m)
  have hpred := unitsOf_strictMono.le_iff_le (a := m) (b := infMagnitude - 1)
  have hinj : unitsOf m = unitsOf (infMagnitude - 1) → m = infMagnitude - 1 := fun e => unitsOf_strictMono.injective e
  have hmax := unitsOf_infMagnitude_pred
  rw [unitsOf_infMagnitude] at h1 h3 hlt hle
  have hw : 0 < 2 ^ 2044 := by positivity
  generalize (2 : Nat) ^ 2044 = w at *
  generalize unitsOf (infMagnitude - 1) = top at *
  generalize unitsOf m = u at *
  have htop : (den : Int) * (top : Nat) = den * (2 ^ 54 * w : Nat) - 2 * (den * w) := by
    rw [← hmax]
    push_cast
    ring
  have hmid : (den * ((2 ^ 54 - 1) * w) : Nat) + den * w = den * (2 ^ 54 * w) := by
    rw [← Nat.mul_add]
    congr 1
    omega
  have hbig : (den : Int) * (2 ^ 54 * w : Nat) = (den * (2 ^ 54 * w) : Nat) := by push_cast; ring
  have hdw : 0 < den * w := Nat.mul_pos h hw
  have hu1 : u ≤ top → (den : Int) * u ≤ den * top := fun hu => by
    apply mul_le_mul_of_nonneg_left _ (by positivity)
    exact_mod_cast hu
  have hu2 : 2 ^ 54 * w ≤ u → (den : Int) * (2 ^ 54 * w : Nat) ≤ den * u := fun hu => by
    apply mul_le_mul_of_nonneg_left _ (by positivity)
    exact_mod_cast hu
  have h2' := h2.1
  have hc : ((den * w : Nat) : Int) = den * w := by push_cast; ring
  constructor
  · intro hm
    have hu := hu1 (hpred.mpr (by omega))
    by_contra hcon
    have heq : (den : Int) * u = den * top := by omega
    have heq' : u = top := by
      have := mul_left_cancel₀ (by exact_mod_cast h.ne') heq
      exact_mod_cast this
    have := hodd (hinj heq')
    have := h3 (by omega) (by omega)
    omega
  · intro hn
    by_contra hcon
    have hu := hu2 (hle.mpr (by omega))
    omega

/-- A whole number of units is rounded to a finite value exactly below that middle. -/
theorem isFinite_roundUnits_one_iff (neg : Bool) (n : Nat) :
    isFinite (roundUnits neg n 1) = true ↔ n < (2 ^ 54 - 1) * 2 ^ 2044 := by
  rw [isFinite_roundUnits_iff_lt neg n 1 one_pos, Nat.one_mul]

/-- Every whole number of at most 53 bits at a quantum in range is the value of a finite magnitude. -/
theorem exists_unitsOf (q k : ℕ) (h : q ≤ 2 ^ 53) (hk : k < 2045) : ∃ m, m < infMagnitude ∧ unitsOf m = q * 2 ^ k := by
  by_cases hq : q = 0
  · exact ⟨0, by decide, by simp [hq, unitsOf_zero]⟩
  refine ⟨quantum (q*2^k) 1 * 2 ^ 52 + significand (q*2^k) 1, ?_, ?_⟩
  · have hlt : q * 2 ^ k < (2^54 - 1) * 2^2044 := by
      have : (2:ℕ) ^ k ≤ 2 ^ 2044 := by gcongr <;> omega
      calc q * 2^k ≤ q * 2^2044 := Nat.mul_le_mul_left _ this
        _ < _ := Nat.mul_lt_mul_of_pos_right (by omega) (by positivity)
    have := (isFinite_roundUnits_one_iff false (q*2^k)).mpr hlt
    exact (isFinite_roundUnits_iff _ _ _).mp this
  · rw [unitsOf_rounded _ _ one_pos]
    have hb := quantum_bounds (q*2^k) 1 one_pos
    generalize hqq : quantum (q*2^k) 1 = t at *
    have hdvd : 2 ^ t ∣ q * 2 ^ k := by
      by_cases htk : t ≤ k
      · exact Dvd.dvd.mul_left (Nat.pow_dvd_pow 2 htk) _
      · have h2 := hb.2 (by omega)
        have : 2 ^ t * 2^52 ≤ 2^53 * 2 ^ k := by
          calc _ ≤ q * 2^k := by simpa using h2
            _ ≤ _ := Nat.mul_le_mul_right _ h
        have h3 : 2 ^ t ≤ 2 ^ (k+1) := by
          rw [pow_succ]; generalize 2^t = a at *; generalize 2^k = b at *; omega
        have h4 : t ≤ k + 1 := (Nat.pow_le_pow_iff_right (by norm_num)).mp h3
        have h5 : t = k + 1 := by omega
        subst h5
        have h6 : q = 2^53 := by
          have h7 : 2 ^ (k+1) * 2 ^ 52 ≤ q * 2 ^k := by simpa using h2
          rw [pow_succ] at h7
          have h9 : 2^k * 2^53 ≤ 2^k * q := by
            rw [Nat.mul_comm (2^k) q]; refine le_trans (le_of_eq ?_) h7; ring
          have := Nat.le_of_mul_le_mul_left h9 (by positivity)
          omega
        rw [h6, ← pow_add]; exact Nat.pow_dvd_pow 2 (by omega)
    obtain ⟨j, hj⟩ := hdvd
    have := (divHalfEven_spec (q*2^k) (1 * 2^t) j (by positivity)).1
    have e : significand (q*2^k) 1 = divHalfEven (q*2^k) (1 * 2^t) := by rw [significand, hqq]
    rw [e]
    rw [hj] at this ⊢
    push_cast at this
    simp only [one_mul, sub_self, Int.natAbs_zero] at this
    have h8 : (2:ℤ)^t * j = 2^t * (divHalfEven (2^t*j) (2^t)) := by omega
    simp only [one_mul]
    have : (2:ℕ)^t * j = 2^t * (divHalfEven (2^t*j) (2^t)) := by exact_mod_cast h8
    rw [Nat.mul_comm]; exact this.symm

/-! ### The operations on finite values -/

theorem isFinite_withSign_zero (neg : Bool) : isFinite (withSign neg 0) = true := by
  cases neg <;> decide

theorem signedUnits_withSign_zero (neg : Bool) : signedUnits (withSign neg 0) = 0 := by
  cases neg <;> decide

theorem signBit_fneg (x : Binary64) : signBit (fneg x) = !signBit x := by
  have h : (0x8000000000000000 : Binary64).getLsbD 63 = true := by decide
  rw [signBit, signBit, fneg, BitVec.getLsbD_xor, h, Bool.xor_true]

theorem magnitude_fneg (x : Binary64) : magnitude (fneg x) = magnitude x := by
  have h : (0x8000000000000000 : Binary64).extractLsb' 0 63 = 0#63 := by decide
  rw [magnitude, magnitude, fneg, BitVec.extractLsb'_xor, h, BitVec.xor_zero]

theorem isFinite_fneg (x : Binary64) : isFinite (fneg x) = isFinite x := by
  rw [Bool.eq_iff_iff, isFinite_iff, isFinite_iff, magnitude_fneg]

theorem isNaN_fneg (x : Binary64) : isNaN (fneg x) = isNaN x := by
  rw [Bool.eq_iff_iff, isNaN_iff, isNaN_iff, magnitude_fneg]

theorem signedUnits_fneg (x : Binary64) : signedUnits (fneg x) = -signedUnits x := by
  rw [signedUnits_eq, signedUnits_eq, signBit_fneg, magnitude_fneg]
  cases signBit x <;> simp

theorem fadd_of_finite {x y : Binary64} (hx : isFinite x = true) (hy : isFinite y = true) : fadd x y = addFinite x y := by
  simp [fadd, isNaN_of_isFinite hx, isNaN_of_isFinite hy, isInf_of_isFinite hx, isInf_of_isFinite hy]

/-- The sum of two finite values is the one rounding of the exact sum, or a zero. -/
theorem addFinite_cases (x y : Binary64) :
    (signedUnits x + signedUnits y = 0 ∧ ∃ b, addFinite x y = withSign b 0) ∨
    (signedUnits x + signedUnits y ≠ 0 ∧ ∃ b n, addFinite x y = roundUnits b n 1 ∧
      signed b n = signedUnits x + signedUnits y ∧ n = (signedUnits x + signedUnits y).natAbs) := by
  unfold addFinite
  dsimp only
  split_ifs with h
  · exact .inl ⟨h, _, rfl⟩
  · refine .inr ⟨h, _, _, rfl, ?_, rfl⟩
    unfold signed
    split <;> rename_i hh <;> simp only [decide_eq_true_eq] at hh <;> omega

theorem isNaN_addFinite (x y : Binary64) : isNaN (addFinite x y) = false := by
  unfold addFinite
  dsimp only
  split_ifs
  · exact isNaN_of_isFinite (isFinite_withSign_zero _)
  · exact isNaN_roundUnits _ _ _

/-- The sum of finite values is no NaN, and neither is the sum of a finite value and an infinity. -/
theorem isNaN_fadd {x y : Binary64} (hx : isFinite x = true) (hy : isNaN y = false) : isNaN (fadd x y) = false := by
  unfold fadd
  rw [isNaN_of_isFinite hx, hy, isInf_of_isFinite hx]
  simp only [Bool.or_self, Bool.false_eq_true, if_false]
  split_ifs
  · exact hy
  · exact isNaN_addFinite x y

theorem isNaN_fsub {x y : Binary64} (hx : isFinite x = true) (hy : isNaN y = false) : isNaN (fsub x y) = false :=
  isNaN_fadd hx (by rw [isNaN_fneg, hy])

theorem fmul_of_finite {x y : Binary64} (hx : isFinite x = true) (hy : isFinite y = true) :
    fmul x y = roundUnits (signBit x != signBit y) (units x * units y) unitsPerOne := by
  simp [fmul, isNaN_of_isFinite hx, isNaN_of_isFinite hy, isInf_of_isFinite hx, isInf_of_isFinite hy]

theorem isNaN_fmul {x y : Binary64} (hx : isFinite x = true) (hy : isFinite y = true) : isNaN (fmul x y) = false := by
  rw [fmul_of_finite hx hy]
  exact isNaN_roundUnits _ _ _

theorem fdiv_of_finite {x y : Binary64} (hx : isFinite x = true) (hy : isFinite y = true) (h : units y ≠ 0) :
    fdiv x y = roundUnits (signBit x != signBit y) (units x * unitsPerOne) (units y) := by
  simp [fdiv, isNaN_of_isFinite hx, isNaN_of_isFinite hy, isInf_of_isFinite hx, isInf_of_isFinite hy, h]

theorem unitsPerOne_pos : 0 < unitsPerOne := by
  unfold unitsPerOne
  positivity

/-- The comparison of two values that are not NaN. -/
theorem flt_iff {x y : Binary64} (hx : isNaN x = false) (hy : isNaN y = false) :
    flt x y = true ↔ signedUnits x < signedUnits y := by
  simp [flt, hx, hy, signedUnits_lt_iff]

theorem fle_iff {x y : Binary64} (hx : isNaN x = false) (hy : isNaN y = false) :
    fle x y = true ↔ signedUnits x ≤ signedUnits y := by
  have h := signedUnits_lt_iff y x
  simp only [fle, hx, hy, Bool.not_false, Bool.true_and, decide_eq_true_eq]
  omega

theorem flt_of_isNaN {x y : Binary64} (h : isNaN x = true ∨ isNaN y = true) : flt x y = false := by
  rcases h with h | h <;> simp [flt, h]

theorem fle_of_isNaN {x y : Binary64} (h : isNaN x = true ∨ isNaN y = true) : fle x y = false := by
  rcases h with h | h <;> simp [fle, h]

theorem fabs_eq (x : Binary64) : fabs x = withSign false (magnitude x) := by
  apply BitVec.eq_of_toNat_eq
  have e : (fabs x).toNat = x.toNat &&& (2 ^ 63 - 1) := rfl
  rw [e, Nat.and_two_pow_sub_one_eq_mod, magnitude_eq, withSign, BitVec.toNat_ofNat]
  simp
  omega

theorem isFinite_fabs (x : Binary64) : isFinite (fabs x) = isFinite x := by
  rw [Bool.eq_iff_iff, isFinite_iff, isFinite_iff, fabs_eq, magnitude_withSign _ (magnitude_lt x)]

theorem signedUnits_fabs (x : Binary64) : signedUnits (fabs x) = units x := by
  rw [signedUnits_eq, fabs_eq, signBit_withSign _ (magnitude_lt x), magnitude_withSign _ (magnitude_lt x), units_eq]
  simp

end Sys2Proof.Machine
end

