-- ==== Sys2Proof/Laws/Ops.lean ====
section
/-! SUPPORT. What the shared operations answer, and which next states the commands have. -/

namespace Sys2Proof.Machine

theorem respond_eq (bs : List Byte) (s : State) : respond bs s = .next { s with resp := s.resp ++ bs } := rfl

theorem refuseWith_eq (st : Status) (s : State) : refuseWith st s = .next { s with resp := s.resp ++ [st.code] } := rfl

theorem respondOk_eq (result : List Byte) (s : State) :
    respondOk result s = .next { s with resp := s.resp ++ 0x00 :: result } := rfl

theorem execDecReset_eq (s : State) :
    execDecReset s = .next { s with dec := .reset, resp := s.resp ++ [0x00] } := rfl

theorem execPidReset_eq (s : State) :
    execPidReset s = .next { s with pid := .reset, resp := s.resp ++ [0x00] } := rfl

/-- READ_REG changes nothing but the response stream. -/
theorem execReadReg_cases (reg : Byte) (s : State) :
    ∃ r, r ≠ [] ∧ execReadReg reg s = .next { s with resp := s.resp ++ r } := by
  unfold execReadReg
  split
  · exact ⟨_, by simp, respondOk_eq _ s⟩
  · exact ⟨_, by simp, refuseWith_eq _ s⟩

/-- A DEC_POLL is refused, with one status byte, or performed. -/
theorem execDecPoll_cases (now : Binary64) (data : List Byte) (s : State) :
    (∃ st, st ≠ Status.ok ∧ pollRefusal s.cfg now data s.dec = some st ∧
      execDecPoll now data s = .next { s with resp := s.resp ++ [st.code] }) ∨
    (pollRefusal s.cfg now data s.dec = none ∧
      execDecPoll now data s = .next { s with
        dec := (pollSteps s.cfg now data s.dec).dec,
        resp := s.resp ++ 0x00 :: pollResult s.cfg (pollSteps s.cfg now data s.dec) }) := by
  unfold execDecPoll
  cases h : pollRefusal s.cfg now data s.dec with
  | none => exact .inr ⟨rfl, rfl⟩
  | some st =>
    refine .inl ⟨st, ?_, rfl, rfl⟩
    rintro rfl
    unfold pollRefusal at h
    split_ifs at h <;> simp at h

/-- Exactly the accepted polls are performed. -/
theorem pollRefusal_none_iff (now : Binary64) (data : List Byte) (s : State) :
    pollRefusal s.cfg now data s.dec = none ↔ PollAccepted now data s := by
  have h3 : counterBound = 2 ^ 32 := rfl
  have h4 : frameLen = 17 := rfl
  unfold pollRefusal
  rw [h3, h4, bufLen_eq]
  constructor
  · intro h
    split_ifs at h with ha hb hc
    exact ⟨by simpa using ha, by omega, by omega⟩
  · rintro ⟨ha, hb, hc⟩
    rw [if_neg (by simp [ha]), if_neg (by omega), if_neg (by omega)]

theorem exec_decPoll_of_accepted {now : Binary64} {data : List Byte} {s : State} (h : PollAccepted now data s) :
    exec (.decPoll now data) s = .next { s with
      dec := (pollSteps s.cfg now data s.dec).dec,
      resp := s.resp ++ 0x00 :: pollResult s.cfg (pollSteps s.cfg now data s.dec) } := by
  simp only [exec, execDecPoll, (pollRefusal_none_iff now data s).mpr h, respondOk_eq]

/-- A PID_UPDATE is refused, or is the first one, or computes its terms. -/
theorem execPidUpdate_cases (sp pv : Binary64) (s : State) :
    (∃ st, st ≠ Status.ok ∧ execPidUpdate sp pv s = .next { s with resp := s.resp ++ [st.code] }) ∨
    (isFinite sp = true ∧ isFinite pv = true ∧ s.pid.pv = none ∧
      execPidUpdate sp pv s = .next { s with
        pid := storeFirst s.cfg sp pv s.pid,
        resp := s.resp ++ 0x00 :: updateResult posZero s.pid.sat false true }) ∨
    (isFinite sp = true ∧ isFinite pv = true ∧ s.pid.pv ≠ none ∧ (pidTerms s.cfg s.pid sp pv).anyNaN = false ∧
      execPidUpdate sp pv s = .next { s with
        pid := storeUpdate (pidTerms s.cfg s.pid sp pv) pv (clampOutput (pidTerms s.cfg s.pid sp pv).raw).2 s.pid,
        resp := s.resp ++ 0x00 :: updateResult (clampOutput (pidTerms s.cfg s.pid sp pv).raw).1
          (s.pid.sat || (clampOutput (pidTerms s.cfg s.pid sp pv).raw).2)
          (clampOutput (pidTerms s.cfg s.pid sp pv).raw).2 false }) := by
  unfold execPidUpdate
  dsimp only
  split_ifs with h1 h2 h3
  · exact .inl ⟨.badOperand, by decide, rfl⟩
  · simp only [Bool.or_eq_true, Bool.not_eq_true', not_or, Bool.not_eq_false] at h1
    exact .inr (.inl ⟨h1.1, h1.2, h2, rfl⟩)
  · exact .inl ⟨.numeric, by decide, rfl⟩
  · simp only [Bool.or_eq_true, Bool.not_eq_true', not_or, Bool.not_eq_false] at h1
    exact .inr (.inr ⟨h1.1, h1.2, h2, by simpa using h3, rfl⟩)

/-- Every command has a next state, and adds to the response stream without touching what the host drives or fixes. -/
theorem exec_next (i : Instr) (s : State) :
    ∃ d p r, exec i s = .next { s with dec := d, pid := p, resp := s.resp ++ r } ∧ r ≠ [] := by
  cases i with
  | decReset => exact ⟨_, _, _, execDecReset_eq s, by simp⟩
  | pidReset => exact ⟨_, _, _, execPidReset_eq s, by simp⟩
  | readReg reg =>
    obtain ⟨r, hr, e⟩ := execReadReg_cases reg s
    exact ⟨_, _, _, e, hr⟩
  | decPoll now data =>
    obtain ⟨st, -, -, e⟩ | ⟨-, e⟩ := execDecPoll_cases now data s
    · exact ⟨_, _, _, e, by simp⟩
    · exact ⟨_, _, _, e, by simp⟩
  | pidUpdate sp pv =>
    obtain ⟨st, -, e⟩ | ⟨-, -, -, e⟩ | ⟨-, -, -, -, e⟩ := execPidUpdate_cases sp pv s
    · exact ⟨_, _, _, e, by simp⟩
    · exact ⟨_, _, _, e, by simp⟩
    · exact ⟨_, _, _, e, by simp⟩

/-- Only DEC commands write the DEC unit's state. -/
theorem exec_dec_of_not_decCommand {i : Instr} {s t : State} (hi : isDecCommand i = false) (h : exec i s = .next t) :
    t.dec = s.dec := by
  cases i with
  | decReset => simp [isDecCommand] at hi
  | decPoll now data => simp [isDecCommand] at hi
  | pidReset => rw [← Host.Outcome.next.inj ((execPidReset_eq s).symm.trans h)]
  | readReg reg =>
    obtain ⟨r, -, e⟩ := execReadReg_cases reg s
    rw [← Host.Outcome.next.inj (e.symm.trans h)]
  | pidUpdate sp pv =>
    obtain ⟨st, -, e⟩ | ⟨-, -, -, e⟩ | ⟨-, -, -, -, e⟩ := execPidUpdate_cases sp pv s <;>
      rw [← Host.Outcome.next.inj (e.symm.trans h)]

/-- Only PID commands write the PID unit's state. -/
theorem exec_pid_of_not_pidCommand {i : Instr} {s t : State} (hi : isPidCommand i = false) (h : exec i s = .next t) :
    t.pid = s.pid := by
  cases i with
  | pidReset => simp [isPidCommand] at hi
  | pidUpdate sp pv => simp [isPidCommand] at hi
  | decReset => rw [← Host.Outcome.next.inj ((execDecReset_eq s).symm.trans h)]
  | readReg reg =>
    obtain ⟨r, -, e⟩ := execReadReg_cases reg s
    rw [← Host.Outcome.next.inj (e.symm.trans h)]
  | decPoll now data =>
    obtain ⟨st, -, -, e⟩ | ⟨-, e⟩ := execDecPoll_cases now data s <;>
      rw [← Host.Outcome.next.inj (e.symm.trans h)]

/-- A run of one step more. -/
theorem run_succ (M : Host.Core) (n : Nat) (s t : M.State) (h : M.step s = .next t) : M.run (n + 1) s = M.run n t := by
  simp only [Host.Core.run, h]

/-- The four ways a step goes. -/
theorem step_cases (s : State) :
    (s.rst = true ∧ step s = .next s.blockReset) ∨
    (s.rst = false ∧ ∃ i rest, decode s.cmd = .command i rest ∧ step s = exec i { s with cmd := rest }) ∨
    (s.rst = false ∧ ∃ op rest, decode s.cmd = .reserved op rest ∧
      step s = .next { s with cmd := rest, resp := s.resp ++ [0x01] }) ∨
    (s.rst = false ∧ decode s.cmd = .incomplete ∧ step s = .refused .awaitingCommandBytes) := by
  unfold step
  cases hr : s.rst with
  | true => exact .inl ⟨rfl, rfl⟩
  | false =>
    right
    simp only [Bool.false_eq_true, if_false]
    cases hd : decode s.cmd with
    | command i rest => exact .inl ⟨trivial, i, rest, rfl, rfl⟩
    | reserved op rest => exact .inr (.inl ⟨trivial, op, rest, rfl, rfl⟩)
    | incomplete => exact .inr (.inr ⟨trivial, rfl, rfl⟩)

end Sys2Proof.Machine
end

