-- ==== Sys2Proof/Laws/Pid.lean ====
section
/-! SUPPORT. What the parts of PID_UPDATE give. -/

namespace Sys2Proof.Machine

theorem signedUnits_posZero : signedUnits posZero = 0 := by decide

theorem signedUnits_one : signedUnits one = unitsPerOne := by decide +kernel

theorem isNaN_posZero : isNaN posZero = false := by decide

theorem isNaN_one : isNaN one = false := by decide

/-- The three ways the clamp goes. -/
theorem clampOutput_cases (raw : Binary64) :
    (flt raw posZero = true ∧ clampOutput raw = (posZero, true)) ∨
    (flt raw posZero = false ∧ fgt raw one = true ∧ clampOutput raw = (one, true)) ∨
    (flt raw posZero = false ∧ fgt raw one = false ∧ clampOutput raw = (raw, false)) := by
  unfold clampOutput
  cases flt raw posZero <;> cases fgt raw one <;> simp

/-- The clamped output of a number lies in [0, 1]. -/
theorem clampOutput_range {raw : Binary64} (h : isNaN raw = false) :
    isFinite (clampOutput raw).1 = true ∧ 0 ≤ signedUnits (clampOutput raw).1 ∧
      signedUnits (clampOutput raw).1 ≤ unitsPerOne := by
  have h1 : (0 : Int) ≤ unitsPerOne := Int.natCast_nonneg _
  obtain ⟨-, e⟩ | ⟨-, -, e⟩ | ⟨hl, hg, e⟩ := clampOutput_cases raw <;> rw [e]
  · exact ⟨by decide, by rw [signedUnits_posZero], by rw [signedUnits_posZero]; exact h1⟩
  · exact ⟨by decide, by rw [signedUnits_one]; exact h1, by rw [signedUnits_one]⟩
  · have hl' : 0 ≤ signedUnits raw := by
      rw [← Bool.not_eq_true, flt_iff h isNaN_posZero, signedUnits_posZero] at hl
      omega
    have hg' : signedUnits raw ≤ signedUnits one := by
      rw [fgt, ← Bool.not_eq_true, flt_iff isNaN_one h] at hg
      omega
    refine ⟨?_, hl', by rw [← signedUnits_one]; exact hg'⟩
    have hk : orderKey raw ≤ orderKey one := by
      have := signedUnits_lt_iff one raw
      omega
    have h0 : 0 ≤ orderKey raw := by
      have := signedUnits_lt_iff raw posZero
      rw [signedUnits_posZero] at this
      have e0 : orderKey posZero = 0 := by decide
      omega
    have e1 : orderKey one = 4607182418800017408 := by decide
    rw [isFinite_iff, infMagnitude_eq]
    rw [e1] at hk
    have hkey : orderKey raw = magnitude raw ∨ orderKey raw = -(magnitude raw : Int) := by
      unfold orderKey
      split
      · exact .inr rfl
      · exact .inl rfl
    dsimp only
    omega

theorem storeFirst_pv (c : Config) (sp pv : Binary64) (p : PidState) : (storeFirst c sp pv p).pv = some pv := by
  unfold storeFirst
  split <;> rfl

theorem storeFirst_i (c : Config) (sp pv : Binary64) (p : PidState) : (storeFirst c sp pv p).i = p.i := by
  unfold storeFirst
  split <;> rfl

theorem storeFirst_sat (c : Config) (sp pv : Binary64) (p : PidState) : (storeFirst c sp pv p).sat = p.sat := by
  unfold storeFirst
  split <;> rfl

theorem storeFirst_pe (c : Config) (sp pv : Binary64) (p : PidState) :
    (storeFirst c sp pv p).pe = fsub sp pv ∨ (storeFirst c sp pv p).pe = p.pe := by
  unfold storeFirst
  split
  · exact .inl rfl
  · exact .inr rfl

theorem anyNaN_eq_false {t : PidTerms} (h : t.anyNaN = false) :
    isNaN t.error = false ∧ isNaN t.integral = false ∧ isNaN t.deriv = false ∧ isNaN t.raw = false := by
  simpa [PidTerms.anyNaN, and_assoc] using h

end Sys2Proof.Machine
end

