-- ==== Sys2Proof/Machine/Assembler.lean ====
section
/-! DEFINITION. The text form of a command line and the pseudo-commands (30_encoding.md R115, R116; log 15). -/

namespace Sys2Proof.Machine

/-- DEC_IDLE now=t (30_encoding.md R116). -/
def decIdle (now : Binary64) : List Instr := [.decPoll now []]

/-- RESET_ALL (30_encoding.md R116). -/
def resetAll : List Instr := [.decReset, .pidReset]

/-- DEC_FEED now=t frame=name, with the bytes of the named frame (30_encoding.md R116). -/
def decFeed (now : Binary64) (frame : List Byte) : List Instr := [.decPoll now frame]

def digitOf (ch : Char) : Option Nat := if ch.isDigit then some (ch.toNat - '0'.toNat) else none

def hexDigitOf (ch : Char) : Option Nat :=
  if ch.isDigit then some (ch.toNat - '0'.toNat)
  else if 'A' ≤ ch ∧ ch ≤ 'F' then some (ch.toNat - 'A'.toNat + 10)
  else if 'a' ≤ ch ∧ ch ≤ 'f' then some (ch.toNat - 'a'.toNat + 10)
  else none

/-- The natural whose digits in the given base are `cs`, none for an empty list or another character. -/
def numberOf (base : Nat) (digit : Char → Option Nat) (cs : List Char) : Option Nat :=
  if cs.isEmpty then none
  else cs.foldl (fun acc ch => do return (← acc) * base + (← digit ch)) (some 0)

def hexNumber (cs : List Char) : Option Nat := numberOf 16 hexDigitOf cs
def decNumber (cs : List Char) : Option Nat := numberOf 10 digitOf cs

/-- A byte as two hex digits (30_encoding.md R115). -/
def hexByte (cs : List Char) : Option Byte :=
  if cs.length = 2 then (hexNumber cs).map (BitVec.ofNat 8) else none

/-- The characters before the first one p holds of, and those after it if there is one. -/
def splitAtChar (p : Char → Bool) : List Char → List Char × Option (List Char)
  | [] => ([], none)
  | ch :: cs => if p ch then ([], some cs) else let (a, b) := splitAtChar p cs; (ch :: a, b)

/-- A decimal exponent with its sign: whether it is negative, and its size. -/
def exponentOf (cs : List Char) : Option (Bool × Nat) :=
  match cs with
  | '-' :: ds => (decNumber ds).map fun n => (true, n)
  | '+' :: ds => (decNumber ds).map fun n => (false, n)
  | ds => (decNumber ds).map fun n => (false, n)

/-- An unsigned decimal literal as a fraction: numerator and denominator. -/
def decimalFraction (cs : List Char) : Option (Nat × Nat) := do
  let (mantissa, power) := splitAtChar (fun ch => ch = 'e' || ch = 'E') cs
  let (whole, frac) := splitAtChar (fun ch => ch = '.') mantissa
  let (num, den) ←
    match frac with
    | none => (decNumber whole).map fun n => (n, 1)
    | some ds => (decNumber (whole ++ ds)).map fun n => (n, 10 ^ ds.length)
  match power with
  | none => return (num, den)
  | some ds =>
    let (negative, n) ← exponentOf ds
    return if negative then (num, den * 10 ^ n) else (num * 10 ^ n, den)

/-- <time> and <value>: 16 hex digits giving the bit pattern, or a decimal literal, which means the nearest binary64 value
(30_encoding.md R115; 00_scope.md R20). -/
def valueOf (cs : List Char) : Option Binary64 :=
  match (if cs.length = 16 then hexNumber cs else none) with
  | some n => some (BitVec.ofNat 64 n)
  | none =>
    match cs with
    | '-' :: ds => (decimalFraction ds).map fun q => nearest true q.1 q.2
    | ds => (decimalFraction ds).map fun q => nearest false q.1 q.2

/-- The register names of 10_state.md R48. -/
def registerNames : List (String × Byte) :=
  [("DEC_STATUS", 0x00), ("DEC_BUFLEN", 0x01), ("DEC_FRAMECNT", 0x02), ("DEC_LAST_RECEIVE", 0x03), ("DEC_T0", 0x04),
   ("DEC_T1", 0x05), ("PID_STATUS", 0x10), ("PID_PREV_VALUE", 0x11), ("PID_PREV_ERROR", 0x12), ("PID_INTEGRAL", 0x13),
   ("CFG_KP", 0x20), ("CFG_KI", 0x21), ("CFG_KD", 0x22), ("CFG_DT", 0x23), ("CFG_WINDUP_LIMIT", 0x24),
   ("CFG_BYTE_TIME", 0x30), ("CFG_FRAME_PERIOD", 0x31), ("CFG_DRIFT_TOL", 0x32), ("CFG_STALE_TIMEOUT", 0x33),
   ("CFG_BUF_CAP", 0x34), ("CFG_FLAGS", 0x35), ("ID", 0xFF)]

/-- <register name or 0xNN> (30_encoding.md R115). -/
def registerOf (cs : List Char) : Option Byte :=
  match cs with
  | '0' :: 'x' :: ds => hexByte ds
  | _ => (registerNames.find? fun p => p.1.toList = cs).map Prod.snd

/-- The tokens of a line: a comment is dropped, spaces part tokens, and each of `=`, `[`, `]` is a token. -/
def tokens (line : List Char) : List (List Char) :=
  let body := (splitAtChar (fun ch => ch = '#') line).1
  let step (ch : Char) (acc : List Char × List (List Char)) : List Char × List (List Char) :=
    let done := if acc.1.isEmpty then acc.2 else acc.1 :: acc.2
    if ch = ' ' || ch = '\t' then ([], done)
    else if ch = '=' || ch = '[' || ch = ']' then ([], [ch] :: done)
    else (ch :: acc.1, acc.2)
  let (word, rest) := body.foldr step ([], [])
  if word.isEmpty then rest else word :: rest

/-- The bytes of `[<hex byte> ...]`. -/
def bracketed : List (List Char) → Option (List Byte)
  | [] => none
  | t :: ts =>
    match ts with
    | [] => if t = [']'] then some [] else none
    | _ :: _ => do return (← hexByte t) :: (← bracketed ts)

/-- The commands of one line of text; an empty line or a comment gives none (30_encoding.md R115, R116). `frames` names the
frames DEC_FEED may use. -/
def assembleLine (frames : List (String × List Byte)) (line : String) : Option (List Instr) :=
  match tokens line.toList with
  | [] => some []
  | op :: args =>
    if op = "DEC_RESET".toList ∧ args = [] then some [.decReset]
    else if op = "PID_RESET".toList ∧ args = [] then some [.pidReset]
    else if op = "RESET_ALL".toList ∧ args = [] then some resetAll
    else
      match args with
      | [r] => if op = "READ_REG".toList then (registerOf r).map fun reg => [.readReg reg] else none
      | key :: ['='] :: v :: later =>
        if op = "DEC_IDLE".toList ∧ key = "now".toList ∧ later = [] then (valueOf v).map decIdle
        else
          match later with
          | key' :: ['='] :: ['['] :: bytes =>
            if op = "DEC_POLL".toList ∧ key = "now".toList ∧ key' = "data".toList then do
              return [.decPoll (← valueOf v) (← bracketed bytes)]
            else none
          | [key', ['='], v'] =>
            if op = "PID_UPDATE".toList ∧ key = "sp".toList ∧ key' = "pv".toList then do
              return [.pidUpdate (← valueOf v) (← valueOf v')]
            else if op = "DEC_FEED".toList ∧ key = "now".toList ∧ key' = "frame".toList then do
              return decFeed (← valueOf v) (← (frames.find? fun p => p.1.toList = v').map Prod.snd)
            else none
          | _ => none
      | _ => none

end Sys2Proof.Machine
end

