-- ==== Sys2Proof/Tests/Slice0.lean ====
section
/-! SUPPORT. Tests of single steps, with expected values from 95_test_vectors.md, and a witness for the hypotheses of every
statement. -/

namespace Sys2Proof.Tests

open Sys2Proof Sys2Proof.Machine

/-! ## Small inputs -/

/-- The parameters of the conventions of 95_test_vectors.md. -/
def config : Config :=
  Config.withGains 0x3FC0000000000000 0x3FB0000000000000 0x3FE0000000000000 0x4000000000000000

/-- The block after its reset, with those parameters. -/
def start : State := State.resetWith config

/-- The state an outcome goes on from. -/
def next (o : Host.Outcome State Fault Refusal) : Option State :=
  match o with
  | .next s => some s
  | .fault _ => none
  | .refused _ => none

/-- The response bytes of a command executed at s. -/
def answer (i : Instr) (s : State) : Option (List Byte) := (next (exec i s)).map State.resp

/-- The frame FA of 95_test_vectors.md section 2. -/
def frameA : List Byte :=
  [0x00, 0x0D, 0x80, 0x40, 0x00, 0x01, 0x04, 0xD2, 0x33, 0x00, 0x01, 0x00, 0x7B, 0x00, 0x03, 0x0D, 0x0A]

/-- FA with byte 16 changed, which fails the marker test. -/
def frameBad : List Byte := frameA.set 16 0x0B

/-- The packed record of FA. -/
def recordA : List Byte := [0x5C, 0x01, 0x01, 0x04, 0xD2, 0x33, 0x00, 0x7B, 0x03, 0xFD, 0x00, 0x01]

/-- A synchronized DEC unit with the given buffer and counter, polled last at 1.0. -/
def synced (buf : List Byte) (fc : Nat) : DecState :=
  { DecState.reset with buf := buf, sync := true, lr := some one, fc := fc, ec := true }

/-- The block with the given DEC state. -/
def withDec (d : DecState) : State := { start with dec := d }

/-- The block after the first update of 95_test_vectors.md V3.10.1, which left PV 25.0 and PE 5.0. -/
def updated : State := { start with pid := { PidState.reset with pv := some 0x4039000000000000, pe := 0x4014000000000000 } }

/-! ## Well-formedness -/

/-- An instruction no encoding exists for: its payload is one byte over CHUNK_MAX. -/
theorem test_wellFormed_refuses_long_chunk : (Instr.decPoll one (List.replicate 65536 0)).wf = false := by
  rw [Instr.wf, List.length_replicate]
  decide

theorem test_wellFormed_takes_longest_chunk : (Instr.decPoll one (List.replicate 65535 0)).wf = true := by
  rw [Instr.wf, List.length_replicate]
  decide

/-! ## Decoding: the words of 30_encoding.md R100 to R104, written out -/

/-- Command 1 of program P1. -/
theorem test_decode_decPoll :
    decode [0x02, 0x40, 0x24, 0x00, 0x00, 0x00, 0x00, 0x00, 0x00, 0x00, 0x01, 0x00] =
      .command (.decPoll 0x4024000000000000 [0x00]) [] := by decide

/-- Command 2 of program P2. -/
theorem test_decode_pidUpdate :
    decode [0x12, 0x40, 0x3E, 0x00, 0x00, 0x00, 0x00, 0x00, 0x00, 0x40, 0x39, 0x00, 0x00, 0x00, 0x00, 0x00, 0x00] =
      .command (.pidUpdate 0x403E000000000000 0x4039000000000000) [] := by decide

theorem test_decode_readReg : decode [0xF0, 0x35, 0x01] = .command (.readReg 0x35) [0x01] := by decide

theorem test_decode_resets : decode [0x01] = .command .decReset [] ∧ decode [0x11] = .command .pidReset [] := by decide

/-- The reserved single bytes of 95_test_vectors.md section 3.9. -/
theorem test_decode_reserved : ∀ op ∈ ([0x00, 0x03, 0x10, 0x13, 0x7F, 0xF1, 0xFF] : List Byte),
    decode [op] = .reserved op [] := by decide

theorem test_decode_incomplete : decode [] = .incomplete ∧ decode [0x12, 0x00] = .incomplete ∧ decode [0x02, 0x40] = .incomplete := by
  decide

/-- Every row of the opcode table is fetched and decoded from the table's own numbering of its bits. -/
theorem test_decodeTableWord :
    decodeTableWord 8 0x01 = some .decReset ∧ decodeTableWord 8 0x02 = some (.decPoll 0 []) ∧
    decodeTableWord 8 0x11 = some .pidReset ∧ decodeTableWord 8 0x12 = some (.pidUpdate 0 0) ∧
    decodeTableWord 8 0xF0 = some (.readReg 0) := by decide

/-! ## Frames (95_test_vectors.md section 3.1) -/

/-- V1.1. -/
theorem test_frame_decode : packRecord config (emitFrame config frameA) = recordA ∧
    (decodeFrame config frameA).measurement1 = { mant := 1234, expo := 3, k := -3 } ∧
    (decodeFrame config frameA).measurement2 = some { mant := 123, expo := 3, k := 0 } := by decide

/-- V1.6: an unknown frequency and an unknown second quantity. -/
theorem test_frame_unknown_codes :
    packRecord config (emitFrame config ((frameA.set 3 0xC0).set 10 0x00)) =
      [0xD8, 0x01, 0x00, 0x04, 0xD2, 0x33, 0x00, 0x00, 0x00, 0xFD, 0x00, 0x01] := by decide

/-- V1.8: the other place of info byte 2. -/
theorem test_frame_m2InfoByte_13 :
    packRecord { config with m2InfoByte := 13 } (emitFrame { config with m2InfoByte := 13 } frameA) =
      [0x5C, 0x01, 0x01, 0x04, 0xD2, 0x33, 0x00, 0x7B, 0x00, 0xFD, 0x00, 0x01] := by decide

/-! ## One command (95_test_vectors.md sections 3.2, 3.8, 3.9) -/

/-- V2.1: junk before the frame is dropped. -/
theorem test_decPoll_syncs_after_junk :
    next (exec (.decPoll one ([0xFF, 0x0D, 0x00] ++ frameA)) start) =
      some { start with dec := synced [] 1, resp := [0x00, 0x05, 0x00, 0x01] ++ recordA } := by decide +kernel

/-- V2.6: a marker mismatch keeps the buffer and faults. -/
theorem test_decPoll_marker_mismatch :
    next (exec (.decPoll 0x4000000000000000 (frameA ++ frameBad ++ frameA)) start) =
      some { start with
        dec := { DecState.reset with buf := frameBad ++ frameA, fault := true,
                                     cause := { drift := false, marker := true, stale := false },
                                     lr := some 0x4000000000000000, fc := 1, ec := true },
        resp := [0x00, 0x26, 0x00, 0x01] ++ recordA } := by decide +kernel

/-- V2.13. -/
theorem test_decReset : next (exec .decReset (withDec (synced frameA 3))) = some { start with resp := [0x00] } := by decide

/-- V3.10.1, call 2: the output is 0.75. -/
theorem test_pidUpdate_output :
    answer (.pidUpdate 0x403E000000000000 0x403A000000000000) updated =
      some [0x00, 0x3F, 0xE8, 0x00, 0x00, 0x00, 0x00, 0x00, 0x00, 0x00] := by decide +kernel

/-- V3.10.4, "raw = -0.0": a negative zero passes the clamp. -/
theorem test_pidUpdate_negative_zero :
    answer (.pidUpdate 0 0)
      { start with cfg := Config.withGains 0xBFF0000000000000 0xBFF0000000000000 0xBFF0000000000000 0x4000000000000000,
                   pid := { PidState.reset with pv := some 0 } } =
      some [0x00, 0x80, 0x00, 0x00, 0x00, 0x00, 0x00, 0x00, 0x00, 0x00] := by decide +kernel

theorem test_pidReset : next (exec .pidReset updated) = some { start with resp := [0x00] } := by decide

/-- 95_test_vectors.md section 3.9: CFG_FLAGS, and a reserved register number. -/
theorem test_readReg : answer (.readReg 0x35) start = some [0x00, 0, 0, 0, 0, 0, 0, 0x0E, 0x03] ∧
    answer (.readReg 0x06) start = some [0x03] := by decide

/-- Program P3, command 5: the reserved opcode 0x7F. -/
theorem test_step_reserved : next (step { start with cmd := [0x7F, 0x01] }) =
    some { start with cmd := [0x01], resp := [0x01] } := by decide

/-! ## The host (95_test_vectors.md sections 1.7 and 1.8) -/

/-- The Linear trajectory of section 1.7. -/
def ramp : Trajectory :=
  { kind := .linear, period := 0x40AC200000000000,
    waypoints := [(0x0000000000000000, 0x4039000000000000), (0x4082C00000000000, 0x4039000000000000),
                  (0x40AC200000000000, 0x4052C00000000000)] }

/-- Elapsed 2100 is the middle of the ramp: 50; elapsed 3600 wraps to 25. -/
theorem test_linear_trajectory : ramp.value 0x40A0680000000000 = some 0x4049000000000000 ∧
    ramp.value 0x40AC200000000000 = some 0x4039000000000000 := by decide +kernel

/-- A Step trajectory with the period 0.1 of section 1.8. -/
def stairs : Trajectory := { kind := .step, period := 0x3FB999999999999A, waypoints := [(0x3FB999999999999A, one)] }

/-- Elapsed 0.5 with the period 0.1: the exact floor is 4, not the 5 of the rounded quotient. -/
theorem test_exact_iteration : stairs.iteration 0x3FE0000000000000 = 4 := by decide +kernel

/-! ## Witnesses: a concrete input for the hypotheses of every statement, clause by clause -/

/-- The parameters of the tests are legal. -/
theorem witness_legal : config.legal = true := by decide +kernel

/-- A block in use: synchronized, with a partial frame, an estimate and a first update, and a DEC_RESET received. -/
def inUse : State :=
  { updated with
    dec := { synced [0x00] 1 with t0 := some 0x4024F82A9930BE0E, t1 := some 0x4024F82A9930BE0E }
    cmd := [0x01] }

/-- The invariant holds of a block in use. -/
theorem witness_inv : inUse.Inv where
  legal := witness_legal
  dec :=
    { bufFits := by decide
      counterBounded := by decide
      syncedShort := by decide
      faultRecorded := rfl
      freshUntilPolled := by simp [inUse, synced]
      lastReceiveFinite := by
        rintro x ⟨⟩
        decide
      estimatesAgree := rfl
      estimateNumber := by
        rintro x ⟨⟩
        decide
      countedCompleted := by decide }
  pid :=
    { freshUntilUpdated := by simp [inUse, updated]
      previousFinite := by
        rintro x ⟨⟩
        decide
      errorNumber := by decide
      integralNumber := by decide }

theorem witness_DecodeInvertsEncode : (Instr.decPoll one (List.replicate 65535 0)).wf = true ∧
    (Instr.readReg 0xFF).wf = true := ⟨test_wellFormed_takes_longest_chunk, rfl⟩

theorem witness_DecodedBytesAreTheEncoding : decode [0xF0, 0x13, 0xAA] = .command (.readReg 0x13) [0xAA] := by decide

theorem witness_CommandLengthFollowsTheOpcode :
    (([0, 0, 0, 0, 0, 0, 0, 0, 0xFF, 0xFF] : List Byte)[8]? = some 0xFF ∧
      ([0, 0, 0, 0, 0, 0, 0, 0, 0xFF, 0xFF] : List Byte)[9]? = some 0xFF) ∧
    ((0x7F : Byte) ≠ 0x02 ∧ (0x7F : Byte) ≠ 0x12 ∧ (0x7F : Byte) ≠ 0xF0) := by decide

theorem witness_StepRunsTheDecodedCommand :
    ({ start with cmd := [0x01, 0x11] } : State).rst = false ∧ decode [0x01, 0x11] = .command .decReset [0x11] := by decide

theorem witness_ReservedOpcodeIsAnsweredIllegal :
    ({ start with cmd := [0x7F, 0x01] } : State).rst = false ∧
    (0x7F : Byte) ∉ ([0x01, 0x02, 0x11, 0x12, 0xF0] : List Byte) := by decide

/-- The last byte is missing; no byte is there. -/
theorem witness_PartialCommandWaitsForItsBytes :
    (Instr.pidUpdate 0 0).wf = true ∧
    ({ start with cmd := (encode (.pidUpdate 0 0)).take 16 } : State).rst = false ∧
    16 < (encode (.pidUpdate 0 0)).length ∧ start.cmd = (encode .decReset).take 0 ∧ 0 < (encode .decReset).length := by
  decide

theorem witness_CommandStreamIsSequentialComposition :
    (∀ i ∈ [Instr.pidUpdate 0 0, .readReg 0x10], i.wf = true) ∧
    ({ start with cmd := ([Instr.pidUpdate 0 0, .readReg 0x10].map encode).flatten ++ [0xF0] } : State).rst = false := by
  decide

/-- Two blocks with the same DEC unit and different PID units, and the other way round. -/
theorem witness_UnitsOwnDisjointState :
    (isDecCommand (.decPoll one []) = true ∧ start.cfg = updated.cfg ∧ start.dec = updated.dec ∧ start.pid ≠ updated.pid) ∧
    (isPidCommand (.pidUpdate 0 0) = true ∧ start.cfg = (withDec (synced [] 1)).cfg ∧
      start.pid = (withDec (synced [] 1)).pid ∧ start.dec ≠ (withDec (synced [] 1)).dec) := by decide

theorem witness_DecResetRestoresResetValues :
    ∃ t, exec .decReset (withDec (synced frameA 3)) = .next t := ⟨_, rfl⟩

theorem witness_PidResetRestoresResetValues : ∃ t, exec .pidReset updated = .next t := ⟨_, rfl⟩

theorem witness_BlockResetRestoresEveryElement :
    (updated.driveReset true).rst = true ∧ config.legal = true := ⟨rfl, witness_legal⟩

/-- The bounds of BUF_CAP, M2_INFO_BYTE, DT and WINDUP_LIMIT, from both sides. -/
theorem witness_InstantiationRefusesIllegalParameters :
    (∀ c ∈ [config, { config with bufCap := 17 }, { config with bufCap := 1114111 }, { config with m2InfoByte := 13 },
            { config with windupLimit := 0 }, { config with byteTime := 0 }], c.legal = true) ∧
    (∀ c ∈ [{ config with bufCap := 16 }, { config with bufCap := 1114112 }, { config with m2InfoByte := 15 },
            { config with dt := 0 }, { config with kp := 0x7FF0000000000000 }, { config with scaleTable := [] }],
      c.legal = false) := by decide +kernel

theorem witness_ResetMeetsTheInvariant : next (instantiate config) = some start := by decide +kernel

/-- A block in use meets the hypothesis of the statements that assume the invariant. -/
theorem witness_ResponseLengths : inUse.Inv ∧ ∃ t, exec (.readReg 0x35) inUse = .next t := ⟨witness_inv, _, rfl⟩

theorem witness_RegisterValues : inUse.Inv := witness_inv

/-- A step from a state with the invariant that has a next state: a command, and a block reset. -/
theorem witness_StepKeepsTheInvariant :
    (inUse.Inv ∧ ∃ t, step inUse = .next t) ∧ ((inUse.driveReset true).Inv ∧ ∃ t, step (inUse.driveReset true) = .next t) :=
  ⟨⟨witness_inv, _, rfl⟩, ⟨⟨witness_inv.legal, witness_inv.dec, witness_inv.pid⟩, _, rfl⟩⟩

theorem witness_StepKeepsTheParameters : ∃ t, step inUse = .next t := ⟨_, rfl⟩

theorem witness_DefaultConstantsAreNearestToTheLiterals : isFinite 0x3F921FF2E48E8A73 = true := by decide

/-- An exact sum; a tie (1.0 plus half its last place); an overflow. -/
theorem witness_AdditionAndSubtractionRoundToNearestEven :
    (isFinite one = true ∧ isFinite 0x3CA0000000000000 = true ∧ fadd one 0x3CA0000000000000 = one ∧
      isFinite 0x3FF0000000000001 = true) ∧
    (isFinite 0x7FEFFFFFFFFFFFFF = true ∧ isFinite (fadd 0x7FEFFFFFFFFFFFFF 0x7C90000000000000) = false ∧
      isFinite (fadd 0x7FEFFFFFFFFFFFFF 0x7C8FFFFFFFFFFFFF) = true) ∧
    isFinite (fsub one one) = true := by decide +kernel

/-- A product that is rounded, one that underflows to the least subnormal's tie, and one that overflows. -/
theorem witness_MultiplicationRoundsToNearestEven :
    (isFinite 0x3FB999999999999A = true ∧ isFinite (fmul 0x3FB999999999999A 0x3FB999999999999A) = true) ∧
    (isFinite 0x0000000000000001 = true ∧ isFinite (fmul 0x0000000000000001 0x3FE0000000000000) = true) ∧
    (isFinite 0x7FEFFFFFFFFFFFFF = true ∧ isFinite (fmul 0x7FEFFFFFFFFFFFFF 0x4000000000000000) = false) := by decide +kernel

/-- A quotient that is rounded, and one that overflows. -/
theorem witness_DivisionRoundsToNearestEven :
    (isFinite one = true ∧ isFinite 0xC008000000000000 = true ∧ units 0xC008000000000000 ≠ 0 ∧
      isFinite (fdiv one 0xC008000000000000) = true) ∧
    (isFinite 0x0000000000000001 = true ∧ units 0x0000000000000001 ≠ 0 ∧
      isFinite (fdiv one 0x0000000000000001) = false) := by decide +kernel

/-- The two zeros, the two infinities, and a NaN. -/
theorem witness_ComparisonsCompareValues :
    (isNaN 0x8000000000000000 = false ∧ isNaN 0x0000000000000000 = false) ∧
    (isNaN 0x7FF0000000000000 = false ∧ isNaN 0xFFF0000000000000 = false) ∧
    isNaN 0x7FF0000000000001 = true ∧ isFinite 0x8000000000000001 = true := by decide

/-- Infinities of one sign and of both; zeros of both signs; a zero sum and a negative one; results that are not NaN. -/
theorem witness_SpecialOperandsAndResultSigns :
    (isNaN (fadd 0x7FF0000000000000 one) = false ∧ isNaN (fadd 0x7FF0000000000000 0x7FF0000000000000) = false ∧
      (0x7FF0000000000000 : Binary64) ≠ 0xFFF0000000000000) ∧
    (isFinite one = true ∧ isFinite 0xBFF0000000000000 = true ∧ signedUnits one + signedUnits 0xBFF0000000000000 = 0) ∧
    (isFinite 0x8000000000000001 = true ∧ isFinite 0x8000000000000000 = true ∧
      signedUnits 0x8000000000000001 + signedUnits 0x8000000000000000 ≠ 0) ∧
    (isNaN (fmul 0xFFF0000000000000 one) = false ∧ isNaN (fmul 0x8000000000000000 one) = false) ∧
    (isNaN (fdiv 0x7FF0000000000000 0x8000000000000000) = false ∧ isNaN (fdiv one 0x8000000000000000) = false) := by
  decide +kernel

/-- A case of 42_pid.md R199: the same infinity taken from itself, and 0 times an infinity, are NaN. -/
theorem test_invalid_operations : isNaN (fsub 0x7FF0000000000000 0x7FF0000000000000) = true ∧
    isNaN (fmul 0x0000000000000000 0x7FF0000000000000) = true := by decide

theorem witness_SmallNaturalsConvertExactly : f64 (2 ^ 53) = 0x4340000000000000 := by decide +kernel

/-- V1.4: FA with every ignored bit changed. -/
theorem witness_IgnoredFrameBitsHaveNoEffect :
    let g := ((((frameA.set 2 0xFF).set 3 0x5F).set 4 0xFF).set 9 0xFF).set 13 0xFF
    (∀ k ∈ [5, 6, 7, 8, 10, 11, 12, config.m2InfoByte], frameA.getD k 0 = g.getD k 0) ∧
    (frameA.getD 2 0).getLsbD 7 = (g.getD 2 0).getLsbD 7 ∧
    (∀ b ∈ [5, 6, 7], (frameA.getD 3 0).getLsbD b = (g.getD 3 0).getLsbD b) ∧ g ≠ frameA := by decide

theorem witness_MeasurementValueIsAnExactDecimal :
    config.legal = true ∧ (decodeFrame config frameA).measurement2.isSome = true := ⟨witness_legal, by decide⟩

/-- The second quantity present, and absent. -/
theorem witness_PackedRecordLayoutAndRecovery :
    config.legal = true ∧ (config.q2Table.lookup (frameA.getD 10 0)).isSome = true ∧
    (config.q2Table.lookup ((frameA.set 10 0).getD 10 0)).isSome = false := ⟨witness_legal, by decide, by decide⟩

/-- V2.8; V2.10, one byte over BUF_CAP; V2.11, one frame over the counter. -/
theorem witness_PollRefusals :
    isFinite 0x7FF8000000000000 = false ∧
    (isFinite one = true ∧ ({ start with cfg := { config with bufCap := 17 } } : State).cfg.bufCap < ([] : List Byte).length + (frameA ++ [0]).length) ∧
    ((withDec (synced [] (2 ^ 32 - 1))).dec.buf.length + frameA.length ≤ config.bufCap ∧
      2 ^ 32 ≤ (withDec (synced [] (2 ^ 32 - 1))).dec.fc + ((withDec (synced [] (2 ^ 32 - 1))).dec.buf.length + frameA.length) / 17) := by
  decide

/-- V2.10b, where the length equals BUF_CAP; V2.12, where the counter stays just below its bound. -/
theorem witness_AcceptedPollCompletes :
    PollAccepted one frameA { start with cfg := { config with bufCap := 17 } } ∧
    PollAccepted one (frameA.take 16) (withDec (synced [] (2 ^ 32 - 1))) :=
  ⟨⟨by decide, by decide, by decide⟩, ⟨by decide, by decide, by decide⟩⟩

/-- An empty first poll, an empty later poll, a poll with a byte. -/
theorem witness_PollMovesLastReceive :
    (PollAccepted one [] start ∧ start.dec.lr = none) ∧
    (PollAccepted one [] (withDec (synced [] 1)) ∧ (withDec (synced [] 1)).dec.lr ≠ none) ∧
    PollAccepted one [0x00] start :=
  ⟨⟨⟨by decide, by decide, by decide⟩, rfl⟩, ⟨⟨by decide, by decide, by decide⟩, by decide⟩, ⟨by decide, by decide, by decide⟩⟩

theorem witness_PollPartitionsTheByteStream :
    PollAccepted one (frameA ++ [0x00]) (withDec (synced [] 1)) ∧ (withDec (synced [] 1)).dec.sync = true :=
  ⟨⟨by decide, by decide, by decide⟩, rfl⟩

/-- The four marker bytes stand at offset i. -/
abbrev marked (bs : List Byte) (i : Nat) : Prop :=
  bs[i]? = some 0x00 ∧ bs[i + 1]? = some 0x0D ∧ bs[i + 15]? = some 0x0D ∧ bs[i + 16]? = some 0x0A

/-- Synchronized; short; no offset; an offset found at 3; one found at the last possible place, 0. -/
theorem witness_SyncTakesTheLeastMarkedOffset :
    (synced [] 1).sync = true ∧ ({ DecState.reset with buf := frameA.take 16 } : DecState).buf.length < 17 ∧
    (17 ≤ frameBad.length ∧ ∀ i < 1, ¬ marked frameBad i) ∧
    (3 + 17 ≤ ([0xFF, 0x0D, 0x00] ++ frameA).length ∧ marked ([0xFF, 0x0D, 0x00] ++ frameA) 3 ∧
      ∀ j < 3, ¬ marked ([0xFF, 0x0D, 0x00] ++ frameA) j) ∧
    (0 + 17 ≤ frameA.length ∧ marked frameA 0) := by decide

/-- FA at offset 0, its bytes 2 and 14 among those that do not matter, and FA after three other bytes. -/
theorem witness_MarkerTestComparesFourBytes :
    (0 + 17 ≤ frameA.length ∧ 0 + 2 ≤ 2 ∧ 14 ≤ 0 + 14) ∧ 3 + 17 ≤ ([0xFF, 0x0D, 0x00] ++ frameA).length := by decide

/-- The parameters of the tests with a frame period of 0.125, at which the discrepancies of V3.4 are reached exactly. -/
def configThreshold : Config := { config with framePeriod := 0x3FC0000000000000 }

/-- One byte of a partial frame after one frame, with an earlier estimate of +0.0. -/
def estimated : DecState := { synced [0x00] 1 with t0 := some posZero, t1 := some posZero }

/-- The discrepancy of a check of `estimated` at the time `now`. -/
def discrepancyAt (now : Binary64) : Binary64 :=
  fsub (fsub (fsub now (fmul (f64 (estimated.buf.length % 17)) configThreshold.byteTime)) posZero)
    (fmul (f64 (estimated.fc + estimated.buf.length / 17)) configThreshold.framePeriod)

/-- V3.1 poll 2 (no previous estimate); with one, V3.4: d = 0.29999999999999993 is below the threshold and d = 0.3 is not;
no check due; no partial frame. -/
theorem witness_DriftCheckRule :
    (let d : DecState := { DecState.reset with buf := frameA ++ [0x00], sync := true }
     d.sync = true ∧ d.fault = false ∧ (d.fc ≠ 0 ∨ d.ec = false) ∧ d.buf.length % 17 ≠ 0 ∧ d.t1 = none) ∧
    (estimated.sync = true ∧ estimated.fault = false ∧ (estimated.fc ≠ 0 ∨ estimated.ec = false) ∧
      estimated.buf.length % 17 ≠ 0 ∧ estimated.t1 = some posZero) ∧
    (discrepancyAt 0x3FDC5532617C1BD9 = 0x3FD3333333333332 ∧
      flt (discrepancyAt 0x3FDC5532617C1BD9) configThreshold.driftTol = true) ∧
    (discrepancyAt 0x3FDC5532617C1BDA = 0x3FD3333333333333 ∧
      flt (discrepancyAt 0x3FDC5532617C1BDA) configThreshold.driftTol = false) ∧
    (let d : DecState := synced [0x00] 0
     ¬ (d.sync = true ∧ d.fault = false ∧ (d.fc ≠ 0 ∨ d.ec = false))) ∧
    (synced frameA 1).buf.length % 17 = 0 := by decide +kernel

/-- V3.4, what the check does on both sides of the threshold. -/
theorem test_drift_threshold :
    (pollDrift configThreshold 0x3FDC5532617C1BD9 estimated).fc = 0 ∧
    (pollDrift configThreshold 0x3FDC5532617C1BD9 estimated).cause.drift = false ∧
    (pollDrift configThreshold 0x3FDC5532617C1BDA estimated).fc = 1 ∧
    (pollDrift configThreshold 0x3FDC5532617C1BDA estimated).cause.drift = true := by decide +kernel

/-- Unsynchronized; ending short; ending on a mismatch, under both settings. -/
theorem witness_ExtractionLoopEndsByTheRules :
    (let d : DecState := { DecState.reset with buf := frameA }
     d.sync = false) ∧
    (let d := synced (frameA ++ [0x00]) 0
     d.sync = true ∧ (pollExtract config d).dec.sync = true) ∧
    (let d := synced (frameA ++ frameBad) 0
     d.sync = true ∧ (pollExtract config d).dec.sync = false ∧ config.mismatchFaults = true) ∧
    (let c := { config with mismatchFaults := false }
     let d := synced frameBad 0
     d.sync = true ∧ (pollExtract c d).dec.sync = false ∧ c.mismatchFaults = false) := by decide

/-- V2.5: now - LR is 5.0, which does not exceed STALE_TIMEOUT, and then 5.5, which does. -/
theorem witness_StaleLinkRule :
    (PollAccepted 0x4018000000000000 [] (withDec (synced [] 1)) ∧
      fgt (fsub 0x4018000000000000 one) config.staleTimeout = false) ∧
    (PollAccepted 0x401A000000000000 [] (withDec (synced [] 1)) ∧
      fgt (fsub 0x401A000000000000 one) config.staleTimeout = true) :=
  ⟨⟨⟨by decide, by decide, by decide⟩, by decide +kernel⟩, ⟨⟨by decide, by decide, by decide⟩, by decide +kernel⟩⟩

theorem witness_FaultIsSticky :
    (Instr.decPoll one []) ≠ .decReset ∧
    (withDec (raiseFault .stale (raiseFault .marker (raiseFault .drift (synced [] 1))))).dec.fault = true ∧
    (withDec (raiseFault .stale (raiseFault .marker (raiseFault .drift (synced [] 1))))).dec.cause =
      { drift := true, marker := true, stale := true } ∧
    ((withDec (raiseFault .stale (synced [] 1))).driveReset true).rst = true := by decide

/-- A poll that ends synchronized, one that ends without a frame start, one that ends on a mismatch, each accepted; a whole
number of frames; a faulted unit; a check that finds no loss; a check not due because FC = 0 after a frame. -/
theorem witness_PollConsequences :
    (PollAccepted one frameA start ∧ (pollSteps config one frameA start.dec).dec.sync = true ∧
      (pollSync (pollAppend one frameA start.dec)).buf.length % 17 = 0) ∧
    (PollAccepted one frameBad start ∧ (pollSteps config one frameBad start.dec).dec.sync = false) ∧
    (PollAccepted one frameBad (withDec (synced [] 1)) ∧
      (pollSteps config one frameBad (withDec (synced [] 1)).dec).dec.sync = false) ∧
    (PollAccepted one [0x00] (withDec (raiseFault .marker (synced [] 1))) ∧
      (withDec (raiseFault .marker (synced [] 1))).dec.fault = true) ∧
    (PollAccepted 0x3FDC5532617C1BD9 [] { withDec estimated with cfg := configThreshold } ∧
      pollSync (pollAppend 0x3FDC5532617C1BD9 [] estimated) = estimated ∧
      flt (discrepancyAt 0x3FDC5532617C1BD9) configThreshold.driftTol = true) ∧
    (PollAccepted one [0x00] (withDec (synced [] 0)) ∧ (synced [] 0).fc = 0 ∧ (synced [] 0).ec = true) :=
  ⟨⟨⟨by decide, by decide, by decide⟩, by decide +kernel, by decide⟩, ⟨⟨by decide, by decide, by decide⟩, by decide +kernel⟩,
   ⟨⟨by decide, by decide, by decide⟩, by decide +kernel⟩, ⟨⟨by decide, by decide, by decide⟩, rfl⟩,
   ⟨⟨by decide, by decide, by decide⟩, by decide, by decide +kernel⟩, ⟨⟨by decide, by decide, by decide⟩, rfl, rfl⟩⟩

/-- Both settings of FIRST_CALL_ERROR, and SAT both ways. -/
theorem witness_PidFirstCall :
    start.pid.pv = none ∧ isFinite 0x403E000000000000 = true ∧ isFinite 0x4039000000000000 = true ∧
    ({ start with cfg := { config with firstCallError := .keep }, pid := { PidState.reset with sat := true } } : State).pid.pv = none := by
  decide

/-- V3.10.1 call 2, and V3.10.4 "infinite error", where PE is infinite and nothing is a NaN. -/
theorem witness_PidUpdateFollowsTheRules :
    (updated.pid.pv = some 0x4039000000000000 ∧ isFinite 0x403E000000000000 = true ∧ isFinite 0x403A000000000000 = true ∧
      (pidTerms config updated.pid 0x403E000000000000 0x403A000000000000).anyNaN = false) ∧
    (pidTerms config { PidState.reset with pv := some 0 } 0x7FE1CCF385EBC8A0 0xFFE1CCF385EBC8A0).anyNaN = false := by
  decide +kernel

/-- V3.10.4: the NaN operand, and the NaN derivative after an infinite error, which the first update left in PE. -/
theorem witness_PidUpdateRefusals :
    let s : State := { start with pid := { PidState.reset with pv := some 0xFFE1CCF385EBC8A0, pe := 0x7FF0000000000000 } }
    (isFinite 0x7FF8000000000000 = false) ∧
    (isFinite 0x7FE1CCF385EBC8A0 = true ∧ isFinite 0xFFE1CCF385EBC8A0 = true ∧ s.pid.pv = some 0xFFE1CCF385EBC8A0 ∧
      isNaN (fdiv (fsub (fsub 0x7FE1CCF385EBC8A0 0xFFE1CCF385EBC8A0) s.pid.pe) s.cfg.dt) = true) := by decide +kernel

theorem witness_PidOutputStaysInTheUnitInterval :
    (∃ t, exec (.pidUpdate one 0) start = .next t) ∧ (next (exec (.pidUpdate one 0) updated)).isSome = true :=
  ⟨⟨_, rfl⟩, by decide +kernel⟩

/-- V3.10.1 call 3 sets SAT; SAT set stays. -/
theorem witness_SaturationFlagIsSticky :
    (Instr.pidUpdate 0x403E000000000000 0x4032000000000000 ≠ .pidReset ∧ updated.pid.sat = false ∧
      (next (exec (.pidUpdate 0x403E000000000000 0x4032000000000000) updated)).map (fun t => t.pid.sat) = some true) ∧
    ({ updated with pid := { updated.pid with sat := true } } : State).pid.sat = true ∧
    (updated.driveReset true).rst = true := by decide +kernel

theorem witness_UpdateReadsOnlyThePresenceOfPv :
    let s' : State := { updated with pid := { updated.pid with pv := some one, sat := true } }
    updated.cfg = s'.cfg ∧ updated.pid = { s'.pid with pv := some 0x4039000000000000, sat := updated.pid.sat } ∧
    s'.pid.pv = some one := by decide

/-- V3.10.3, call 4: the integral is 8. -/
theorem witness_HeldSetpointIsASteadyState :
    let s : State := { start with pid := { pv := some 0x403E000000000000, pe := 0, i := 0x4020000000000000, sat := true } }
    s.cfg.legal = true ∧ s.pid.pv = some 0x403E000000000000 ∧ s.pid.pe = 0x0000000000000000 ∧
    isFinite s.pid.i = true ∧ isFinite 0x403E000000000000 = true := ⟨witness_legal, by decide, by decide, by decide, by decide⟩

/-- The ends of the defined ranges, and a reserved number beside each. -/
theorem witness_ReadRegAnswersEveryNumber :
    (∀ r ∈ ([0x00, 0x05, 0x10, 0x13, 0x20, 0x24, 0x30, 0x35, 0xFF] : List Byte), registerDefined r) ∧
    (∀ r ∈ ([0x06, 0x0F, 0x14, 0x1F, 0x25, 0x2F, 0x36, 0xFE] : List Byte), ¬ registerDefined r) := by
  unfold registerDefined
  decide

theorem witness_ReadingRegistersIsHarmless :
    (∃ t, exec .pidReset updated = .next t) ∧ (∃ t, step { updated with cmd := [0xF0, 0x20] } = .next t) ∧
    (0x20 ≤ (0x20 : Byte).toNat ∧ (0x05 : Byte).toNat ≤ 0x05 ∧ 0x10 ≤ (0x10 : Byte).toNat ∧ (0x13 : Byte).toNat ≤ 0x13) :=
  ⟨⟨_, rfl⟩, ⟨_, rfl⟩, by decide⟩

/-- 95_test_vectors.md section 1.8: the value just below the period, the period, and the value just below twice the period. -/
theorem witness_IterationAndPositionAreExact :
    ramp.legal = true ∧ validElapsed 0x40AC1FFFFFFFFFFF = true ∧ validElapsed 0x40AC200000000000 = true ∧
    validElapsed 0x40BC1FFFFFFFFFFF = true ∧
    flt 0x40AC1FFFFFFFFFFF ramp.period = true ∧ fge 0x40AC200000000000 ramp.period = true ∧
    signedUnits 0x40BC1FFFFFFFFFFF < 2 * signedUnits ramp.period := by
  refine ⟨by decide +kernel, by decide, by decide, by decide, by decide, by decide, ?_⟩
  have h1 : signBit 0x40BC1FFFFFFFFFFF = false := by decide
  have h2 : signBit ramp.period = false := by decide
  have h3 : units 0x40BC1FFFFFFFFFFF < 2 * units ramp.period := by decide +kernel
  rw [signedUnits, signedUnits, h1, h2]
  generalize units 0x40BC1FFFFFFFFFFF = a at *
  generalize units ramp.period = b at *
  rw [if_neg (by decide), if_neg (by decide)]
  omega

theorem witness_StepTrajectoryTakesTheFirstBoundary : stairs.kind = .step ∧ stairs.waypoints ≠ [] := by decide

/-- A tick with the given chamber error and bytes, at 1.0. -/
def tickWith (chamberError : Bool) (bytes : List Byte) : TickInput :=
  { cancel := false, now := one, samples := [], chamberError := chamberError, lcrBytes := bytes }

/-- The reply of such a tick's polls at s. -/
def reply (x : TickInput) (s : State) : Option PollReply :=
  (runPolls x.now (pollChunks (x.lcrBytes.length / chunkMax) x.lcrBytes) s).map Prod.fst

/-- The reference record of a run that saw FA with another frequency. -/
def otherRecord : MeasurementRecord := decodeFrame config (frameA.set 3 0x00)

/-- A poll that succeeds, a refused one, one that reports a fault; a record that differs from the reference; the limit reached. -/
theorem witness_TickOutcomePrecedence :
    ((reply (tickWith true frameA) start).isSome = true ∧ (tickWith true frameA).chamberError = true) ∧
    (reply (tickWith false (frameA ++ [0x00])) { start with cfg := { config with bufCap := 17 } }).map PollReply.refused = some true ∧
    (reply (tickWith false frameBad) (withDec (synced [] 0))).map PollReply.fault = some true ∧
    ((reply (tickWith false frameA) start).map fun r => (r.refused, r.fault, checkRecords (some otherRecord) r.records)) =
      some (false, false, none) ∧
    ((reply (tickWith false frameA) start).map fun r => checkRecords none r.records) = some (some (some (decodeFrame config frameA))) ∧
    validElapsed (fsub one (LoopState.start one).runStart) = true ∧ 0 ≤ stairs.iteration (fsub one (LoopState.start one).runStart) := by
  decide +kernel

/-- Log 12: a READ_REG waiting on the command stream makes the tick outsideSpec, and nothing runs. -/
theorem test_busy_port_is_outside :
    tick stairs 1 (tickWith false frameA) { start with cmd := [0xF0, 0x00] } (LoopState.start one) = .outsideSpec := by decide

/-- A Step trajectory that holds 30.0. -/
def hold : Trajectory := { kind := .step, period := 0x40AC200000000000, waypoints := [(0x40AC200000000000, 0x403E000000000000)] }

/-- A tick with one chamber sample, at 1.0. -/
def sampleTick (sample : Binary64) : TickInput := { tickWith false [] with samples := [sample] }

/-- Calls 1 and 2 of V3.10.1, made by two ticks, and then a cancelled one: the ended run has written +0.0 and 0.75. -/
theorem test_run_keeps_every_write :
    (match runLoop hold 1 one [sampleTick 0x4039000000000000, sampleTick 0x403A000000000000,
        { tickWith false [] with cancel := true }] start with
     | .ended outcome _ host => some (outcome, host.writes)
     | .running _ _ _ => none
     | .outsideSpec => none) = some (.cancelled, [0x0000000000000000, 0x3FE8000000000000]) := by decide +kernel

/-- What PID_UPDATE answers at s for the setpoint 30.0, when it changes the PID unit and the response stream alone. -/
def updateAnswer (sample : Binary64) (s : State) : Option (List Byte) :=
  match next (exec (.pidUpdate 0x403E000000000000 sample) s) with
  | some t => if t = { s with pid := t.pid, resp := t.resp } then some t.resp else none
  | none => none

/-- A tick that gets past step 4, without samples, or with samples and a setpoint: its update is accepted on 25.0, with an
older sample before it, and refused on a NaN. -/
theorem witness_TickControlStep :
    let x := tickWith false frameA
    x.cancel = false ∧ x.chamberError = false ∧ x.samples = [] ∧
    ({ x with samples := [one, 0x4039000000000000] } : TickInput).samples = [one] ++ [0x4039000000000000] ∧
    validElapsed (fsub x.now one) = true ∧ hold.iteration (fsub x.now one) < 1 ∧
    hold.value (fsub x.now one) = some 0x403E000000000000 ∧
    ((runPolls x.now (pollChunks (x.lcrBytes.length / chunkMax) x.lcrBytes) start).map fun r =>
      (r.1.refused, r.1.fault, (checkRecords none r.1.records).isSome, portIdle r.2)) = some (false, false, true, true) ∧
    ((runPolls x.now (pollChunks (x.lcrBytes.length / chunkMax) x.lcrBytes) start).bind fun r =>
      updateAnswer 0x4039000000000000 r.2) = some (0x00 :: (word64Bytes 0x0000000000000000 ++ [0x04])) ∧
    ((runPolls x.now (pollChunks (x.lcrBytes.length / chunkMax) x.lcrBytes) start).bind fun r =>
      updateAnswer 0x7FF8000000000000 r.2) = some [Status.badOperand.code] := by
  decide +kernel

/-- A record that agrees with the reference, and one that does not. -/
theorem witness_ConfigurationCheckUsesTheFirstRecord :
    sameConfig (decodeFrame config frameA) (decodeFrame config frameA) = true ∧
    sameConfig (decodeFrame config frameA) otherRecord = false := by decide

theorem witness_FiveFramesGiveFiveMeasurements :
    start.PortIdle ∧ start.cfg.legal = true ∧ 85 ≤ start.cfg.bufCap ∧ (List.replicate 5 frameA).length = 5 ∧
    (∀ f ∈ List.replicate 5 frameA, ValidFrame f) ∧
    (∀ f ∈ List.replicate 5 frameA, ∀ g ∈ List.replicate 5 frameA,
      sameConfig (decodeFrame start.cfg f) (decodeFrame start.cfg g) = true) ∧
    isFinite one = true ∧ validElapsed (fsub one one) = true ∧ ramp.iteration (fsub one one) < 1 := by
  refine ⟨⟨rfl, rfl, rfl⟩, witness_legal, by decide, by decide, ?_, ?_, by decide, by decide +kernel, by decide +kernel⟩
  · intro f hf
    rw [List.eq_of_mem_replicate hf]
    exact ⟨by decide, by decide⟩
  · intro f hf g hg
    rw [List.eq_of_mem_replicate hf, List.eq_of_mem_replicate hg]
    decide

end Sys2Proof.Tests
end

namespace Sys2Proof.Machine

/-! SUPPORT. The proofs for 00_scope.md: binary64 patterns by kind, the rounded results of finite operands, the results of
special operands, and the comparisons. -/

/-! ### Kinds of pattern -/

/-- A pattern is a NaN, an infinity or a finite value, and only one of them. -/
theorem kind_cases (x : Binary64) :
    (isNaN x = true ∧ isInf x = false ∧ isFinite x = false) ∨
    (isNaN x = false ∧ isInf x = true ∧ isFinite x = false) ∨
    (isNaN x = false ∧ isInf x = false ∧ isFinite x = true) := by
  simp only [← Bool.not_eq_true, isNaN_iff, isInf_iff, isFinite_iff]
  omega

theorem isNaN_iff_not_isFinite_not_isInf (x : Binary64) :
    isNaN x = true ↔ isFinite x = false ∧ ¬ isInf x = true := by
  obtain ⟨hn, hi, hf⟩ | ⟨hn, hi, hf⟩ | ⟨hn, hi, hf⟩ := kind_cases x <;> simp [hn, hi, hf]

theorem isNaN_of_isInf {x : Binary64} (h : isInf x = true) : isNaN x = false := by
  rw [isInf_iff] at h
  rw [← Bool.not_eq_true, isNaN_iff]
  omega

theorem isFinite_of_not_isNaN_not_isInf {x : Binary64} (hn : ¬ isNaN x = true) (hi : ¬ isInf x = true) :
    isFinite x = true := by
  rw [isNaN_iff] at hn
  rw [isInf_iff] at hi
  rw [isFinite_iff]
  omega

/-- A pattern is one of the two with its magnitude bits. -/
theorem eq_withSign_of_magnitude {x : Binary64} {m : Nat} (h : magnitude x = m) :
    x = withSign false m ∨ x = withSign true m := by
  have hx := eq_withSign x
  rw [h] at hx
  cases hs : signBit x <;> rw [hs] at hx
  · exact .inl hx
  · exact .inr hx

theorem isInf_iff_eq (x : Binary64) : isInf x = true ↔ x = 0x7FF0000000000000 ∨ x = 0xFFF0000000000000 := by
  constructor
  · exact fun h => eq_withSign_of_magnitude ((isInf_iff x).mp h)
  · rintro (rfl | rfl) <;> decide

theorem units_eq_zero_iff_magnitude (x : Binary64) : units x = 0 ↔ magnitude x = 0 := by
  rw [units_eq, ← unitsOf_zero]
  exact unitsOf_strictMono.injective.eq_iff

theorem units_eq_zero_iff_eq (x : Binary64) : units x = 0 ↔ x = 0x0000000000000000 ∨ x = 0x8000000000000000 := by
  constructor
  · exact fun h => eq_withSign_of_magnitude ((units_eq_zero_iff_magnitude x).mp h)
  · rintro (rfl | rfl) <;> decide

theorem eq_negZero {x : Binary64} (hs : signBit x = true) (hu : units x = 0) : x = 0x8000000000000000 := by
  obtain rfl | rfl := (units_eq_zero_iff_eq x).mp hu
  · cases hs
  · rfl

theorem isFinite_of_units_eq_zero {x : Binary64} (h : units x = 0) : isFinite x = true := by
  rw [isFinite_iff, (units_eq_zero_iff_magnitude x).mp h]
  decide

theorem units_ne_zero_of_isInf {x : Binary64} (h : isInf x = true) : units x ≠ 0 := fun h0 => by
  rw [isInf_of_isFinite (isFinite_of_units_eq_zero h0)] at h
  cases h

/-- Two infinities differ exactly in their signs. -/
theorem ne_iff_signBit_ne_of_isInf {x y : Binary64} (hx : isInf x = true) (hy : isInf y = true) :
    x ≠ y ↔ signBit x ≠ signBit y := by
  refine not_congr ⟨congrArg signBit, fun h => ?_⟩
  rw [eq_withSign x, eq_withSign y, h, (isInf_iff x).mp hx, (isInf_iff y).mp hy]

theorem isInf_withSign_infMagnitude (neg : Bool) : isInf (withSign neg infMagnitude) = true := by
  cases neg <;> decide

theorem isNaN_withSign_infMagnitude (neg : Bool) : isNaN (withSign neg infMagnitude) = false := by
  cases neg <;> decide

theorem isNaN_withSign_zero (neg : Bool) : isNaN (withSign neg 0) = false :=
  isNaN_of_isFinite (isFinite_withSign_zero neg)

theorem isNaN_quietNaN : isNaN quietNaN = true := by decide

theorem signedUnits_eq_signed (x : Binary64) : signedUnits x = signed (signBit x) (units x) := rfl

/-! ### Rounded results of finite operands -/

/-- By the distance `dist` from an exact result, r is at least as near as z, and its last bit is 0 where another value z is
equally near. -/
def NearestEven (dist : Binary64 → Nat) (r z : Binary64) : Prop :=
  dist r ≤ dist z ∧ (dist r = dist z → signedUnits z ≠ signedUnits r → r.getLsbD 0 = false)

theorem nearestEven_roundUnits (neg : Bool) (num den : Nat) (z : Binary64) (h : 0 < den)
    (hf : isFinite (roundUnits neg num den) = true) :
    NearestEven (fun v => (signed neg num - den * signedUnits v).natAbs) (roundUnits neg num den) z :=
  roundUnits_nearest neg num den z h hf

theorem isFinite_fadd_iff {x y : Binary64} (hx : isFinite x = true) (hy : isFinite y = true) :
    isFinite (fadd x y) = true ↔ (signedUnits x + signedUnits y).natAbs < (2 ^ 54 - 1) * 2 ^ 2044 := by
  rw [fadd_of_finite hx hy]
  obtain ⟨h0, b, hb⟩ | ⟨-, b, n, hb, -, hn⟩ := addFinite_cases x y
  · simp only [hb, h0, isFinite_withSign_zero, Int.natAbs_zero, true_iff]
    exact Nat.mul_pos (by norm_num) (by positivity)
  · rw [hb, ← hn, isFinite_roundUnits_one_iff]

/-- A finite sum is a nearest finite value, and the even one of two (00_scope.md R20). -/
theorem nearestEven_fadd {x y : Binary64} (hx : isFinite x = true) (hy : isFinite y = true) (z : Binary64)
    (hf : isFinite (fadd x y) = true) :
    NearestEven (fun v => (signedUnits x + signedUnits y - signedUnits v).natAbs) (fadd x y) z := by
  rw [fadd_of_finite hx hy] at hf ⊢
  obtain ⟨h0, b, hb⟩ | ⟨-, b, n, hb, hs, -⟩ := addFinite_cases x y
  · rw [h0, hb, NearestEven, signedUnits_withSign_zero]
    omega
  · rw [hb] at hf ⊢
    simpa only [hs, Nat.cast_one, one_mul] using nearestEven_roundUnits b n 1 z one_pos hf

theorem signed_mul_units (x y : Binary64) :
    signed (signBit x != signBit y) (units x * units y) = signedUnits x * signedUnits y := by
  rw [signedUnits_eq_signed, signedUnits_eq_signed]
  cases signBit x <;> cases signBit y <;> simp [signed]

theorem natAbs_signedUnits_mul (x y : Binary64) : (signedUnits x * signedUnits y).natAbs = units x * units y := by
  rw [Int.natAbs_mul, natAbs_signedUnits, natAbs_signedUnits]

theorem isFinite_fmul_iff {x y : Binary64} (hx : isFinite x = true) (hy : isFinite y = true) :
    isFinite (fmul x y) = true ↔
      (signedUnits x * signedUnits y).natAbs < unitsPerOne * ((2 ^ 54 - 1) * 2 ^ 2044) := by
  rw [fmul_of_finite hx hy, isFinite_roundUnits_iff_lt _ _ _ unitsPerOne_pos, natAbs_signedUnits_mul]

/-- A finite product is a nearest finite value, and the even one of two (00_scope.md R20). -/
theorem nearestEven_fmul {x y : Binary64} (hx : isFinite x = true) (hy : isFinite y = true) (z : Binary64)
    (hf : isFinite (fmul x y) = true) :
    NearestEven (fun v => (signedUnits x * signedUnits y - unitsPerOne * signedUnits v).natAbs) (fmul x y) z := by
  rw [fmul_of_finite hx hy] at hf ⊢
  rw [← signed_mul_units]
  exact nearestEven_roundUnits _ _ _ z unitsPerOne_pos hf

/-- Taking the sign of the divisor y out of a distance from the dividend. -/
theorem natAbs_dividend_sub (x y : Binary64) (n : Nat) (v : Int) :
    (signedUnits x * n - signedUnits y * v).natAbs =
      (signed (signBit x != signBit y) (units x * n) - units y * v).natAbs := by
  have hsign : (signed (signBit y) 1).natAbs = 1 := by cases signBit y <;> rfl
  have hfactor : signedUnits x * n - signedUnits y * v =
      signed (signBit y) 1 * (signed (signBit x != signBit y) (units x * n) - units y * v) := by
    rw [signedUnits_eq_signed x, signedUnits_eq_signed y]
    cases signBit x <;> cases signBit y <;> simp [signed] <;> ring
  rw [hfactor, Int.natAbs_mul, hsign, one_mul]

theorem isFinite_fdiv_iff {x y : Binary64} (hx : isFinite x = true) (hy : isFinite y = true) (h : units y ≠ 0) :
    isFinite (fdiv x y) = true ↔
      (signedUnits x * unitsPerOne).natAbs < units y * ((2 ^ 54 - 1) * 2 ^ 2044) := by
  rw [fdiv_of_finite hx hy h, isFinite_roundUnits_iff_lt _ _ _ (Nat.pos_of_ne_zero h), Int.natAbs_mul,
    natAbs_signedUnits, Int.natAbs_natCast]

/-- A finite quotient is a nearest finite value, and the even one of two (00_scope.md R20). -/
theorem nearestEven_fdiv {x y : Binary64} (hx : isFinite x = true) (hy : isFinite y = true) (h : units y ≠ 0)
    (z : Binary64) (hf : isFinite (fdiv x y) = true) :
    NearestEven (fun v => (signedUnits x * unitsPerOne - signedUnits y * signedUnits v).natAbs) (fdiv x y) z := by
  rw [fdiv_of_finite hx hy h] at hf ⊢
  simp only [natAbs_dividend_sub]
  exact nearestEven_roundUnits _ _ _ z (Nat.pos_of_ne_zero h) hf

/-- What a decimal literal num / den denotes is a nearest binary64 value to it (00_scope.md R20). -/
theorem nearest_le_natAbs_sub {num den : Nat} {c : Binary64} (hc : nearest false num den = c)
    (hf : isFinite c = true) (h : 0 < den) (z : Binary64) :
    (den * signedUnits c - num * unitsPerOne).natAbs ≤ (den * signedUnits z - num * unitsPerOne).natAbs := by
  subst hc
  have hn := (roundUnits_nearest false (num * unitsPerOne) den z h hf).1
  have hs : signed false (num * unitsPerOne) = (num : Int) * unitsPerOne := Nat.cast_mul _ _
  rwa [hs, ← Int.natAbs_neg, neg_sub, ← Int.natAbs_neg (_ - _ * signedUnits z), neg_sub] at hn

/-! ### Special operands -/

theorem fadd_of_isNaN {x y : Binary64} (h : isNaN x = true ∨ isNaN y = true) : fadd x y = quietNaN :=
  if_pos ((Bool.or_eq_true _ _).mpr h)

theorem fadd_of_isInf_left {x y : Binary64} (hx : isInf x = true) (hy : isNaN y = false) :
    fadd x y = if isInf y && signBit x != signBit y then quietNaN else x := by
  simp [fadd, isNaN_of_isInf hx, hy, hx]

theorem fadd_of_isInf_right {x y : Binary64} (hx : isFinite x = true) (hy : isInf y = true) : fadd x y = y := by
  simp [fadd, isNaN_of_isFinite hx, isInf_of_isFinite hx, isNaN_of_isInf hy, hy]

theorem fmul_of_isNaN {x y : Binary64} (h : isNaN x = true ∨ isNaN y = true) : fmul x y = quietNaN :=
  if_pos ((Bool.or_eq_true _ _).mpr h)

theorem fmul_of_isInf {x y : Binary64} (hx : isNaN x = false) (hy : isNaN y = false)
    (h : isInf x = true ∨ isInf y = true) :
    fmul x y = if units x = 0 ∨ units y = 0 then quietNaN else withSign (signBit x != signBit y) infMagnitude := by
  have hzero : ∀ v : Binary64, (isFinite v && units v == 0) = true ↔ units v = 0 := fun v => by
    rw [Bool.and_eq_true, beq_iff_eq]
    exact ⟨And.right, fun hv => ⟨isFinite_of_units_eq_zero hv, hv⟩⟩
  rw [← Bool.or_eq_true] at h
  rw [fmul, hx, hy, Bool.or_self, if_neg Bool.false_ne_true, if_pos h]
  simp only [Bool.or_eq_true, hzero]

theorem fdiv_of_isNaN {x y : Binary64} (h : isNaN x = true ∨ isNaN y = true) : fdiv x y = quietNaN :=
  if_pos ((Bool.or_eq_true _ _).mpr h)

theorem fdiv_of_isInf_left {x y : Binary64} (hx : isInf x = true) (hy : isNaN y = false) :
    fdiv x y = if isInf y then quietNaN else withSign (signBit x != signBit y) infMagnitude := by
  simp [fdiv, isNaN_of_isInf hx, hy, hx]

theorem fdiv_of_isInf_right {x y : Binary64} (hx : isFinite x = true) (hy : isInf y = true) :
    fdiv x y = withSign (signBit x != signBit y) 0 := by
  simp [fdiv, isNaN_of_isFinite hx, isInf_of_isFinite hx, isNaN_of_isInf hy, hy]

theorem fdiv_of_zero_divisor {x y : Binary64} (hx : isFinite x = true) (hy : units y = 0) :
    fdiv x y = if units x = 0 then quietNaN else withSign (signBit x != signBit y) infMagnitude := by
  have hf := isFinite_of_units_eq_zero hy
  simp [fdiv, isNaN_of_isFinite hx, isInf_of_isFinite hx, isNaN_of_isFinite hf, isInf_of_isFinite hf, hy]

/-! ### Which results are NaN or infinite, and their signs -/

theorem isNaN_fadd_iff (x y : Binary64) :
    isNaN (fadd x y) = true ↔ isNaN x = true ∨ isNaN y = true ∨ (isInf x = true ∧ isInf y = true ∧ x ≠ y) := by
  obtain ⟨xn, -, -⟩ | ⟨xn, xi, -⟩ | ⟨xn, xi, xf⟩ := kind_cases x
  · simp [fadd_of_isNaN (.inl xn), isNaN_quietNaN, xn]
  · cases yn : isNaN y with
    | true => simp [fadd_of_isNaN (.inr yn), isNaN_quietNaN]
    | false =>
      rw [fadd_of_isInf_left xi yn]
      cases yi : isInf y with
      | false => simp [xn]
      | true =>
        rw [ne_iff_signBit_ne_of_isInf xi yi]
        cases signBit x <;> cases signBit y <;> simp [xn, xi, isNaN_quietNaN]
  · cases yn : isNaN y with
    | true => simp [fadd_of_isNaN (.inr yn), isNaN_quietNaN]
    | false => simp [isNaN_fadd xf yn, xn, xi]

theorem fadd_eq_left_of_isInf {x y : Binary64} (hx : isInf x = true) (h : isNaN (fadd x y) = false) : fadd x y = x := by
  have hn := mt (isNaN_fadd_iff x y).mpr (by simp [h])
  simp only [not_or, Bool.not_eq_true] at hn
  obtain ⟨-, yn, -⟩ := hn
  have e := fadd_of_isInf_left hx yn
  split at e
  · rw [e, isNaN_quietNaN] at h
    cases h
  · exact e

theorem fadd_eq_right_of_isInf {x y : Binary64} (hy : isInf y = true) (h : isNaN (fadd x y) = false) : fadd x y = y := by
  have hn := mt (isNaN_fadd_iff x y).mpr (by simp [h])
  simp only [not_or, not_and, not_not, Bool.not_eq_true] at hn
  obtain ⟨xn, -, heq⟩ := hn
  obtain ⟨xn', -, -⟩ | ⟨-, xi, -⟩ | ⟨-, -, xf⟩ := kind_cases x
  · rw [xn] at xn'
    cases xn'
  · rw [fadd_eq_left_of_isInf xi h, heq xi hy]
  · exact fadd_of_isInf_right xf hy

/-- An exact zero sum is -0.0 only when both operands are. -/
theorem fadd_of_sum_eq_zero {x y : Binary64} (hx : isFinite x = true) (hy : isFinite y = true)
    (h : signedUnits x + signedUnits y = 0) :
    fadd x y = if x = 0x8000000000000000 ∧ y = 0x8000000000000000 then 0x8000000000000000 else 0x0000000000000000 := by
  have e : fadd x y = withSign (signBit x && signBit y) 0 := by
    rw [fadd_of_finite hx hy, addFinite]
    exact if_pos h
  rw [e]
  by_cases hs : (signBit x && signBit y) = true
  · obtain ⟨sx, sy⟩ := (Bool.and_eq_true _ _).mp hs
    rw [signedUnits_eq_signed, signedUnits_eq_signed, sx, sy] at h
    simp only [signed, if_true] at h
    rw [hs, if_pos ⟨eq_negZero sx (by omega), eq_negZero sy (by omega)⟩]
    rfl
  · rw [if_neg, Bool.eq_false_of_not_eq_true hs]
    · rfl
    · rintro ⟨rfl, rfl⟩
      exact hs rfl

theorem signBit_fadd_of_sum_ne_zero {x y : Binary64} (hx : isFinite x = true) (hy : isFinite y = true)
    (h : signedUnits x + signedUnits y ≠ 0) : signBit (fadd x y) = decide (signedUnits x + signedUnits y < 0) := by
  have e : fadd x y =
      roundUnits (decide (signedUnits x + signedUnits y < 0)) (signedUnits x + signedUnits y).natAbs 1 := by
    rw [fadd_of_finite hx hy, addFinite]
    exact if_neg h
  rw [e, signBit_roundUnits]

/-- The products that are no number: of a NaN, and of an infinity and a zero. -/
def MulInvalid (x y : Binary64) : Prop :=
  isNaN x = true ∨ isNaN y = true ∨ (isInf x = true ∧ units y = 0) ∨ (units x = 0 ∧ isInf y = true)

/-- The quotients that are no number: of a NaN, of two infinities and of two zeros. -/
def DivInvalid (x y : Binary64) : Prop :=
  isNaN x = true ∨ isNaN y = true ∨ (isInf x = true ∧ isInf y = true) ∨ (units x = 0 ∧ units y = 0)

/-- The three ways a product goes. -/
theorem fmul_cases (x y : Binary64) :
    (MulInvalid x y ∧ fmul x y = quietNaN) ∨
    (¬ MulInvalid x y ∧ fmul x y = withSign (signBit x != signBit y) infMagnitude) ∨
    (¬ MulInvalid x y ∧ isInf x = false ∧ isInf y = false ∧
      fmul x y = roundUnits (signBit x != signBit y) (units x * units y) unitsPerOne) := by
  by_cases hn : isNaN x = true ∨ isNaN y = true
  · exact .inl ⟨hn.elim .inl (.inr ∘ .inl), fmul_of_isNaN hn⟩
  obtain ⟨xn, yn⟩ := not_or.mp hn
  by_cases hi : isInf x = true ∨ isInf y = true
  · have e := fmul_of_isInf (Bool.eq_false_of_not_eq_true xn) (Bool.eq_false_of_not_eq_true yn) hi
    by_cases hz : units x = 0 ∨ units y = 0
    · refine .inl ⟨.inr (.inr ?_), e.trans (if_pos hz)⟩
      rcases hi with hi | hi
      · exact .inl ⟨hi, hz.resolve_left (units_ne_zero_of_isInf hi)⟩
      · exact .inr ⟨hz.resolve_right (units_ne_zero_of_isInf hi), hi⟩
    · refine .inr (.inl ⟨?_, e.trans (if_neg hz)⟩)
      unfold MulInvalid
      tauto
  · obtain ⟨xi, yi⟩ := not_or.mp hi
    refine .inr (.inr ⟨?_, Bool.eq_false_of_not_eq_true xi, Bool.eq_false_of_not_eq_true yi, fmul_of_finite
      (isFinite_of_not_isNaN_not_isInf xn xi) (isFinite_of_not_isNaN_not_isInf yn yi)⟩)
    unfold MulInvalid
    tauto

/-- The four ways a quotient goes. -/
theorem fdiv_cases (x y : Binary64) :
    (DivInvalid x y ∧ fdiv x y = quietNaN) ∨
    (¬ DivInvalid x y ∧ isInf y = false ∧ fdiv x y = withSign (signBit x != signBit y) infMagnitude) ∨
    (¬ DivInvalid x y ∧ isInf x = false ∧ isInf y = true ∧ fdiv x y = withSign (signBit x != signBit y) 0) ∨
    (¬ DivInvalid x y ∧ isInf x = false ∧ isInf y = false ∧ units y ≠ 0 ∧
      fdiv x y = roundUnits (signBit x != signBit y) (units x * unitsPerOne) (units y)) := by
  by_cases hn : isNaN x = true ∨ isNaN y = true
  · exact .inl ⟨hn.elim .inl (.inr ∘ .inl), fdiv_of_isNaN hn⟩
  obtain ⟨xn, yn⟩ := not_or.mp hn
  have hinvalid : DivInvalid x y ↔ (isInf x = true ∧ isInf y = true) ∨ (units x = 0 ∧ units y = 0) := by
    unfold DivInvalid
    tauto
  rw [hinvalid]
  by_cases xi : isInf x = true
  · have e := fdiv_of_isInf_left xi (Bool.eq_false_of_not_eq_true yn)
    have hx := units_ne_zero_of_isInf xi
    by_cases yi : isInf y = true
    · exact .inl ⟨.inl ⟨xi, yi⟩, e.trans (if_pos yi)⟩
    · exact .inr (.inl ⟨by tauto, Bool.eq_false_of_not_eq_true yi, e.trans (if_neg yi)⟩)
  have xf := isFinite_of_not_isNaN_not_isInf xn xi
  by_cases yi : isInf y = true
  · have hy := units_ne_zero_of_isInf yi
    exact .inr (.inr (.inl ⟨by tauto, Bool.eq_false_of_not_eq_true xi, yi, fdiv_of_isInf_right xf yi⟩))
  have yi' := Bool.eq_false_of_not_eq_true yi
  by_cases hy : units y = 0
  · have e := fdiv_of_zero_divisor xf hy
    by_cases hx : units x = 0
    · exact .inl ⟨.inr ⟨hx, hy⟩, e.trans (if_pos hx)⟩
    · exact .inr (.inl ⟨by tauto, yi', e.trans (if_neg hx)⟩)
  · exact .inr (.inr (.inr ⟨by tauto, Bool.eq_false_of_not_eq_true xi, yi', hy,
      fdiv_of_finite xf (isFinite_of_not_isNaN_not_isInf yn yi) hy⟩))

theorem isNaN_fmul_iff (x y : Binary64) : isNaN (fmul x y) = true ↔ MulInvalid x y := by
  obtain ⟨h, e⟩ | ⟨h, e⟩ | ⟨h, -, -, e⟩ := fmul_cases x y
  · simp [h, e, isNaN_quietNaN]
  · simp [h, e, isNaN_withSign_infMagnitude]
  · simp [h, e, isNaN_roundUnits]

theorem signBit_fmul {x y : Binary64} (h : isNaN (fmul x y) = false) :
    signBit (fmul x y) = (signBit x != signBit y) := by
  obtain ⟨-, e⟩ | ⟨-, e⟩ | ⟨-, -, -, e⟩ := fmul_cases x y
  · rw [e, isNaN_quietNaN] at h
    cases h
  · rw [e, signBit_withSign _ (by decide)]
  · rw [e, signBit_roundUnits]

theorem isInf_fmul {x y : Binary64} (hi : isInf x = true ∨ isInf y = true) (h : isNaN (fmul x y) = false) :
    isInf (fmul x y) = true := by
  obtain ⟨-, e⟩ | ⟨-, e⟩ | ⟨-, xi, yi, -⟩ := fmul_cases x y
  · rw [e, isNaN_quietNaN] at h
    cases h
  · rw [e, isInf_withSign_infMagnitude]
  · simp [xi, yi] at hi

theorem isNaN_fdiv_iff (x y : Binary64) : isNaN (fdiv x y) = true ↔ DivInvalid x y := by
  obtain ⟨h, e⟩ | ⟨h, -, e⟩ | ⟨h, -, -, e⟩ | ⟨h, -, -, -, e⟩ := fdiv_cases x y
  · simp [h, e, isNaN_quietNaN]
  · simp [h, e, isNaN_withSign_infMagnitude]
  · simp [h, e, isNaN_withSign_zero]
  · simp [h, e, isNaN_roundUnits]

theorem signBit_fdiv {x y : Binary64} (h : isNaN (fdiv x y) = false) :
    signBit (fdiv x y) = (signBit x != signBit y) := by
  obtain ⟨-, e⟩ | ⟨-, -, e⟩ | ⟨-, -, -, e⟩ | ⟨-, -, -, -, e⟩ := fdiv_cases x y
  · rw [e, isNaN_quietNaN] at h
    cases h
  · rw [e, signBit_withSign _ (by decide)]
  · rw [e, signBit_withSign _ (by decide)]
  · rw [e, signBit_roundUnits]

theorem isInf_fdiv {x y : Binary64} (hi : isInf x = true ∨ units y = 0) (h : isNaN (fdiv x y) = false) :
    isInf (fdiv x y) = true := by
  obtain ⟨-, e⟩ | ⟨-, -, e⟩ | ⟨-, xi, yi, -⟩ | ⟨-, xi, -, hy, -⟩ := fdiv_cases x y
  · rw [e, isNaN_quietNaN] at h
    cases h
  · rw [e, isInf_withSign_infMagnitude]
  · exact absurd hi (by simp [xi, units_ne_zero_of_isInf yi])
  · exact absurd hi (by simp [xi, hy])

theorem units_fdiv_of_isInf_right {x y : Binary64} (hx : isFinite x = true) (hy : isInf y = true) :
    units (fdiv x y) = 0 := by
  rw [fdiv_of_isInf_right hx hy, units_eq_zero_iff_magnitude, magnitude_withSign _ (by decide)]

/-! ### Comparisons and abs -/

/-- The value of a pattern that is not NaN, with each infinity beyond every finite value. -/
def extendedValue (x : Binary64) : WithBot (WithTop Int) :=
  if x = 0x7FF0000000000000 then ⊤
  else if x = 0xFFF0000000000000 then ⊥
  else ((signedUnits x : WithTop Int) : WithBot (WithTop Int))

theorem extendedValue_of_isFinite {x : Binary64} (h : isFinite x = true) :
    extendedValue x = ((signedUnits x : WithTop Int) : WithBot (WithTop Int)) := by
  have hi : ¬ (x = 0x7FF0000000000000 ∨ x = 0xFFF0000000000000) := by
    rw [← isInf_iff_eq, isInf_of_isFinite h]
    decide
  obtain ⟨hp, hm⟩ := not_or.mp hi
  rw [extendedValue, if_neg hp, if_neg hm]

theorem natAbs_signedUnits_lt_of_isFinite {x : Binary64} (h : isFinite x = true) :
    (signedUnits x).natAbs < unitsOf infMagnitude := by
  rw [natAbs_signedUnits, units_eq]
  exact unitsOf_strictMono ((isFinite_iff x).mp h)

theorem signedUnits_of_isInf {x : Binary64} (h : isInf x = true) :
    signedUnits x = signed (signBit x) (unitsOf infMagnitude) := by
  rw [signedUnits_eq_signed, units_eq, (isInf_iff x).mp h]

/-- A pattern that is not NaN is finite, or an infinity, whose place beyond the finite values its magnitude bits keep. -/
theorem extendedValue_cases {x : Binary64} (h : isNaN x = false) :
    (extendedValue x = ⊤ ∧ signedUnits x = unitsOf infMagnitude) ∨
    (extendedValue x = ⊥ ∧ signedUnits x = -(unitsOf infMagnitude : Int)) ∨
    (extendedValue x = ((signedUnits x : WithTop Int) : WithBot (WithTop Int)) ∧
      (signedUnits x).natAbs < unitsOf infMagnitude) := by
  obtain ⟨hn, -, -⟩ | ⟨-, hi, -⟩ | ⟨-, -, hf⟩ := kind_cases x
  · rw [h] at hn
    cases hn
  · have hv := signedUnits_of_isInf hi
    obtain rfl | rfl := (isInf_iff_eq x).mp hi
    · exact .inl ⟨rfl, hv⟩
    · exact .inr (.inl ⟨rfl, hv⟩)
  · exact .inr (.inr ⟨extendedValue_of_isFinite hf, natAbs_signedUnits_lt_of_isFinite hf⟩)

theorem extendedValue_lt_iff {x y : Binary64} (hx : isNaN x = false) (hy : isNaN y = false) :
    extendedValue x < extendedValue y ↔ signedUnits x < signedUnits y := by
  have hpos : 0 < unitsOf infMagnitude := unitsOf_strictMono (by decide : 0 < infMagnitude)
  have hcoe : ∀ a b : Int, ((a : WithTop Int) : WithBot (WithTop Int)) < (b : WithTop Int) ↔ a < b := fun a b => by
    rw [WithBot.coe_lt_coe, WithTop.coe_lt_coe]
  have htop : ∀ a : Int, ((a : WithTop Int) : WithBot (WithTop Int)) < ⊤ := fun a =>
    WithBot.coe_lt_coe.mpr (WithTop.coe_lt_top a)
  have hbot : ∀ a : Int, (⊥ : WithBot (WithTop Int)) < (a : WithTop Int) := fun a => WithBot.bot_lt_coe _
  obtain ⟨ex, vx⟩ | ⟨ex, vx⟩ | ⟨ex, vx⟩ := extendedValue_cases hx <;>
    obtain ⟨ey, vy⟩ | ⟨ey, vy⟩ | ⟨ey, vy⟩ := extendedValue_cases hy <;> rw [ex, ey]
  case inr.inr.inr.inr => exact hcoe _ _
  all_goals
    simp only [lt_irrefl, not_top_lt, not_lt_bot, bot_lt_top, htop, hbot, true_iff, false_iff]
    generalize unitsOf infMagnitude = top at *
    omega

theorem extendedValue_le_iff {x y : Binary64} (hx : isNaN x = false) (hy : isNaN y = false) :
    extendedValue x ≤ extendedValue y ↔ signedUnits x ≤ signedUnits y := by
  rw [← not_lt, extendedValue_lt_iff hy hx, not_lt]

theorem getLsbD_fabs (x : Binary64) (k : Nat) : (fabs x).getLsbD k = (x.getLsbD k && decide (k ≠ 63)) := by
  have hmask : (0x7FFFFFFFFFFFFFFF : Binary64).getLsbD k = decide (k < 63) := Nat.testBit_two_pow_sub_one 63 k
  rw [fabs, BitVec.getLsbD_and, hmask]
  by_cases hk : k < 64
  · congr 2
    apply propext
    omega
  · rw [BitVec.getLsbD_of_ge x k (by omega), Bool.false_and, Bool.false_and]

/-! ### The statements -/

/-- The literals 0.0177, 0.5024 and 0.3 denote these patterns (00_scope.md R10). -/
theorem nearest_default_literals :
    nearest false 177 10000 = 0x3F921FF2E48E8A72 ∧ nearest false 5024 10000 = 0x3FE013A92A305532 ∧
    nearest false 3 10 = 0x3FD3333333333333 := by
  decide +kernel

/-- 5.0 and 10.0 are exact (00_scope.md R10, R12). -/
theorem signedUnits_default_timeout_and_limit :
    signedUnits 0x4014000000000000 = 5 * unitsPerOne ∧ signedUnits 0x4024000000000000 = 10 * unitsPerOne := by
  decide +kernel

/-- Settles O21: each default is what its literal denotes, and what a literal denotes is nearest to it. -/
theorem defaultConstantsAreNearestToTheLiterals : Obligations.DefaultConstantsAreNearestToTheLiterals := by
  intro kp ki kd dt
  obtain ⟨hbyte, hframe, hdrift⟩ := nearest_default_literals
  obtain ⟨hstale, hwindup⟩ := signedUnits_default_timeout_and_limit
  refine ⟨rfl, rfl, rfl, rfl, hstale, hwindup, fun z _ => ⟨?_, ?_, ?_⟩⟩
  · exact nearest_le_natAbs_sub hbyte (by decide) (by norm_num) z
  · exact nearest_le_natAbs_sub hframe (by decide) (by norm_num) z
  · exact nearest_le_natAbs_sub hdrift (by decide) (by norm_num) z

/-- Settles O22: a difference is the sum with the opposite, and a sum is one rounding of the exact sum. -/
theorem additionAndSubtractionRoundToNearestEven : Obligations.AdditionAndSubtractionRoundToNearestEven := by
  intro x y hx hy
  have hy' : isFinite (fneg y) = true := by rw [isFinite_fneg, hy]
  have hsub : signedUnits x - signedUnits y = signedUnits x + signedUnits (fneg y) := by
    rw [signedUnits_fneg, sub_eq_add_neg]
  rw [hsub]
  exact ⟨isFinite_fadd_iff hx hy, isFinite_fadd_iff hx hy',
    fun z _ => ⟨nearestEven_fadd hx hy z, nearestEven_fadd hx hy' z⟩⟩

/-- Settles O23: a product is one rounding of the exact product. -/
theorem multiplicationRoundsToNearestEven : Obligations.MultiplicationRoundsToNearestEven := by
  intro x y hx hy
  exact ⟨isFinite_fmul_iff hx hy, fun z _ => nearestEven_fmul hx hy z⟩

/-- Settles O24: a quotient is one rounding of the exact quotient. -/
theorem divisionRoundsToNearestEven : Obligations.DivisionRoundsToNearestEven := by
  intro x y hx hy h
  exact ⟨isFinite_fdiv_iff hx hy h, fun z _ => nearestEven_fdiv hx hy h z⟩

/-- Settles O25: the order of the extended values is the order of the patterns' whole numbers of units. -/
theorem comparisonsCompareValues : Obligations.ComparisonsCompareValues := by
  refine ⟨fun x y hx hy => ⟨?_, ?_, ?_, ?_⟩, fun x y h => ?_, getLsbD_fabs,
    fun x hx => ⟨by rw [isFinite_fabs, hx], signedUnits_fabs x⟩⟩
  · exact (flt_iff hx hy).trans (extendedValue_lt_iff hx hy).symm
  · exact (flt_iff hy hx).trans (extendedValue_lt_iff hy hx).symm
  · exact (fle_iff hx hy).trans (extendedValue_le_iff hx hy).symm
  · exact (fle_iff hy hx).trans (extendedValue_le_iff hy hx).symm
  · exact ⟨flt_of_isNaN h, flt_of_isNaN h.symm, fle_of_isNaN h, fle_of_isNaN h.symm⟩

/-- Settles O59: the kinds of the operands give the kind and the sign of the result. -/
theorem specialOperandsAndResultSigns : Obligations.SpecialOperandsAndResultSigns := by
  unfold Obligations.SpecialOperandsAndResultSigns
  simp only [← isInf_iff_eq, ← units_eq_zero_iff_eq]
  exact ⟨isNaN_iff_not_isFinite_not_isInf, fun x y =>
    ⟨isNaN_fadd_iff x y, fadd_eq_left_of_isInf, fadd_eq_right_of_isInf, fadd_of_sum_eq_zero,
      signBit_fadd_of_sum_ne_zero, rfl,
      isNaN_fmul_iff x y, signBit_fmul, isInf_fmul,
      isNaN_fdiv_iff x y, signBit_fdiv, isInf_fdiv, units_fdiv_of_isInf_right⟩⟩

end Sys2Proof.Machine

namespace Sys2Proof.Machine

/-! SUPPORT. The proofs for 10_state.md: the invariant, what each unit's commands read, SAT and PV. -/

/-! ### DEC_POLL keeps the DEC unit's invariant -/

/-- What holds of the DEC unit between the steps of a poll: its invariant, but that BUF may hold whole frames while
synchronized, that LR is present, and that FC has room for every frame in BUF (41_decoder_poll.md R152, R154). -/
structure MidPollInv (c : Config) (d : DecState) : Prop where
  bufFits : d.buf.length ≤ c.bufCap
  counterRoom : d.fc + d.buf.length / 17 < 2 ^ 32
  faultRecorded : d.fault = (d.cause.drift || d.cause.marker || d.cause.stale)
  received : ∃ x, d.lr = some x ∧ isFinite x = true
  estimatesAgree : d.t0 = d.t1
  estimateNumber : ∀ x, d.t1 = some x → isNaN x = false
  countedCompleted : d.fc ≠ 0 → d.ec = true

theorem MidPollInv.decInv {c : Config} {d : DecState} (h : MidPollInv c d) (hs : d.sync = true → d.buf.length < 17) :
    DecInv c d where
  bufFits := h.bufFits
  counterBounded := Nat.lt_of_le_of_lt (Nat.le_add_right _ _) h.counterRoom
  syncedShort := hs
  faultRecorded := h.faultRecorded
  freshUntilPolled hn := by
    obtain ⟨x, hx, -⟩ := h.received
    simp [hn] at hx
  lastReceiveFinite x hx := by
    obtain ⟨y, hy, hf⟩ := h.received
    rw [hx, Option.some.injEq] at hy
    rwa [hy]
  estimatesAgree := h.estimatesAgree
  estimateNumber := h.estimateNumber
  countedCompleted := h.countedCompleted

/-- A cause is recorded together with FAULT, and nothing else changes (60_exceptions.md R280, R286). -/
theorem MidPollInv.raiseFault {c : Config} {d : DecState} (h : MidPollInv c d) (x : FaultCause) :
    MidPollInv c (raiseFault x d) where
  bufFits := h.bufFits
  counterRoom := h.counterRoom
  faultRecorded := by cases x <;> simp
  received := h.received
  estimatesAgree := h.estimatesAgree
  estimateNumber := h.estimateNumber
  countedCompleted := h.countedCompleted

/-- BUF may lose bytes, and SYNC may change. -/
theorem MidPollInv.withBuf {c : Config} {d : DecState} (h : MidPollInv c d) (sync : Bool) {bs : List Byte}
    (hbs : bs.length ≤ d.buf.length) : MidPollInv c { d with buf := bs, sync := sync } where
  bufFits := hbs.trans h.bufFits
  counterRoom := by
    have hroom := h.counterRoom
    dsimp only
    omega
  faultRecorded := h.faultRecorded
  received := h.received
  estimatesAgree := h.estimatesAgree
  estimateNumber := h.estimateNumber
  countedCompleted := h.countedCompleted

/-- T0 and T1 may take one number. -/
theorem MidPollInv.withEstimate {c : Config} {d : DecState} (h : MidPollInv c d) {t : Binary64} (ht : isNaN t = false) :
    MidPollInv c { d with t0 := some t, t1 := some t } where
  bufFits := h.bufFits
  counterRoom := h.counterRoom
  faultRecorded := h.faultRecorded
  received := h.received
  estimatesAgree := rfl
  estimateNumber x hx := by
    rwa [← Option.some.inj hx]
  countedCompleted := h.countedCompleted

/-- FC may return to zero. -/
theorem MidPollInv.withoutCount {c : Config} {d : DecState} (h : MidPollInv c d) : MidPollInv c { d with fc := 0 } where
  bufFits := h.bufFits
  counterRoom := by
    have hroom := h.counterRoom
    dsimp only
    omega
  faultRecorded := h.faultRecorded
  received := h.received
  estimatesAgree := h.estimatesAgree
  estimateNumber := h.estimateNumber
  countedCompleted h0 := absurd rfl h0

/-- Step 1 of an accepted poll: its bounds are what R152 tests. -/
theorem pollAppend_midPollInv {now : Binary64} {data : List Byte} {s : State} (hd : DecInv s.cfg s.dec)
    (ha : PollAccepted now data s) : MidPollInv s.cfg (pollAppend now data s.dec) := by
  rw [pollAppend_eq]
  exact {
    bufFits := by simpa using ha.fits
    counterRoom := by simpa using ha.counts
    faultRecorded := hd.faultRecorded
    received := by
      dsimp only
      split_ifs with h
      · exact ⟨now, rfl, ha.finite⟩
      · obtain ⟨x, hx⟩ := Option.ne_none_iff_exists'.mp (not_or.mp h).2
        exact ⟨x, hx, hd.lastReceiveFinite x hx⟩
    estimatesAgree := hd.estimatesAgree
    estimateNumber := hd.estimateNumber
    countedCompleted := hd.countedCompleted }

theorem pollSync_midPollInv {c : Config} {d : DecState} (h : MidPollInv c d) : MidPollInv c (pollSync d) := by
  obtain ⟨e, -⟩ | ⟨i, -, -, -, -, e⟩ := pollSync_cases d
  · rwa [e]
  · rw [e]
    exact h.withBuf true (by simp)

/-- A natural of at most 53 bits converts to a finite value, and so do some larger ones (00_scope.md R20). -/
theorem isFinite_f64 {n : Nat} (h : n < 2 ^ 54 - 1) : isFinite (f64 n) = true := by
  have hone : unitsPerOne ≤ 2 ^ 2044 := by
    unfold unitsPerOne
    gcongr <;> norm_num
  rw [f64, isFinite_roundUnits_one_iff]
  exact (Nat.mul_le_mul_left n hone).trans_lt (Nat.mul_lt_mul_of_pos_right h (by positivity))

theorem isFinite_byteTime_of_legal {c : Config} (h : c.legal = true) : isFinite c.byteTime = true := by
  simp only [Config.legal, Config.timesLegal, Bool.and_eq_true] at h
  tauto

/-- The estimate of step 3 is a number: a finite time less a product of finite values, which may be infinite. -/
theorem isNaN_arrivalEstimate {c : Config} {now : Binary64} (hc : c.legal = true) (hn : isFinite now = true)
    (d : DecState) : isNaN (arrivalEstimate c now d) = false := by
  have hlt : partialBytes d < 17 := Nat.mod_lt _ (by decide)
  exact isNaN_fsub hn (isNaN_fmul (isFinite_f64 (by omega)) (isFinite_byteTime_of_legal hc))

theorem pollDrift_midPollInv {c : Config} {now : Binary64} {d : DecState} (hc : c.legal = true)
    (hn : isFinite now = true) (h : MidPollInv c d) : MidPollInv c (pollDrift c now d) := by
  obtain e | ⟨-, -, -, t, rfl, e⟩ := pollDrift_cases c now d
  · rwa [e]
  · have ht := h.withEstimate (isNaN_arrivalEstimate hc hn d)
    obtain e | e | e := e <;> rw [e]
    · exact ht
    · exact ht.withoutCount
    · exact ht.raiseFault .drift

/-- Frames of 17 bytes taken from the head of BUF are as many as FC had room for (41_decoder_poll.md R159). -/
theorem MidPollInv.afterFrames {c : Config} {d : DecState} (h : MidPollInv c d) {frames : List (List Byte)}
    {rest : List Byte} (hb : d.buf = frames.flatten ++ rest) (hf : ∀ f ∈ frames, f.length = 17) :
    MidPollInv c (d.afterFrames frames rest) := by
  have hlen : d.buf.length = frames.length * 17 + rest.length := by
    rw [hb, List.length_append, List.length_flatten, List.map_congr_left hf, List.map_const', List.sum_replicate,
      smul_eq_mul]
  have hfits := h.bufFits
  have hroom := h.counterRoom
  exact {
    bufFits := by
      dsimp only [DecState.afterFrames]
      omega
    counterRoom := by
      dsimp only [DecState.afterFrames]
      omega
    faultRecorded := h.faultRecorded
    received := h.received
    estimatesAgree := h.estimatesAgree
    estimateNumber := h.estimateNumber
    countedCompleted := fun h0 => by
      cases frames with
      | nil => simp [DecState.afterFrames, h.countedCompleted h0]
      | cons f fs => simp [DecState.afterFrames] }

theorem markerMismatch_sync (c : Config) (d : DecState) : (markerMismatch c d).sync = false := by
  unfold markerMismatch
  dsimp only
  split_ifs <;> rfl

theorem MidPollInv.markerMismatch {c : Config} {d : DecState} (h : MidPollInv c d) :
    MidPollInv c (markerMismatch c d) := by
  have hs := h.withBuf false le_rfl
  unfold Machine.markerMismatch
  dsimp only
  split_ifs
  · exact hs.raiseFault .marker
  · exact hs

/-- Step 4 leaves less than a frame while synchronized (41_decoder_poll.md R165, 1). -/
theorem pollExtract_midPollInv {c : Config} {d : DecState} (h : MidPollInv c d) :
    MidPollInv c (pollExtract c d).dec ∧
      ((pollExtract c d).dec.sync = true → (pollExtract c d).dec.buf.length < 17) := by
  obtain ⟨frames, rest, hb, hf, -, ⟨e, hend⟩ | ⟨e, -⟩⟩ := pollExtract_spec c d <;>
    have hk := h.afterFrames hb fun f hm => (hf f hm).1
  · rw [e]
    refine ⟨hk, fun hs => ?_⟩
    obtain ⟨hs', -⟩ | ⟨-, hshort⟩ := hend
    · exact absurd (hs'.symm.trans hs) Bool.false_ne_true
    · exact hshort
  · rw [e]
    exact ⟨hk.markerMismatch, fun hs => absurd ((markerMismatch_sync c _).symm.trans hs) Bool.false_ne_true⟩

/-- Step 5 keeps what a command leaves; so an accepted poll keeps the DEC unit's invariant. -/
theorem pollSteps_decInv {now : Binary64} {data : List Byte} {s : State} (hc : s.cfg.legal = true)
    (hd : DecInv s.cfg s.dec) (ha : PollAccepted now data s) :
    DecInv s.cfg (pollSteps s.cfg now data s.dec).dec := by
  have hbefore : MidPollInv s.cfg (pollBeforeExtract s.cfg now data s.dec) :=
    pollDrift_midPollInv hc ha.finite (pollSync_midPollInv (pollAppend_midPollInv hd ha))
  obtain ⟨hx, hshort⟩ := pollExtract_midPollInv hbefore
  dsimp only [pollSteps]
  obtain e | e := pollStale_cases s.cfg now (pollExtract s.cfg (pollBeforeExtract s.cfg now data s.dec)).dec <;> rw [e]
  · exact hx.decInv hshort
  · exact (hx.raiseFault .stale).decInv hshort

/-! ### PID_UPDATE keeps the PID unit's invariant -/

theorem storeFirst_pidInv {sp pv : Binary64} {p : PidState} (c : Config) (hsp : isFinite sp = true)
    (hpv : isFinite pv = true) (hp : PidInv p) : PidInv (storeFirst c sp pv p) where
  freshUntilUpdated hn := by simp [storeFirst_pv] at hn
  previousFinite x hx := by
    rw [storeFirst_pv] at hx
    rwa [← Option.some.inj hx]
  errorNumber := by
    obtain e | e := storeFirst_pe c sp pv p <;> rw [e]
    · exact isNaN_fsub hsp (isNaN_of_isFinite hpv)
    · exact hp.errorNumber
  integralNumber := by
    rw [storeFirst_i]
    exact hp.integralNumber

theorem storeUpdate_pidInv {t : PidTerms} {pv : Binary64} (ht : t.anyNaN = false) (hpv : isFinite pv = true)
    (clamped : Bool) (p : PidState) : PidInv (storeUpdate t pv clamped p) where
  freshUntilUpdated hn := by simp [storeUpdate] at hn
  previousFinite x hx := by
    rwa [← Option.some.inj hx]
  errorNumber := (anyNaN_eq_false ht).1
  integralNumber := (anyNaN_eq_false ht).2.1

/-! ### Every command and every step -/

/-- No command writes the parameters (10_state.md R49). -/
theorem exec_cfg {i : Instr} {s t : State} (h : exec i s = .next t) : t.cfg = s.cfg := by
  obtain ⟨d, p, r, e, -⟩ := exec_next i s
  rw [← Host.Outcome.next.inj (e.symm.trans h)]

theorem decReset_decInv (c : Config) : DecInv c .reset where
  bufFits := Nat.zero_le _
  counterBounded := by decide
  syncedShort h := by cases h
  faultRecorded := rfl
  freshUntilPolled _ := rfl
  lastReceiveFinite _ h := by cases h
  estimatesAgree := rfl
  estimateNumber _ h := by cases h
  countedCompleted h := absurd rfl h

theorem pidReset_pidInv : PidInv .reset where
  freshUntilUpdated _ := rfl
  previousFinite _ h := by cases h
  errorNumber := isNaN_posZero
  integralNumber := isNaN_posZero

theorem exec_decInv {i : Instr} {s t : State} (hs : s.Inv) (h : exec i s = .next t) : DecInv s.cfg t.dec := by
  by_cases hi : isDecCommand i = false
  · rw [exec_dec_of_not_decCommand hi h]
    exact hs.dec
  cases i with
  | decReset =>
    rw [← Host.Outcome.next.inj ((execDecReset_eq s).symm.trans h)]
    exact decReset_decInv _
  | decPoll now data =>
    obtain ⟨st, -, -, e⟩ | ⟨ha, e⟩ := execDecPoll_cases now data s <;>
      rw [← Host.Outcome.next.inj (e.symm.trans h)]
    · exact hs.dec
    · exact pollSteps_decInv hs.legal hs.dec ((pollRefusal_none_iff now data s).mp ha)
  | pidReset | pidUpdate | readReg => exact absurd rfl hi

theorem exec_pidInv {i : Instr} {s t : State} (hp : PidInv s.pid) (h : exec i s = .next t) : PidInv t.pid := by
  by_cases hi : isPidCommand i = false
  · rwa [exec_pid_of_not_pidCommand hi h]
  cases i with
  | pidReset =>
    rw [← Host.Outcome.next.inj ((execPidReset_eq s).symm.trans h)]
    exact pidReset_pidInv
  | pidUpdate sp pv =>
    obtain ⟨st, -, e⟩ | ⟨hsp, hpv, -, e⟩ | ⟨-, hpv, -, ht, e⟩ := execPidUpdate_cases sp pv s <;>
      rw [← Host.Outcome.next.inj (e.symm.trans h)]
    · exact hp
    · exact storeFirst_pidInv s.cfg hsp hpv hp
    · exact storeUpdate_pidInv ht hpv _ s.pid
  | decReset | decPoll | readReg => exact absurd rfl hi

theorem exec_inv {i : Instr} {s t : State} (hs : s.Inv) (h : exec i s = .next t) : t.Inv := by
  have hcfg := exec_cfg h
  refine ⟨?_, ?_, exec_pidInv hs.pid h⟩
  · rw [hcfg]
    exact hs.legal
  · rw [hcfg]
    exact exec_decInv hs h

/-- Settles O19: the block reset gives fresh units, an ILLEGAL answer leaves them, and each unit's commands keep its own
part of the invariant. -/
theorem stepKeepsTheInvariant : Obligations.StepKeepsTheInvariant := by
  intro s t hs h
  obtain ⟨-, e⟩ | ⟨-, i, rest, -, e⟩ | ⟨-, op, rest, -, e⟩ | ⟨-, -, e⟩ := step_cases s <;> rw [e] at h
  · rw [← Host.Outcome.next.inj h]
    exact ⟨hs.legal, decReset_decInv _, pidReset_pidInv⟩
  · have hrest : State.Inv { s with cmd := rest } := ⟨hs.legal, hs.dec, hs.pid⟩
    exact exec_inv hrest h
  · rw [← Host.Outcome.next.inj h]
    exact ⟨hs.legal, hs.dec, hs.pid⟩
  · cases h

/-- Settles O20: no command writes them, and the block reset keeps them. -/
theorem stepKeepsTheParameters : Obligations.StepKeepsTheParameters := by
  intro s t h
  obtain ⟨-, e⟩ | ⟨-, i, rest, -, e⟩ | ⟨-, op, rest, -, e⟩ | ⟨-, -, e⟩ := step_cases s <;> rw [e] at h
  · rw [← Host.Outcome.next.inj h, blockReset_cfg]
  · exact exec_cfg (s := { s with cmd := rest }) h
  · rw [← Host.Outcome.next.inj h]
  · cases h

/-! ### What each unit's commands read -/

theorem execDecPoll_of_refusal {now : Binary64} {data : List Byte} {s : State} {st : Status}
    (h : pollRefusal s.cfg now data s.dec = some st) :
    execDecPoll now data s = .next { s with resp := s.resp ++ [st.code] } := by
  simp only [execDecPoll, h, refuseWith_eq]

/-- A DEC command's effect and response are fixed by the parameters and the DEC state (10_state.md R31). -/
theorem exec_decCommand_reads {i : Instr} (hi : isDecCommand i = true) (c : Config) (d : DecState) :
    ∃ (d' : DecState) (r : List Byte), ∀ s : State, s.cfg = c → s.dec = d →
      exec i s = .next { s with dec := d', resp := s.resp ++ r } := by
  cases i with
  | decReset => exact ⟨.reset, [0x00], fun s _ _ => execDecReset_eq s⟩
  | decPoll now data =>
    cases hr : pollRefusal c now data d with
    | some st =>
      refine ⟨d, [st.code], fun s hc hd => ?_⟩
      subst hc hd
      exact execDecPoll_of_refusal hr
    | none =>
      refine ⟨(pollSteps c now data d).dec, 0x00 :: pollResult c (pollSteps c now data d), fun s hc hd => ?_⟩
      subst hc hd
      exact exec_decPoll_of_accepted ((pollRefusal_none_iff now data s).mp hr)
  | pidReset | pidUpdate | readReg => cases hi

theorem execPidUpdate_of_not_finite {sp pv : Binary64} (h : ¬ (isFinite sp = true ∧ isFinite pv = true)) (s : State) :
    execPidUpdate sp pv s = .next { s with resp := s.resp ++ [Status.badOperand.code] } := by
  refine if_pos ?_
  simpa [← Bool.not_and] using h

theorem execPidUpdate_of_first {sp pv : Binary64} (h : isFinite sp = true ∧ isFinite pv = true) {s : State}
    (hn : s.pid.pv = none) :
    execPidUpdate sp pv s = .next { s with
      pid := storeFirst s.cfg sp pv s.pid, resp := s.resp ++ 0x00 :: updateResult posZero s.pid.sat false true } := by
  simp only [execPidUpdate, h, hn, respondOk_eq, Bool.not_true, Bool.or_self, Bool.false_eq_true, if_false, if_true]

theorem execPidUpdate_of_anyNaN {sp pv : Binary64} (h : isFinite sp = true ∧ isFinite pv = true) {s : State}
    (hn : s.pid.pv ≠ none) (ht : (pidTerms s.cfg s.pid sp pv).anyNaN = true) :
    execPidUpdate sp pv s = .next { s with resp := s.resp ++ [Status.numeric.code] } := by
  simp only [execPidUpdate, h, hn, ht, refuseWith_eq, Bool.not_true, Bool.or_self, Bool.false_eq_true, if_false, if_true]

theorem execPidUpdate_of_not_anyNaN {sp pv : Binary64} (h : isFinite sp = true ∧ isFinite pv = true) {s : State}
    (hn : s.pid.pv ≠ none) {t : PidTerms} (et : pidTerms s.cfg s.pid sp pv = t) (ht : t.anyNaN = false) :
    execPidUpdate sp pv s = .next { s with
      pid := storeUpdate t pv (clampOutput t.raw).2 s.pid,
      resp := s.resp ++ 0x00 :: updateResult (clampOutput t.raw).1 (s.pid.sat || (clampOutput t.raw).2)
        (clampOutput t.raw).2 false } := by
  subst et
  simp only [execPidUpdate, h, hn, ht, respondOk_eq, storeUpdate, Bool.not_true, Bool.or_self, Bool.false_eq_true, if_false]

/-- A PID command's effect and response are fixed by the parameters and the PID state (10_state.md R31). -/
theorem exec_pidCommand_reads {i : Instr} (hi : isPidCommand i = true) (c : Config) (p : PidState) :
    ∃ (p' : PidState) (r : List Byte), ∀ s : State, s.cfg = c → s.pid = p →
      exec i s = .next { s with pid := p', resp := s.resp ++ r } := by
  cases i with
  | pidReset => exact ⟨.reset, [0x00], fun s _ _ => execPidReset_eq s⟩
  | pidUpdate sp pv =>
    by_cases hf : isFinite sp = true ∧ isFinite pv = true
    · by_cases hn : p.pv = none
      · refine ⟨storeFirst c sp pv p, 0x00 :: updateResult posZero p.sat false true, fun s hc hp => ?_⟩
        subst hc hp
        exact execPidUpdate_of_first hf hn
      · cases ht : (pidTerms c p sp pv).anyNaN with
        | true =>
          refine ⟨p, [Status.numeric.code], fun s hc hp => ?_⟩
          subst hc hp
          exact execPidUpdate_of_anyNaN hf hn ht
        | false =>
          refine ⟨storeUpdate (pidTerms c p sp pv) pv (clampOutput (pidTerms c p sp pv).raw).2 p,
            0x00 :: updateResult (clampOutput (pidTerms c p sp pv).raw).1
              (p.sat || (clampOutput (pidTerms c p sp pv).raw).2) (clampOutput (pidTerms c p sp pv).raw).2 false,
            fun s hc hp => ?_⟩
          subst hc hp
          exact execPidUpdate_of_not_anyNaN hf hn rfl ht
    · refine ⟨p, [Status.badOperand.code], fun s hc hp => ?_⟩
      subst hp
      exact execPidUpdate_of_not_finite hf s
  | decReset | decPoll | readReg => cases hi

/-- Settles O11: at two states that agree on what a command reads, its effect and its response are one and the same. -/
theorem unitsOwnDisjointState : Obligations.UnitsOwnDisjointState := by
  refine ⟨fun i s s' hi hc hd => ?_, fun i s s' hi hc hp => ?_, fun reg s => ?_⟩
  · obtain ⟨d, r, h⟩ := exec_decCommand_reads hi s.cfg s.dec
    exact ⟨_, _, r, h s rfl rfl, h s' hc.symm hd.symm, rfl, rfl, rfl, rfl, rfl⟩
  · obtain ⟨p, r, h⟩ := exec_pidCommand_reads hi s.cfg s.pid
    exact ⟨_, _, r, h s rfl rfl, h s' hc.symm hp.symm, rfl, rfl, rfl, rfl, rfl⟩
  · obtain ⟨r, -, e⟩ := execReadReg_cases reg s
    exact ⟨_, e, rfl, rfl⟩

/-! ### SAT and PV -/

/-- The flags byte of a clamping update after the first is SAT and CLAMPED (30_encoding.md R109). -/
theorem updateFlags_of_clamped (sat : Bool) : updateFlags (sat || true) true false = 0x03 := by
  cases sat <;> rfl

/-- A PID_UPDATE keeps SAT set, and sets it only by clamping (42_pid.md R196). -/
theorem execPidUpdate_sat (sp pv : Binary64) (s : State) :
    ∃ t : State, execPidUpdate sp pv s = .next t ∧
      (t.pid.sat = s.pid.sat ∨ t.pid.sat = true ∧ ∃ out : Binary64, (out = posZero ∨ out = one) ∧
        t.resp = s.resp ++ (0x00 :: word64Bytes out ++ [0x03])) := by
  obtain ⟨st, -, e⟩ | ⟨-, -, -, e⟩ | ⟨-, -, -, -, e⟩ := execPidUpdate_cases sp pv s <;> refine ⟨_, e, ?_⟩
  · exact .inl rfl
  · exact .inl (storeFirst_sat _ _ _ _)
  · obtain ⟨-, ec⟩ | ⟨-, -, ec⟩ | ⟨-, -, ec⟩ := clampOutput_cases (pidTerms s.cfg s.pid sp pv).raw <;>
      simp only [ec, storeUpdate, updateResult, updateFlags_of_clamped]
    · exact .inr ⟨Bool.or_true _, posZero, .inl rfl, rfl⟩
    · exact .inr ⟨Bool.or_true _, one, .inr rfl, rfl⟩
    · exact .inl (Bool.or_false _)

/-- Settles O47: of the commands that write the PID unit, the update clamps or keeps SAT and the reset clears it. -/
theorem saturationFlagIsSticky : Obligations.SaturationFlagIsSticky := by
  refine ⟨fun i s hi => ?_, fun s => ⟨_, execPidReset_eq s, rfl⟩, fun s hr => ⟨s.blockReset, if_pos hr, rfl⟩⟩
  by_cases hp : isPidCommand i = false
  · obtain ⟨d, p, r, e, -⟩ := exec_next i s
    have hpid := exec_pid_of_not_pidCommand hp e
    refine ⟨_, e, fun h => by rwa [hpid], fun h h' => ?_⟩
    rw [hpid, h] at h'
    cases h'
  cases i with
  | pidUpdate sp pv =>
    obtain ⟨t, e, hsat | ⟨hsat, hout⟩⟩ := execPidUpdate_sat sp pv s
    · refine ⟨t, e, fun h => hsat.trans h, fun h h' => ?_⟩
      rw [hsat, h] at h'
      cases h'
    · exact ⟨t, e, fun _ => hsat, fun _ _ => ⟨sp, pv, rfl, hout⟩⟩
  | pidReset => exact absurd rfl hi
  | decReset | decPoll | readReg => exact absurd rfl hp

/-- Of the PID state the terms read PE and I only (42_pid.md R192 to R195). -/
theorem pidTerms_congr {p p' : PidState} (hpe : p.pe = p'.pe) (hi : p.i = p'.i) (c : Config) (sp pv : Binary64) :
    pidTerms c p sp pv = pidTerms c p' sp pv := by
  simp only [pidTerms, hpe, hi]

/-- Results of two updates with one output agree but for the flags byte (30_encoding.md R109). -/
theorem take_nine_updateResult (out : Binary64) (sat clamped first : Bool) :
    (0x00 :: updateResult out sat clamped first).take 9 = 0x00 :: word64Bytes out := by
  rw [List.take_succ_cons, updateResult, List.take_left' (word64Bytes_length out)]

/-- Settles O48: with PV present both updates are refused alike or compute from one PE and one I. -/
theorem updateReadsOnlyThePresenceOfPv : Obligations.UpdateReadsOnlyThePresenceOfPv := by
  intro s s' sp pv x x' hc hp hx'
  have hn : s.pid.pv ≠ none := by
    rw [hp]
    exact Option.some_ne_none x
  have hn' : s'.pid.pv ≠ none := by simp [hx']
  have hpe : s.pid.pe = s'.pid.pe := by rw [hp]
  have hi : s.pid.i = s'.pid.i := by rw [hp]
  have ht : pidTerms s.cfg s.pid sp pv = pidTerms s'.cfg s'.pid sp pv := by rw [hc, pidTerms_congr hpe hi]
  by_cases hf : isFinite sp = true ∧ isFinite pv = true
  · cases hnan : (pidTerms s'.cfg s'.pid sp pv).anyNaN with
    | true =>
      exact ⟨_, _, execPidUpdate_of_anyNaN hf hn (ht ▸ hnan), execPidUpdate_of_anyNaN hf hn' hnan, hpe, hi,
        _, _, rfl, rfl, rfl⟩
    | false =>
      refine ⟨_, _, execPidUpdate_of_not_anyNaN hf hn ht hnan, execPidUpdate_of_not_anyNaN hf hn' rfl hnan, rfl, rfl,
        _, _, rfl, rfl, ?_⟩
      rw [take_nine_updateResult, take_nine_updateResult]
  · exact ⟨_, _, execPidUpdate_of_not_finite hf s, execPidUpdate_of_not_finite hf s', hpe, hi, _, _, rfl, rfl, rfl⟩

end Sys2Proof.Machine

namespace Sys2Proof.Machine

/-! SUPPORT. The proofs for 20_memory.md: the stream of commands, each unit's own commands, and where a poll's bytes go. -/

/-! ### The stream of commands -/

/-- A whole command at the head of the stream is decoded, and the bytes after it are left (30_encoding.md R99). -/
theorem decode_encode_append {i : Instr} (h : i.wf = true) (rest : List Byte) :
    decode (encode i ++ rest) = .command i rest := by
  have hlen : ¬ (encode i ++ rest).length < i.byteLength := by
    rw [List.length_append, encode_length]
    omega
  have htake : (encode i ++ rest).take i.byteLength = encode i := List.take_left' (encode_length i)
  have hdrop : (encode i ++ rest).drop i.byteLength = rest := List.drop_left' (encode_length i)
  rw [decode_of_length (commandLength_encode i rest h), if_neg hlen, htake, hdrop, decodeCommand_encode]

theorem step_of_command {s : State} {i : Instr} {rest : List Byte} (hr : s.rst = false)
    (hd : decode s.cmd = .command i rest) : step s = exec i { s with cmd := rest } := by
  simp only [step, hr, hd, Bool.false_eq_true, if_false]

theorem execReadReg_ignores_cmd (reg : Byte) (s : State) :
    ∃ r, ∀ bs : List Byte, execReadReg reg { s with cmd := bs } = .next { s with cmd := bs, resp := s.resp ++ r } := by
  have hreg (bs : List Byte) : regValue reg { s with cmd := bs } = regValue reg s := rfl
  cases hv : regValue reg s with
  | some v => exact ⟨0x00 :: word64Bytes v, fun bs => by simp only [execReadReg, hreg, hv, respondOk_eq]⟩
  | none => exact ⟨[Status.badRegister.code], fun bs => by simp only [execReadReg, hreg, hv, refuseWith_eq]⟩

/-- No command reads the command stream: its effect and its response are the same whatever waits behind it. -/
theorem exec_ignores_cmd (i : Instr) (s : State) :
    ∃ d p r, ∀ bs : List Byte, exec i { s with cmd := bs } =
      .next { s with cmd := bs, dec := d, pid := p, resp := s.resp ++ r } := by
  by_cases hd : isDecCommand i = true
  · obtain ⟨d, r, h⟩ := exec_decCommand_reads hd s.cfg s.dec
    exact ⟨d, s.pid, r, fun bs => h { s with cmd := bs } rfl rfl⟩
  by_cases hp : isPidCommand i = true
  · obtain ⟨p, r, h⟩ := exec_pidCommand_reads hp s.cfg s.pid
    exact ⟨s.dec, p, r, fun bs => h { s with cmd := bs } rfl rfl⟩
  cases i with
  | readReg reg =>
    obtain ⟨r, h⟩ := execReadReg_ignores_cmd reg s
    exact ⟨s.dec, s.pid, r, h⟩
  | decReset | decPoll => exact absurd rfl hd
  | pidReset | pidUpdate => exact absurd rfl hp

theorem execAll_cons {i : Instr} {s t : State} (h : exec i s = .next t) (later : List Instr) :
    execAll (i :: later) s = execAll later t := by
  simp only [execAll, h]

/-- Settles O10: each step takes one encoding off the stream and has the effect of its command. -/
theorem commandStreamIsSequentialComposition : Obligations.CommandStreamIsSequentialComposition := by
  intro is
  induction is with
  | nil =>
    intro s rest _ _ hcmd
    obtain rfl : s.cmd = rest := hcmd
    rfl
  | cons i later ih =>
    intro s rest hwf hr hcmd
    obtain ⟨hi, hlater⟩ := List.forall_mem_cons.mp hwf
    obtain ⟨d, p, r, hexec⟩ := exec_ignores_cmd i s
    have hdecode : decode s.cmd = .command i ((later.map encode).flatten ++ rest) := by
      rw [hcmd, List.map_cons, List.flatten_cons, List.append_assoc, decode_encode_append hi]
    have hstep := (step_of_command hr hdecode).trans (hexec _)
    rw [List.length_cons, run_succ core _ s _ hstep, execAll_cons (hexec rest)]
    exact ih _ rest hlater hr rfl

/-! ### Each unit's own commands -/

/-- The part `unit` of the state belongs to the commands `own`: no other command writes it, and theirs write it as it and
the parameters say (10_state.md R31). -/
structure OwnsUnit {α : Type} (own : Instr → Bool) (unit : State → α) : Prop where
  frame : ∀ {i : Instr} {s t : State}, own i = false → exec i s = .next t → unit t = unit s
  reads : ∀ {i : Instr} {s s' t t' : State}, own i = true → s.cfg = s'.cfg → unit s = unit s' →
    exec i s = .next t → exec i s' = .next t' → unit t = unit t'

theorem decCommands_own_dec : OwnsUnit isDecCommand State.dec where
  frame := exec_dec_of_not_decCommand
  reads {i s s' t t'} hi hc hd e e' := by
    obtain ⟨d, r, h⟩ := exec_decCommand_reads hi s.cfg s.dec
    rw [← Host.Outcome.next.inj ((h s rfl rfl).symm.trans e),
      ← Host.Outcome.next.inj ((h s' hc.symm hd.symm).symm.trans e')]

theorem pidCommands_own_pid : OwnsUnit isPidCommand State.pid where
  frame := exec_pid_of_not_pidCommand
  reads {i s s' t t'} hi hc hp e e' := by
    obtain ⟨p, r, h⟩ := exec_pidCommand_reads hi s.cfg s.pid
    rw [← Host.Outcome.next.inj ((h s rfl rfl).symm.trans e),
      ← Host.Outcome.next.inj ((h s' hc.symm hp.symm).symm.trans e')]

/-- From two states alike in a unit and in the parameters, all commands and the unit's own ones alone leave the unit alike. -/
theorem execAll_filter {α : Type} {own : Instr → Bool} {unit : State → α} (h : OwnsUnit own unit) (is : List Instr)
    {s s' : State} (hc : s.cfg = s'.cfg) (hu : unit s = unit s') :
    ∃ t u : State, execAll is s = .next t ∧ execAll (is.filter own) s' = .next u ∧ unit t = unit u := by
  induction is generalizing s s' with
  | nil => exact ⟨s, s', rfl, rfl, hu⟩
  | cons i later ih =>
    obtain ⟨d, p, r, e, -⟩ := exec_next i s
    rw [execAll_cons e]
    cases hi : own i with
    | false =>
      rw [List.filter_cons_of_neg (by simp [hi])]
      exact ih hc ((h.frame hi e).trans hu)
    | true =>
      obtain ⟨d', p', r', e', -⟩ := exec_next i s'
      rw [List.filter_cons_of_pos hi, execAll_cons e']
      exact ih hc (h.reads hi hc hu e e')

/-- Settles O12: for each unit, its own commands alone do to it what all the commands do. -/
theorem unitSequencesAreIndependent : Obligations.UnitSequencesAreIndependent := by
  intro is s
  obtain ⟨t, u, ht, hu, hdec⟩ := execAll_filter decCommands_own_dec is (s := s) rfl rfl
  obtain ⟨t', v, ht', hv, hpid⟩ := execAll_filter pidCommands_own_pid is (s := s) rfl rfl
  obtain rfl : t = t' := Host.Outcome.next.inj (ht.symm.trans ht')
  exact ⟨t, u, v, ht, hu, hdec, hv, hpid⟩

/-! ### Where a poll's bytes go -/

/-- Step 1 adds the new bytes at the end of BUF (41_decoder_poll.md R153). -/
theorem pollAppend_keeps (now : Binary64) (data : List Byte) (d : DecState) :
    (pollAppend now data d).buf = d.buf ++ data ∧ (pollAppend now data d).sync = d.sync ∧
      (pollAppend now data d).fc = d.fc ∧ (pollAppend now data d).ec = d.ec := by
  rw [pollAppend_eq]
  exact ⟨rfl, rfl, rfl, rfl⟩

/-- Step 2 drops bytes from the head of BUF only, and none when synchronized (41_decoder_poll.md R155). -/
theorem pollSync_partition (d : DecState) :
    ∃ junk, d.buf = junk ++ (pollSync d).buf ∧ (d.sync = true → junk = []) ∧
      (pollSync d).fc = d.fc ∧ (pollSync d).ec = d.ec := by
  obtain ⟨e, -⟩ | ⟨i, hs, -, -, -, e⟩ := pollSync_cases d <;> rw [e]
  · exact ⟨[], rfl, fun _ => rfl, rfl, rfl⟩
  · refine ⟨d.buf.take i, (List.take_append_drop i d.buf).symm, fun hs' => ?_, rfl, rfl⟩
    exact absurd (hs.symm.trans hs') Bool.false_ne_true

/-- Step 3 keeps BUF and EC, and keeps FC or sets it to 0 (41_decoder_poll.md R157). -/
theorem pollDrift_keeps (c : Config) (now : Binary64) (d : DecState) :
    (pollDrift c now d).buf = d.buf ∧ (pollDrift c now d).ec = d.ec ∧
      ((pollDrift c now d).fc = d.fc ∨ (pollDrift c now d).fc = 0) := by
  obtain e | ⟨-, -, -, t, -, e | e | e⟩ := pollDrift_cases c now d <;> rw [e]
  · exact ⟨rfl, rfl, .inl rfl⟩
  · exact ⟨rfl, rfl, .inl rfl⟩
  · exact ⟨rfl, rfl, .inr rfl⟩
  · exact ⟨rfl, rfl, .inl rfl⟩

theorem markerMismatch_keeps (c : Config) (d : DecState) :
    (markerMismatch c d).buf = d.buf ∧ (markerMismatch c d).fc = d.fc ∧ (markerMismatch c d).ec = d.ec := by
  unfold markerMismatch
  dsimp only
  split_ifs <;> exact ⟨rfl, rfl, rfl⟩

/-- Step 4 takes frames off the head of BUF, emits their records and counts them (41_decoder_poll.md R159). -/
theorem pollExtract_partition (c : Config) (d : DecState) :
    ∃ frames : List (List Byte), d.buf = frames.flatten ++ (pollExtract c d).dec.buf ∧
      (∀ f ∈ frames, f.length = 17 ∧ markersOK f 0 = true) ∧
      (pollExtract c d).records = frames.map (emitFrame c) ∧
      (pollExtract c d).dec.fc = d.fc + frames.length ∧
      (pollExtract c d).dec.ec = (d.ec || !frames.isEmpty) := by
  obtain ⟨frames, rest, hbuf, hvalid, hrec, ⟨e, -⟩ | ⟨e, -⟩⟩ := pollExtract_spec c d <;>
    refine ⟨frames, ?_⟩ <;> rw [e]
  · exact ⟨hbuf, hvalid, hrec, rfl, rfl⟩
  · obtain ⟨hb, hfc, hec⟩ := markerMismatch_keeps c (d.afterFrames frames rest)
    rw [hb, hfc, hec]
    exact ⟨hbuf, hvalid, hrec, rfl, rfl⟩

theorem pollStale_keeps (c : Config) (now : Binary64) (d : DecState) :
    (pollStale c now d).buf = d.buf ∧ (pollStale c now d).fc = d.fc ∧ (pollStale c now d).ec = d.ec := by
  obtain e | e := pollStale_cases c now d <;> rw [e]
  · exact ⟨rfl, rfl, rfl⟩
  · exact ⟨rfl, rfl, rfl⟩

/-- Steps 1 to 3 add the new bytes at the end of BUF, and drop bytes from its head at sync only. -/
theorem pollBeforeExtract_partition (c : Config) (now : Binary64) (data : List Byte) (d : DecState) :
    ∃ junk, d.buf ++ data = junk ++ (pollBeforeExtract c now data d).buf ∧ (d.sync = true → junk = []) ∧
      ((pollBeforeExtract c now data d).fc = d.fc ∨ (pollBeforeExtract c now data d).fc = 0) ∧
      (pollBeforeExtract c now data d).ec = d.ec := by
  obtain ⟨hbuf₁, hsync₁, hfc₁, hec₁⟩ := pollAppend_keeps now data d
  obtain ⟨junk, hjunk, hsync, hfc₂, hec₂⟩ := pollSync_partition (pollAppend now data d)
  obtain ⟨hbuf₃, hec₃, hfc₃⟩ := pollDrift_keeps c now (pollSync (pollAppend now data d))
  rw [hbuf₁] at hjunk
  rw [hsync₁] at hsync
  rw [hfc₂, hfc₁] at hfc₃
  rw [pollBeforeExtract, hbuf₃, hec₃, hec₂, hec₁]
  exact ⟨junk, hjunk, hsync, hfc₃, rfl⟩

/-- The five steps part the bytes into those dropped at sync, the frames, and those kept (20_memory.md R73, R74). -/
theorem pollSteps_partition (c : Config) (now : Binary64) (data : List Byte) (d : DecState) :
    ∃ (junk : List Byte) (frames : List (List Byte)),
      d.buf ++ data = junk ++ frames.flatten ++ (pollSteps c now data d).dec.buf ∧
      (∀ f ∈ frames, f.length = 17 ∧ markersOK f 0 = true) ∧
      (d.sync = true → junk = []) ∧
      (pollSteps c now data d).records = frames.map (emitFrame c) ∧
      ((pollSteps c now data d).dec.fc = d.fc + frames.length ∨ (pollSteps c now data d).dec.fc = frames.length) ∧
      (pollSteps c now data d).dec.ec = (d.ec || !frames.isEmpty) := by
  obtain ⟨junk, hjunk, hsync, hfc, hec⟩ := pollBeforeExtract_partition c now data d
  obtain ⟨frames, hframes, hvalid, hrec, hfc', hec'⟩ := pollExtract_partition c (pollBeforeExtract c now data d)
  obtain ⟨hbuf, hfc'', hec''⟩ := pollStale_keeps c now (pollExtract c (pollBeforeExtract c now data d)).dec
  dsimp only [pollSteps]
  rw [hbuf, hfc'', hfc', hec'', hec', hec]
  refine ⟨junk, frames, ?_, hvalid, hsync, hrec, ?_, rfl⟩
  · rw [List.append_assoc, ← hframes, hjunk]
  · exact hfc.imp (congrArg (· + frames.length)) fun h => by rw [h, Nat.zero_add]

/-- Settles O36: an accepted poll's steps part the bytes, and its response lists the frames' records. -/
theorem pollPartitionsTheByteStream : Obligations.PollPartitionsTheByteStream := by
  intro s now data ha
  obtain ⟨junk, frames, hbuf, hvalid, hsync, hrec, hfc, hec⟩ := pollSteps_partition s.cfg now data s.dec
  refine ⟨_, junk, frames, exec_decPoll_of_accepted ha, hbuf, fun f hf => ?_, hsync, ?_, hfc, hec⟩
  · obtain ⟨hlen, hmarkers⟩ := hvalid f hf
    exact ⟨hlen, (markersOK_iff f 0).mp hmarkers⟩
  · simp only [pollResult, hrec, List.length_map, List.map_map]
    rfl

end Sys2Proof.Machine

namespace Sys2Proof.Machine

/-! SUPPORT. The proofs for 30_encoding.md: the decoder as the inverse of the encoder, the responses, and the packed record. -/

/-! ### The length of a command -/

/-- The two bytes of a 16-bit field are read back as themselves (20_memory.md R75). -/
theorem beBytes_u16be (hi lo : Byte) : beBytes 2 (u16be hi lo).toNat = [hi, lo] := by
  have h : (u16be hi lo).toNat = beNat [hi, lo] := by simp [u16be_toNat, beNat]
  rw [h]
  exact beBytes_beNat [hi, lo]

/-- A DEC_POLL of known length has its time and its count behind the opcode (30_encoding.md R101, R113). -/
theorem commandLength_decPoll_eq_some {args : List Byte} {n : Nat} (h : commandLength (opDecPoll :: args) = some n) :
    ∃ (time : List Byte) (hi lo : Byte) (data : List Byte),
      time.length = 8 ∧ args = time ++ hi :: lo :: data ∧ n = (u16be hi lo).toNat + 11 := by
  rw [commandLength_decPoll] at h
  split at h
  · rename_i hi lo data hdrop
    have hlen := congrArg List.length hdrop
    rw [List.length_drop, List.length_cons, List.length_cons] at hlen
    refine ⟨args.take 8, hi, lo, data, ?_, ?_, ?_⟩
    · rw [List.length_take]
      omega
    · rw [← hdrop, List.take_append_drop]
    · rw [← Option.some.inj h, Nat.add_comm]
  · cases h

/-- The length of every other command follows byte 0 alone (30_encoding.md R113). -/
theorem commandLength_of_ne_decPoll {op : Byte} (h : op ≠ opDecPoll) :
    ∃ m, ∀ args, commandLength (op :: args) = some (m + 1) := by
  by_cases h12 : op = opPidUpdate
  · exact ⟨16, fun args => h12 ▸ commandLength_pidUpdate args⟩
  by_cases hf0 : op = opReadReg
  · exact ⟨1, fun args => hf0 ▸ commandLength_readReg args⟩
  exact ⟨0, fun args => commandLength_one op args h h12 hf0⟩

/-- The bytes that fix a command's length are among the command's own (30_encoding.md R113). -/
theorem commandLength_take {bs : List Byte} {n : Nat} (h : commandLength bs = some n) :
    commandLength (bs.take n) = some n := by
  cases bs with
  | nil => cases h
  | cons op args =>
    by_cases h2 : op = opDecPoll
    · subst h2
      obtain ⟨time, hi, lo, data, htime, rfl, rfl⟩ := commandLength_decPoll_eq_some h
      rw [List.take_succ_cons, commandLength_decPoll, List.drop_take, List.drop_left' htime]
      exact congrArg some (Nat.add_comm _ _)
    · obtain ⟨m, hm⟩ := commandLength_of_ne_decPoll h2
      obtain rfl := Option.some.inj ((hm args).symm.trans h)
      exact hm _

/-- Settles O4: one case per opcode whose command is longer than its first byte. -/
theorem commandLengthFollowsTheOpcode : Obligations.CommandLengthFollowsTheOpcode := by
  intro op args
  refine ⟨?_, ?_, ?_, commandLength_one op args⟩
  · rintro rfl hi lo hhi hlo
    have hdrop : args.drop 8 = hi :: lo :: args.drop 10 := by
      rw [List.drop_eq_getElem?_toList_append, hhi, List.drop_eq_getElem?_toList_append, hlo]
      rfl
    rw [← u16be_toNat]
    exact (commandLength_decPoll args).trans (by rw [hdrop])
  · rintro rfl
    exact commandLength_pidUpdate args
  · rintro rfl
    exact commandLength_readReg args

/-! ### Decoding as the inverse of encoding -/

/-- Settles O1: each word is short, and the decoder runs on it. -/
theorem wordsDecodeAsTheTableSays : Obligations.WordsDecodeAsTheTableSays := by
  unfold Obligations.WordsDecodeAsTheTableSays
  decide

/-- Settles O2: the length read from the head of the stream parts the encoding from the bytes after it. -/
theorem decodeInvertsEncode : Obligations.DecodeInvertsEncode :=
  fun _ rest h => decode_encode_append h rest

/-- What stands behind a decoded command: a length, bytes enough, and the command those bytes are. -/
theorem decode_eq_command {bs rest : List Byte} {i : Instr} (h : decode bs = .command i rest) :
    ∃ n, commandLength bs = some n ∧ n ≤ bs.length ∧ decodeCommand (bs.take n) = some i ∧ bs.drop n = rest := by
  cases hn : commandLength bs with
  | none =>
    simp only [decode, hn] at h
    cases h
  | some n =>
    rw [decode_of_length hn] at h
    split_ifs at h with hlen
    cases hi : decodeCommand (bs.take n) with
    | none =>
      rw [hi] at h
      cases h
    | some j =>
      rw [hi] at h
      obtain ⟨rfl, hrest⟩ := Decoded.command.inj h
      exact ⟨n, rfl, Nat.le_of_not_lt hlen, hi, hrest⟩

/-- The bytes of a whole DEC_POLL are those of its encoding (30_encoding.md R101, R103). -/
theorem encode_decPoll_of_length {args : List Byte} (h : commandLength (opDecPoll :: args) = some (args.length + 1)) :
    (Instr.decPoll (word64Of (args.take 8)) (args.drop 10)).wf = true ∧
      encode (.decPoll (word64Of (args.take 8)) (args.drop 10)) = opDecPoll :: args := by
  obtain ⟨time, hi, lo, data, htime, rfl, hn⟩ := commandLength_decPoll_eq_some h
  have hcount : data.length = (u16be hi lo).toNat := by
    rw [List.length_append, List.length_cons, List.length_cons, htime] at hn
    omega
  have hdata : (time ++ hi :: lo :: data).drop 10 = data := by simp [List.drop_append, htime]
  rw [List.take_left' htime, hdata]
  constructor
  · rw [Instr.wf, hcount]
    exact decide_eq_true (Nat.le_of_lt_succ (u16be hi lo).isLt)
  · rw [encode, hcount, beBytes_u16be, word64Bytes_word64Of time htime, List.append_assoc]
    rfl

/-- The bytes of a whole PID_UPDATE are those of its encoding (30_encoding.md R102). -/
theorem encode_pidUpdate_of_length {args : List Byte} (h : args.length = 16) :
    encode (.pidUpdate (word64Of (args.take 8)) (word64Of (args.drop 8))) = opPidUpdate :: args := by
  rw [encode, word64Bytes_word64Of (args.take 8) (by rw [List.length_take, h]; rfl),
    word64Bytes_word64Of (args.drop 8) (by rw [List.length_drop, h]), List.take_append_drop]

/-- A byte sequence of exactly its command's length is the encoding of the command it stands for (30_encoding.md R100). -/
theorem encode_of_decodeCommand {bs : List Byte} {i : Instr} (hlen : commandLength bs = some bs.length)
    (h : decodeCommand bs = some i) : i.wf = true ∧ encode i = bs := by
  cases bs with
  | nil => cases h
  | cons op args =>
    have hone (hn : some 1 = some (args.length + 1)) : args = [] := by simpa using hn
    rw [decodeCommand] at h
    split_ifs at h with h1 h2 h3 h4 h5 <;> obtain rfl := Option.some.inj h
    · subst h1
      rw [hone hlen]
      exact ⟨rfl, rfl⟩
    · subst h2
      exact encode_decPoll_of_length hlen
    · subst h3
      rw [hone hlen]
      exact ⟨rfl, rfl⟩
    · subst h4
      rw [commandLength_pidUpdate] at hlen
      exact ⟨rfl, encode_pidUpdate_of_length (Nat.succ.inj (Option.some.inj hlen)).symm⟩
    · subst h5
      rw [commandLength_readReg] at hlen
      obtain ⟨reg, rfl⟩ := List.length_eq_one_iff.mp (Nat.succ.inj (Option.some.inj hlen)).symm
      exact ⟨rfl, rfl⟩

/-- Settles O3: the bytes taken for a command are as many as its length, so they are its encoding. -/
theorem decodedBytesAreTheEncoding : Obligations.DecodedBytesAreTheEncoding := by
  intro bs i rest h
  obtain ⟨n, hlen, hn, hcommand, rfl⟩ := decode_eq_command h
  have htake : commandLength (bs.take n) = some (bs.take n).length := by
    rw [List.length_take_of_le hn, commandLength_take hlen]
  obtain ⟨hwf, hbytes⟩ := encode_of_decodeCommand htake hcommand
  exact ⟨hwf, by rw [hbytes, List.take_append_drop]⟩

/-! ### A step and the command stream -/

/-- Settles O5: with the pin not asserted, a step is what the decoder finds at the head of the stream. -/
theorem stepRunsTheDecodedCommand : Obligations.StepRunsTheDecodedCommand :=
  fun _ _ _ hr hd => step_of_command hr hd

/-- Before the last byte of a command the decoder waits (30_encoding.md R99). -/
theorem decode_take_encode {i : Instr} (h : i.wf = true) {k : Nat} (hk : k < (encode i).length) :
    decode ((encode i).take k) = .incomplete := by
  cases hn : commandLength ((encode i).take k) with
  | none => simp only [decode, hn]
  | some n =>
    have hwhole := commandLength_append hn ((encode i).drop k)
    have hlen := commandLength_encode i [] h
    rw [List.take_append_drop] at hwhole
    rw [List.append_nil, hwhole, ← encode_length i] at hlen
    rw [decode_of_length hn, if_pos]
    rwa [List.length_take_of_le hk.le, Option.some.inj hlen]

theorem step_of_incomplete {s : State} (hr : s.rst = false) (hd : decode s.cmd = .incomplete) :
    step s = .refused .awaitingCommandBytes := by
  simp only [step, hr, hd, Bool.false_eq_true, if_false]

/-- Settles O7: the cut encoding is incomplete, and with the missing bytes the stream is the encoding. -/
theorem partialCommandWaitsForItsBytes : Obligations.PartialCommandWaitsForItsBytes := by
  intro s i k hwf hr hcmd hk
  refine ⟨step_of_incomplete hr (by rw [hcmd, decode_take_encode hwf hk]), ?_⟩
  have hwhole : (s.deliver ((encode i).drop k)).cmd = encode i ++ [] := by
    rw [deliver_cmd, hcmd, List.take_append_drop, List.append_nil]
  exact step_of_command hr (by rw [hwhole, decode_encode_append hwf])

/-! ### Responses -/

/-- Settles O8: no command writes anything but the units and the end of the response stream. -/
theorem everyCommandCompletesWithOneResponse : Obligations.EveryCommandCompletesWithOneResponse := by
  intro i s
  obtain ⟨d, p, r, e, hr⟩ := exec_next i s
  exact ⟨_, r, e, rfl, hr, rfl, rfl, rfl⟩

theorem length_flatten_of_length_eq {α : Type} {lists : List (List α)} {n : Nat} (h : ∀ l ∈ lists, l.length = n) :
    lists.flatten.length = lists.length * n := by
  rw [List.length_flatten, List.map_congr_left h, List.map_const', List.sum_replicate, smul_eq_mul]

theorem length_packRecord (c : Config) (r : Emitted) : (packRecord c r).length = 12 := rfl

theorem length_updateResult (out : Binary64) (sat clamped first : Bool) :
    (updateResult out sat clamped first).length = 9 := by
  rw [updateResult, List.length_append, word64Bytes_length]
  rfl

/-- A READ_REG is refused with one status byte, or answers the eight bytes of a register (30_encoding.md R110). -/
theorem execReadReg_response (reg : Byte) (s : State) :
    (∃ st, st ≠ Status.ok ∧ execReadReg reg s = .next { s with resp := s.resp ++ [st.code] }) ∨
    (∃ v, execReadReg reg s = .next { s with resp := s.resp ++ 0x00 :: word64Bytes v }) := by
  unfold execReadReg
  cases regValue reg s with
  | some v => exact .inr ⟨v, respondOk_eq _ s⟩
  | none => exact .inl ⟨.badRegister, by decide, refuseWith_eq _ s⟩

/-- Legality, test by test (70_reset_and_hazards.md R313). -/
theorem legal_iff (c : Config) :
    c.legal = true ↔ c.gainsLegal = true ∧ c.timesLegal = true ∧ (17 ≤ c.bufCap ∧ c.bufCap < 1114112) ∧
      (c.m2InfoByte = 13 ∨ c.m2InfoByte = 14) ∧ c.scaleTableLegal = true := by
  simp only [Config.legal, Bool.and_eq_true, decide_eq_true_eq, and_assoc]

/-- BUF_CAP holds too few frames for the 16-bit count of a poll's records to wrap (30_encoding.md R107). -/
theorem length_records_le {now : Binary64} {data : List Byte} {s : State} (hs : s.Inv) (ha : PollAccepted now data s) :
    (pollSteps s.cfg now data s.dec).records.length ≤ chunkMax := by
  obtain ⟨junk, frames, hbuf, hframes, -, hrec, -⟩ := pollSteps_partition s.cfg now data s.dec
  obtain ⟨-, -, ⟨-, hcap⟩, -⟩ := (legal_iff s.cfg).mp hs.legal
  have hfits := ha.fits
  have hlen := congrArg List.length hbuf
  rw [List.length_append, List.length_append, List.length_append,
    length_flatten_of_length_eq fun f hf => (hframes f hf).1] at hlen
  rw [hrec, List.length_map, chunkMax]
  omega

/-- The result of a poll: the flags, the count of its records in two bytes, and the records (30_encoding.md R107). -/
theorem pollResult_count (c : Config) {x : Extraction} (h : x.records.length ≤ chunkMax) :
    ∃ flags hi lo recs, pollResult c x = flags :: hi :: lo :: recs ∧
      recs.length = 12 * (hi.toNat * 256 + lo.toNat) := by
  refine ⟨pollFlags x.dec, BitVec.ofNat 8 (x.records.length / 256), BitVec.ofNat 8 x.records.length,
    (x.records.map (packRecord c)).flatten, ?_, ?_⟩
  · rw [pollResult, beBytes_two]
    rfl
  · have hrecords : ∀ l ∈ x.records.map (packRecord c), l.length = 12 :=
      List.forall_mem_map.mpr fun r _ => length_packRecord c r
    rw [← u16be_toNat, u16be_count _ h, length_flatten_of_length_eq hrecords, List.length_map, Nat.mul_comm]

/-- Settles O9: each command is refused with one status byte, or answers 0x00 and its result bytes. -/
theorem responseLengths : Obligations.ResponseLengths := by
  intro i s hs
  cases i with
  | decReset => exact ⟨_, _, execDecReset_eq s, rfl, .inr ⟨rfl, rfl⟩⟩
  | pidReset => exact ⟨_, _, execPidReset_eq s, rfl, .inr ⟨rfl, rfl⟩⟩
  | decPoll now data =>
    obtain ⟨st, hst, -, e⟩ | ⟨hnone, e⟩ := execDecPoll_cases now data s
    · exact ⟨_, _, e, rfl, .inl ⟨st, hst, rfl⟩⟩
    · have hcount := length_records_le hs ((pollRefusal_none_iff now data s).mp hnone)
      obtain ⟨flags, hi, lo, recs, hresult, hrecs⟩ := pollResult_count s.cfg hcount
      refine ⟨_, _, e, rfl, .inr ⟨rfl, flags, hi, lo, recs, by rw [hresult], ?_⟩⟩
      rw [hresult, ← hrecs, Nat.add_comm]
      rfl
  | pidUpdate sp pv =>
    obtain ⟨st, hst, e⟩ | ⟨-, -, -, e⟩ | ⟨-, -, -, -, e⟩ := execPidUpdate_cases sp pv s
    · exact ⟨_, _, e, rfl, .inl ⟨st, hst, rfl⟩⟩
    · exact ⟨_, _, e, rfl, .inr ⟨rfl, congrArg (· + 1) (length_updateResult _ _ _ _)⟩⟩
    · exact ⟨_, _, e, rfl, .inr ⟨rfl, congrArg (· + 1) (length_updateResult _ _ _ _)⟩⟩
  | readReg reg =>
    obtain ⟨st, hst, e⟩ | ⟨v, e⟩ := execReadReg_response reg s
    · exact ⟨_, _, e, rfl, .inl ⟨st, hst, rfl⟩⟩
    · exact ⟨_, _, e, rfl, .inr ⟨rfl, congrArg (· + 1) (word64Bytes_length v)⟩⟩

/-! ### The fields of a frame and its packed record -/

/-- Only the used bytes and bits reach the fields (30_encoding.md R91). -/
theorem frameFields_congr {c : Config} {f g : List Byte}
    (hbytes : ∀ k ∈ [5, 6, 7, 8, 10, 11, 12, c.m2InfoByte], frameByte f k = frameByte g k)
    (hsuf : (frameByte f 2).getLsbD 7 = (frameByte g 2).getLsbD 7)
    (hfsel : ∀ b ∈ [5, 6, 7], (frameByte f 3).getLsbD b = (frameByte g 3).getLsbD b) :
    frameFields c f = frameFields c g := by
  have hfsel3 : (frameByte f 3).extractLsb' 5 3 = (frameByte g 3).extractLsb' 5 3 := by
    apply BitVec.eq_of_getLsbD_eq
    intro b hb
    rw [BitVec.getLsbD_extractLsb', BitVec.getLsbD_extractLsb', hfsel (5 + b) (by simp; omega)]
  simp only [List.forall_mem_cons] at hbytes
  obtain ⟨h5, h6, h7, h8, h10, h11, h12, hinfo, -⟩ := hbytes
  simp only [frameFields, hfsel3, hsuf, h5, h6, h7, h8, h10, h11, h12, hinfo]

/-- Settles O27: the record and its packed form are made of the fields. -/
theorem ignoredFrameBitsHaveNoEffect : Obligations.IgnoredFrameBitsHaveNoEffect := by
  intro c f g hbytes hsuf hfsel
  have hfields : frameFields c f = frameFields c g := frameFields_congr hbytes hsuf hfsel
  have hdecode : decodeFrame c f = decodeFrame c g := congrArg (recordOf c) hfields
  exact ⟨hdecode, by rw [emitFrame, emitFrame, hfields, hdecode]⟩

/-- The bits 7:5 of a byte as a number (30_encoding.md R92). -/
theorem toNat_extract_high (b : Byte) : (b.extractLsb' 5 3).toNat = b.toNat / 32 := by
  have := b.isLt
  rw [BitVec.extractLsb'_toNat, Nat.shiftRight_eq_div_pow]
  omega

/-- The bit 7 of a byte as a number (30_encoding.md R93). -/
theorem toNat_getLsbD_seven (b : Byte) : (b.getLsbD 7).toNat = b.toNat / 128 := by
  have := b.isLt
  rw [← BitVec.testBit_toNat, Nat.toNat_testBit]
  omega

theorem infoScale_eq (b : Byte) : infoScale b = BitVec.ofNat 5 (b.toNat / 8) := by
  apply BitVec.eq_of_toNat_eq
  rw [infoScale, BitVec.extractLsb'_toNat, Nat.shiftRight_eq_div_pow, BitVec.toNat_ofNat]

/-- An info byte is its scale code before its exponent (30_encoding.md R96). -/
theorem infoScale_append_infoExponent (b : Byte) : infoScale b ++ infoExponent b = b :=
  (BitVec.extractLsb'_append_extractLsb'_eq_extractLsb' rfl).trans BitVec.extractLsb'_eq_self

/-- Byte 0 of a packed record (30_encoding.md R108). -/
def selectorByte (fsel : BitVec 3) (suf known1 known2 : Bool) : Byte :=
  (fsel.zeroExtend 8 <<< 5) ||| recordBit suf 4 ||| recordBit known1 3 ||| recordBit known2 2

theorem toNat_selectorByte : ∀ (fsel : BitVec 3) (suf known1 known2 : Bool),
    (selectorByte fsel suf known1 known2).toNat =
      fsel.toNat * 32 + suf.toNat * 16 + (if known1 then 8 else 0) + (if known2 then 4 else 0) := by decide

theorem extract_selectorByte : ∀ (fsel : BitVec 3) (suf known1 known2 : Bool),
    (selectorByte fsel suf known1 known2).extractLsb' 5 3 = fsel := by decide

theorem getLsbD_selectorByte : ∀ (fsel : BitVec 3) (suf known1 known2 : Bool),
    (selectorByte fsel suf known1 known2).getLsbD 4 = suf := by decide

theorem toNat_recordBits (a b : Bool) :
    (recordBit a 0 ||| recordBit b 1).toNat = (if a then 1 else 0) + (if b then 2 else 0) := by
  cases a <;> cases b <;> rfl

/-- A legal SCALE_TABLE gives an exponent that fits a signed byte (40_frame_decode.md R136). -/
theorem toInt_ofInt_scaleK {c : Config} (hc : c.legal = true) (s : BitVec 5) :
    (BitVec.ofInt 8 (scaleK c s)).toInt = scaleK c s := by
  obtain ⟨-, -, -, -, hscale⟩ := (legal_iff c).mp hc
  have hrange : -12 ≤ scaleK c s ∧ scaleK c s ≤ 6 := by
    cases hs : c.scaleTable.lookup s with
    | none => simp [scaleK, hs]
    | some k =>
      obtain ⟨before, after, htable, -⟩ := List.lookup_eq_some_iff.mp hs
      simp only [Config.scaleTableLegal, htable, Bool.and_eq_true, List.all_append, List.all_cons,
        decide_eq_true_eq] at hscale
      obtain ⟨-, -, hk, -⟩ := hscale
      simpa [scaleK, hs] using hk
  exact BitVec.toInt_ofInt_eq_self (by decide) (by omega) (by omega)

theorem toInt_scaleByte {c : Config} (hc : c.legal = true) (known : Bool) (s : BitVec 5) :
    (if known then BitVec.ofInt 8 (scaleK c s) else 0).toInt = if known then scaleK c s else 0 := by
  cases known with
  | false => rfl
  | true => exact toInt_ofInt_scaleK hc s

theorem extract_u16be_high (hi lo : Byte) : (u16be hi lo).extractLsb' 8 8 = hi := BitVec.extractLsb'_append_eq_left

theorem extract_u16be_low (hi lo : Byte) : (u16be hi lo).extractLsb' 0 8 = lo := BitVec.extractLsb'_append_eq_right

/-- The packed record of a frame, byte by byte (30_encoding.md R108). -/
theorem packRecord_emitFrame (c : Config) (f : List Byte) {known2 : Bool}
    (h : (quantity2Of c (frameByte f 10)).isSome = known2) :
    packRecord c (emitFrame c f) =
      [ selectorByte ((frameByte f 3).extractLsb' 5 3) ((frameByte f 2).getLsbD 7)
          (quantity1Of c (frameByte f 5) ((frameByte f 2).getLsbD 7)).isSome known2,
        frameByte f 5, frameByte f 10, frameByte f 6, frameByte f 7, frameByte f 8,
        if known2 then frameByte f 11 else 0,
        if known2 then frameByte f 12 else 0,
        if known2 then frameByte f c.m2InfoByte else 0,
        BitVec.ofInt 8 (scaleK c (infoScale (frameByte f 8))),
        if known2 then BitVec.ofInt 8 (scaleK c (infoScale (frameByte f c.m2InfoByte))) else 0,
        recordBit (scaleKnown c (infoScale (frameByte f 8))) 0 |||
          recordBit (known2 && scaleKnown c (infoScale (frameByte f c.m2InfoByte))) 1 ] := by
  cases known2 <;>
    simp [packRecord, emitFrame, decodeFrame, recordOf, frameFields, h, selectorByte, extract_u16be_high,
      extract_u16be_low, infoScale_append_infoExponent]

/-- The host recovers the decoded record from its packed form (30_encoding.md R108). -/
theorem unpackRecord_packRecord {c : Config} (hc : c.legal = true) (f : List Byte) :
    unpackRecord c (packRecord c (emitFrame c f)) = decodeFrame c f := by
  obtain ⟨known2, h⟩ : ∃ known2, (quantity2Of c (frameByte f 10)).isSome = known2 := ⟨_, rfl⟩
  rw [packRecord_emitFrame c f h]
  simp only [unpackRecord, decodeFrame, recordOf, frameFields, MeasurementRecord.mk.injEq]
  refine ⟨congrArg (freqOf c) (extract_selectorByte _ _ _ _),
    congrArg (quantity1Of c _) (getLsbD_selectorByte _ _ _ _),
    congrArg (Decimal.mk _ _) (toInt_ofInt_scaleK hc _), rfl, ?_⟩
  cases known2 with
  | false => exact (if_neg (ne_true_of_eq_false h)).trans (if_neg (ne_true_of_eq_false h)).symm
  | true =>
    refine (if_pos h).trans (Eq.trans ?_ (if_pos h).symm)
    exact congrArg (fun k => some (Decimal.mk _ _ k)) (toInt_ofInt_scaleK hc _)

/-- Settles O31: the packed record of a frame byte by byte, and the record unpacked from it. -/
theorem packedRecordLayoutAndRecovery : Obligations.PackedRecordLayoutAndRecovery := by
  intro c f hc b known1 known2 info2 scale1 scale2
  have hb : b = _ := packRecord_emitFrame c f (known2 := known2) rfl
  have hscale1 : scaleK c (infoScale (f.getD 8 0)) = scale1.getD 0 := by rw [infoScale_eq]; rfl
  have hscale2 : scaleK c (infoScale info2) = scale2.getD 0 := by rw [infoScale_eq]; rfl
  have hrecovered : unpackRecord c b = decodeFrame c f := unpackRecord_packRecord hc f
  rw [hb] at hrecovered ⊢
  refine ⟨rfl, ?_, rfl, rfl, rfl, rfl, rfl, rfl, rfl, rfl, ?_, ?_, ?_, hrecovered⟩
  · refine (toNat_selectorByte _ _ _ _).trans ?_
    rw [toNat_extract_high, toNat_getLsbD_seven]
    rfl
  · exact (toInt_ofInt_scaleK hc _).trans hscale1
  · rw [← hscale2]
    exact toInt_scaleByte hc known2 (infoScale info2)
  · refine (toNat_recordBits _ _).trans ?_
    rw [infoScale_eq, infoScale_eq]
    rfl

end Sys2Proof.Machine

namespace Sys2Proof.Machine

/-! SUPPORT. The proofs for 40_frame_decode.md: the marker test, the decoded fields of a frame, and the value of a measurement. -/

/-! ### The value of a measurement -/

theorem Decimal.value_nonneg (d : Decimal) : 0 ≤ d.value :=
  mul_nonneg (Nat.cast_nonneg _) (zpow_nonneg (by norm_num) _)

/-- The mantissa is below 2^16, and the exponent E only lowers the power of ten (40_frame_decode.md R138). -/
theorem Decimal.value_le_of_k_le {d : Decimal} (hk : d.k ≤ 6) : d.value ≤ 65535 * 10 ^ 6 := by
  have hmant : (d.mant.toNat : ℚ) ≤ 65535 := by exact_mod_cast Nat.le_of_lt_succ d.mant.isLt
  have hpower : (10 : ℚ) ^ (d.k - (d.expo.toNat : Int)) ≤ 10 ^ (6 : Int) :=
    zpow_le_zpow_right₀ (by norm_num) (by omega)
  exact mul_le_mul hmant hpower (zpow_nonneg (by norm_num) _) (by norm_num)

/-- A legal SCALE_TABLE scales by 10^6 at most (40_frame_decode.md R136). -/
theorem scaleK_le_six {c : Config} (hc : c.legal = true) (s : BitVec 5) : scaleK c s ≤ 6 := by
  obtain ⟨-, -, -, -, hscale⟩ := (legal_iff c).mp hc
  simp only [Config.scaleTableLegal, Bool.and_eq_true, List.all_eq_true, decide_eq_true_eq] at hscale
  obtain ⟨-, hrange⟩ := hscale
  unfold scaleK
  cases hs : c.scaleTable.lookup s with
  | none => exact (by decide : (0 : Int) ≤ 6)
  | some k =>
    obtain ⟨before, after, htable, -⟩ := List.lookup_eq_some_iff.mp hs
    exact (hrange (s, k) (by simp [htable])).2

/-- Measurement 2 is present exactly with quantity 2 (40_frame_decode.md R141). -/
theorem measurement2_decodeFrame (c : Config) (f : List Byte) :
    (decodeFrame c f).measurement2 =
      if (decodeFrame c f).quantity2.isSome then
        some { mant := (frameFields c f).m2, expo := (frameFields c f).e2, k := scaleK c (frameFields c f).s2 }
      else none := rfl

/-- Every measurement of a frame takes its power of ten from SCALE_TABLE (40_frame_decode.md R136). -/
theorem exists_scaleK_of_measurement {c : Config} {f : List Byte} {d : Decimal}
    (hd : d = (decodeFrame c f).measurement1 ∨ some d = (decodeFrame c f).measurement2) : ∃ s, d.k = scaleK c s := by
  obtain rfl | h2 := hd
  · exact ⟨_, rfl⟩
  · rw [measurement2_decodeFrame] at h2
    split_ifs at h2
    exact ⟨_, congrArg Decimal.k (Option.some.inj h2)⟩

/-- Settles O29: the mantissa and the scale bound every measurement of a frame. -/
theorem measurementValueIsAnExactDecimal : Obligations.MeasurementValueIsAnExactDecimal := by
  refine ⟨fun _ => rfl, fun c f hc d hd => ⟨d.value_nonneg, ?_⟩, ?_⟩
  · obtain ⟨s, hk⟩ := exists_scaleK_of_measurement hd
    exact Decimal.value_le_of_k_le (hk ▸ scaleK_le_six hc s)
  · have hexample : (Decimal.mk 1234 3 (-3)).value = ((1234 : ℕ) : ℚ) * 10 ^ ((-3 : Int) - (3 : ℕ)) := rfl
    rw [hexample]
    norm_num

/-! ### The decoded fields of a frame -/

theorem u16be_eq_ofNat (hi lo : Byte) : u16be hi lo = BitVec.ofNat 16 (hi.toNat * 256 + lo.toNat) := by
  rw [← u16be_toNat, BitVec.ofNat_toNat, BitVec.setWidth_eq]

/-- The bits 2:0 of an info byte as a number (30_encoding.md R96). -/
theorem infoExponent_eq (b : Byte) : infoExponent b = BitVec.ofNat 3 (b.toNat % 8) := by
  apply BitVec.eq_of_toNat_eq
  rw [infoExponent, BitVec.extractLsb'_toNat, Nat.shiftRight_zero, BitVec.toNat_ofNat, Nat.mod_mod]

/-- Settles O30: measurement 2 is tested on quantity 2, and measurement 1 on nothing. -/
theorem secondMeasurementIsAbsentWithItsQuantity : Obligations.SecondMeasurementIsAbsentWithItsQuantity := by
  intro c f
  refine ⟨?_, Iff.rfl, scaleK c (infoScale (f.getD 8 0)), ?_, ?_⟩
  · rw [measurement2_decodeFrame]
    cases (decodeFrame c f).quantity2 with
    | none => exact iff_of_true rfl rfl
    | some q => exact iff_of_false (Option.some_ne_none _) (Option.some_ne_none _)
  · rw [← u16be_eq_ofNat, ← infoExponent_eq]
    rfl
  · rw [infoScale_eq]
    rfl

theorem frequency_decodeFrame_withGains (kp ki kd dt : Binary64) (f : List Byte) :
    (decodeFrame (Config.withGains kp ki kd dt) f).frequency =
      (defaultFreqTable.lookup ((f.getD 3 0).extractLsb' 5 3)).getD .unknown := rfl

/-- Settles O28: the eight codes of FSEL, looked up in the default table. -/
theorem frequencyCodes : Obligations.FrequencyCodes := by
  intro kp ki kd dt f
  rw [frequency_decodeFrame_withGains, ← toNat_extract_high]
  generalize (f.getD 3 0).extractLsb' 5 3 = fsel
  revert fsel
  decide

/-- Settles O32: sameConfig is the conjunction of the three comparisons. -/
theorem configurationIsTheDecodedTriple : Obligations.ConfigurationIsTheDecodedTriple := by
  intro r r'
  rw [sameConfig, Bool.and_eq_true, Bool.and_eq_true, beq_iff_eq, beq_iff_eq, beq_iff_eq, and_assoc]

/-! ### The marker test -/

/-- A byte that is none of the four marker bytes does not matter (40_frame_decode.md R130). -/
theorem markersOK_set (bs : List Byte) (v : Byte) {i k : Nat}
    (h0 : k ≠ i) (h1 : k ≠ i + 1) (h15 : k ≠ i + 15) (h16 : k ≠ i + 16) :
    markersOK (bs.set k v) i = markersOK bs i := by
  rw [Bool.eq_iff_iff, markersOK_iff, markersOK_iff, List.getElem?_set_ne h0, List.getElem?_set_ne h1,
    List.getElem?_set_ne h15, List.getElem?_set_ne h16]

/-- Settles O58: the four bytes are the marker test's only reads. -/
theorem markerTestComparesFourBytes : Obligations.MarkerTestComparesFourBytes := by
  refine ⟨fun bs i _ => ⟨markersOK_iff bs i, fun k v hk => ?_⟩, fun f => and_congr_right' (markersOK_iff f 0), by decide⟩
  exact markersOK_set bs v (by omega) (by omega) (by omega) (by omega)

end Sys2Proof.Machine

namespace Sys2Proof.Machine

/-! SUPPORT. The proofs for 41_decoder_poll.md: what each step of DEC_POLL writes, the steps on a faulted unit, and the rules
of the accepted, the refused and the reset unit. -/

/-! ### The conversion of a natural -/

/-- Settles O26: a natural up to 2^53 is the value of a finite pattern, and rounding leaves such a value alone. -/
theorem smallNaturalsConvertExactly : Obligations.SmallNaturalsConvertExactly := by
  intro n hn
  obtain ⟨m, hm, hunits⟩ := exists_unitsOf n 1074 hn (by norm_num)
  have hf64 : f64 n = withSign false m := by
    rw [f64, unitsPerOne, ← hunits, roundUnits_unitsOf false m hm]
  have hm63 : m < 2 ^ 63 := by
    rw [infMagnitude_eq] at hm
    omega
  rw [hf64, isFinite_iff, signedUnits_eq, signBit_withSign false hm63, magnitude_withSign false hm63, hunits]
  exact ⟨hm, rfl⟩

/-! ### What each step leaves -/

/-- Step 1 writes BUF and LR only (41_decoder_poll.md R153, R154). -/
theorem pollAppend_frame (now : Binary64) (data : List Byte) (d : DecState) :
    (pollAppend now data d).fault = d.fault ∧ (pollAppend now data d).cause = d.cause ∧
      (pollAppend now data d).t0 = d.t0 ∧ (pollAppend now data d).t1 = d.t1 := by
  rw [pollAppend_eq]
  exact ⟨rfl, rfl, rfl, rfl⟩

theorem pollAppend_lr (now : Binary64) (data : List Byte) (d : DecState) :
    (pollAppend now data d).lr = if data ≠ [] ∨ d.lr = none then some now else d.lr := by
  rw [pollAppend_eq]

/-- LR is present after step 1 (41_decoder_poll.md R154). -/
theorem exists_pollAppend_lr (now : Binary64) (data : List Byte) (d : DecState) :
    ∃ last, (pollAppend now data d).lr = some last := by
  rw [pollAppend_lr]
  split_ifs with h
  · exact ⟨now, rfl⟩
  · exact Option.ne_none_iff_exists'.mp (not_or.mp h).2

/-- Step 2 writes BUF and SYNC only (41_decoder_poll.md R155). -/
theorem pollSync_frame (d : DecState) :
    (pollSync d).fault = d.fault ∧ (pollSync d).cause = d.cause ∧ (pollSync d).lr = d.lr ∧ (pollSync d).t0 = d.t0 ∧
      (pollSync d).t1 = d.t1 ∧ (pollSync d).fc = d.fc ∧ (pollSync d).ec = d.ec := by
  obtain ⟨e, -⟩ | ⟨i, -, -, -, -, e⟩ := pollSync_cases d <;> rw [e] <;> exact ⟨rfl, rfl, rfl, rfl, rfl, rfl, rfl⟩

/-- Steps 1 and 2 leave all that step 3 reads and writes but BUF and SYNC. -/
theorem pollSync_pollAppend_frame (now : Binary64) (data : List Byte) (d : DecState) :
    (pollSync (pollAppend now data d)).fault = d.fault ∧ (pollSync (pollAppend now data d)).cause = d.cause ∧
      (pollSync (pollAppend now data d)).t0 = d.t0 ∧ (pollSync (pollAppend now data d)).t1 = d.t1 ∧
      (pollSync (pollAppend now data d)).fc = d.fc ∧ (pollSync (pollAppend now data d)).ec = d.ec := by
  obtain ⟨hfault, hcause, -, ht0, ht1, hfc, hec⟩ := pollSync_frame (pollAppend now data d)
  obtain ⟨hfault', hcause', ht0', ht1'⟩ := pollAppend_frame now data d
  obtain ⟨-, -, hfc', hec'⟩ := pollAppend_keeps now data d
  exact ⟨hfault.trans hfault', hcause.trans hcause', ht0.trans ht0', ht1.trans ht1', hfc.trans hfc', hec.trans hec'⟩

/-- A unit that step 2 leaves unsynchronized was so before, and no offset passed the test (41_decoder_poll.md R155). -/
theorem pollSync_unsynced {d : DecState} (h : (pollSync d).sync = false) :
    d.sync = false ∧ pollSync d = d ∧ ∀ i, i + 17 ≤ d.buf.length → markersOK d.buf i = false := by
  obtain ⟨e, hs | hnone⟩ | ⟨i, -, -, -, -, e⟩ := pollSync_cases d <;> rw [e] at h
  · exact absurd (h.symm.trans hs) Bool.false_ne_true
  · exact ⟨h, e, hnone⟩
  · cases h

/-- Step 3 leaves SYNC, LR and the causes other than DRIFT (41_decoder_poll.md R157). -/
theorem pollDrift_frame (c : Config) (now : Binary64) (d : DecState) :
    (pollDrift c now d).sync = d.sync ∧ (pollDrift c now d).lr = d.lr ∧
      (pollDrift c now d).cause.marker = d.cause.marker ∧ (pollDrift c now d).cause.stale = d.cause.stale := by
  obtain e | ⟨-, -, -, t, -, e | e | e⟩ := pollDrift_cases c now d <;> rw [e] <;> exact ⟨rfl, rfl, rfl, rfl⟩

theorem markerMismatch_of_faults {c : Config} (h : c.mismatchFaults = true) (d : DecState) :
    markerMismatch c d = raiseFault .marker { d with sync := false } := if_pos h

theorem markerMismatch_of_not_faults {c : Config} (h : c.mismatchFaults = false) (d : DecState) :
    markerMismatch c d = { d with sync := false } := if_neg (by simp [h])

/-- A marker mismatch leaves LR, the estimates and the causes other than MARKER (41_decoder_poll.md R160). -/
theorem markerMismatch_frame (c : Config) (d : DecState) :
    (markerMismatch c d).lr = d.lr ∧ (markerMismatch c d).t0 = d.t0 ∧ (markerMismatch c d).t1 = d.t1 ∧
      (markerMismatch c d).cause.drift = d.cause.drift ∧ (markerMismatch c d).cause.stale = d.cause.stale := by
  cases h : c.mismatchFaults with
  | true => rw [markerMismatch_of_faults h]; exact ⟨rfl, rfl, rfl, rfl, rfl⟩
  | false => rw [markerMismatch_of_not_faults h]; exact ⟨rfl, rfl, rfl, rfl, rfl⟩

/-- Step 4 leaves LR, the estimates and the causes other than MARKER (41_decoder_poll.md R158 to R160). -/
theorem pollExtract_frame (c : Config) (d : DecState) :
    (pollExtract c d).dec.lr = d.lr ∧ (pollExtract c d).dec.t0 = d.t0 ∧ (pollExtract c d).dec.t1 = d.t1 ∧
      (pollExtract c d).dec.cause.drift = d.cause.drift ∧ (pollExtract c d).dec.cause.stale = d.cause.stale := by
  obtain ⟨frames, rest, -, -, -, ⟨e, -⟩ | ⟨e, -⟩⟩ := pollExtract_spec c d <;> rw [e]
  · exact ⟨rfl, rfl, rfl, rfl, rfl⟩
  · exact markerMismatch_frame c _

/-- Step 5 writes FAULT and CAUSE.STALE only (41_decoder_poll.md R162). -/
theorem pollStale_frame (c : Config) (now : Binary64) (d : DecState) :
    (pollStale c now d).sync = d.sync ∧ (pollStale c now d).lr = d.lr ∧ (pollStale c now d).t0 = d.t0 ∧
      (pollStale c now d).t1 = d.t1 ∧ (pollStale c now d).cause.drift = d.cause.drift := by
  obtain e | e := pollStale_cases c now d <;> rw [e] <;> exact ⟨rfl, rfl, rfl, rfl, rfl⟩

/-! ### DEC_RESET -/

/-- DEC_STATUS of a unit after a reset reads 0 (41_decoder_poll.md R166). -/
theorem execReadReg_decStatus_of_reset {t : State} (h : t.dec = .reset) :
    execReadReg 0x00 t = .next { t with resp := t.resp ++ [0x00, 0, 0, 0, 0, 0, 0, 0, 0] } := by
  have hreg : regValue 0x00 t = some (decStatus .reset) := congrArg (fun d => some (decStatus d)) h
  have hbytes : word64Bytes (decStatus .reset) = [0, 0, 0, 0, 0, 0, 0, 0] := by decide
  simp only [execReadReg, hreg, hbytes, respondOk_eq]

/-- Settles O13: DEC_RESET gives the DEC unit its reset value whatever it was. -/
theorem decResetRestoresResetValues : Obligations.DecResetRestoresResetValues := by
  have hdec {s t : State} (h : exec .decReset s = .next t) : t.dec = .reset := by
    rw [← Host.Outcome.next.inj ((execDecReset_eq s).symm.trans h)]
  refine ⟨rfl, execDecReset_eq, fun s t h => ?_, fun s t h => execReadReg_decStatus_of_reset (hdec h)⟩
  exact ⟨_, execDecReset_eq t, (hdec h).symm⟩

/-! ### The refusals and the accepted poll -/

theorem pollRefusal_of_not_finite {now : Binary64} (h : isFinite now = false) (c : Config) (data : List Byte)
    (d : DecState) : pollRefusal c now data d = some .badOperand := if_pos (by simp [h])

theorem pollRefusal_of_overfull {c : Config} {now : Binary64} {data : List Byte} {d : DecState}
    (hn : isFinite now = true) (h : c.bufCap < d.buf.length + data.length) :
    pollRefusal c now data d = some .overflow := by
  rw [pollRefusal, if_neg (by simp [hn]), bufLen_eq, if_pos h]

theorem pollRefusal_of_counter {c : Config} {now : Binary64} {data : List Byte} {d : DecState}
    (hn : isFinite now = true) (hfits : d.buf.length + data.length ≤ c.bufCap)
    (h : 2 ^ 32 ≤ d.fc + (d.buf.length + data.length) / 17) : pollRefusal c now data d = some .overflow := by
  rw [pollRefusal, if_neg (by simp [hn]), bufLen_eq, if_neg hfits.not_gt, counterBound, frameLen, if_pos h]

/-- Settles O33: each refusal is the first test that fails. -/
theorem pollRefusals : Obligations.PollRefusals := fun s _ data =>
  ⟨fun hn => execDecPoll_of_refusal (pollRefusal_of_not_finite hn s.cfg data s.dec),
    fun hn hover => execDecPoll_of_refusal (pollRefusal_of_overfull hn hover),
    fun hn hfits hcount => execDecPoll_of_refusal (pollRefusal_of_counter hn hfits hcount)⟩

theorem pollResult_eq (c : Config) (x : Extraction) :
    pollResult c x =
      [pollFlags x.dec, BitVec.ofNat 8 (x.records.length / 256), BitVec.ofNat 8 x.records.length] ++
        (x.records.map (packRecord c)).flatten := by
  rw [pollResult, beBytes_two]
  rfl

/-- Settles O34: the five steps run in order, and the flags byte is the sum of its bits. -/
theorem acceptedPollCompletes : Obligations.AcceptedPollCompletes := by
  intro s now data ha
  rw [exec_decPoll_of_accepted ha, pollResult_eq, pollFlags_eq]
  rfl

/-! ### LR and the stale link -/

/-- Only step 1 writes LR (41_decoder_poll.md R154). -/
theorem pollSteps_lr (c : Config) (now : Binary64) (data : List Byte) (d : DecState) :
    (pollSteps c now data d).dec.lr = (pollAppend now data d).lr := by
  obtain ⟨-, h5, -⟩ := pollStale_frame c now (pollExtract c (pollBeforeExtract c now data d)).dec
  obtain ⟨h4, -⟩ := pollExtract_frame c (pollBeforeExtract c now data d)
  obtain ⟨-, h3, -⟩ := pollDrift_frame c now (pollSync (pollAppend now data d))
  obtain ⟨-, -, h2, -⟩ := pollSync_frame (pollAppend now data d)
  exact h5.trans (h4.trans (h3.trans h2))

/-- Settles O35: the LR of step 1 is the LR after the command. -/
theorem pollMovesLastReceive : Obligations.PollMovesLastReceive := by
  intro s now data ha
  refine ⟨_, exec_decPoll_of_accepted ha, fun h => ?_, fun hdata hlr => ?_⟩
  · rw [pollSteps_lr, pollAppend_lr, if_pos h]
  · rw [pollSteps_lr, pollAppend_lr, if_neg (not_or.mpr ⟨not_not.mpr hdata, hlr⟩)]

/-- Steps 1 to 4 leave CAUSE.STALE. -/
theorem pollExtract_cause_stale (c : Config) (now : Binary64) (data : List Byte) (d : DecState) :
    (pollExtract c (pollBeforeExtract c now data d)).dec.cause.stale = d.cause.stale := by
  obtain ⟨-, -, -, -, h4⟩ := pollExtract_frame c (pollBeforeExtract c now data d)
  obtain ⟨-, -, -, h3⟩ := pollDrift_frame c now (pollSync (pollAppend now data d))
  obtain ⟨-, h2, -⟩ := pollSync_pollAppend_frame now data d
  exact h4.trans (h3.trans (congrArg Cause.stale h2))

/-- Settles O40: step 5 compares with the LR of step 1, and no earlier step writes CAUSE.STALE. -/
theorem staleLinkRule : Obligations.StaleLinkRule := by
  intro s now data ha
  obtain ⟨last, hlast⟩ := exists_pollAppend_lr now data s.dec
  have hlr : (pollSteps s.cfg now data s.dec).dec.lr = some last := (pollSteps_lr ..).trans hlast
  obtain ⟨-, hlr₅, -⟩ := pollStale_frame s.cfg now (pollExtract s.cfg (pollBeforeExtract s.cfg now data s.dec)).dec
  refine ⟨_, last, exec_decPoll_of_accepted ha, hlr, fun h => ?_, fun h => ?_⟩ <;>
    rw [pollSteps, pollStale_of_some (hlr₅.symm.trans hlr), h]
  · exact ⟨rfl, rfl⟩
  · exact pollExtract_cause_stale s.cfg now data s.dec

/-! ### Sync -/

/-- Settles O37: the least marked offset is unique. -/
theorem syncTakesTheLeastMarkedOffset : Obligations.SyncTakesTheLeastMarkedOffset := by
  intro d marked
  have hmarked (i : Nat) : markersOK d.buf i = true ↔ marked i := markersOK_iff d.buf i
  have hunmarked (i : Nat) : markersOK d.buf i = false ↔ ¬ marked i := by rw [← hmarked, Bool.not_eq_true]
  obtain ⟨e, hwhy⟩ | ⟨i, hs, hlen, hi, hleast, e⟩ := pollSync_cases d
  · refine ⟨fun _ => e, fun _ _ _ => e, fun j hs hlen hj _ => ?_⟩
    obtain hs' | hnone := hwhy
    · exact absurd (hs.symm.trans hs') Bool.false_ne_true
    · exact absurd hj ((hunmarked j).mp (hnone j hlen))
  · refine ⟨fun h => ?_, fun _ _ hnone => absurd ((hmarked i).mp hi) (hnone i hlen), fun j _ _ hj hleast' => ?_⟩
    · obtain hs' | hshort := h
      · exact absurd (hs.symm.trans hs') Bool.false_ne_true
      · omega
    · have hij : ¬ i < j := fun hlt => hleast' i hlt ((hmarked i).mp hi)
      have hji : ¬ j < i := fun hlt => (hunmarked j).mp (hleast j hlt) hj
      obtain rfl : i = j := by omega
      exact e

/-! ### The drift check -/

theorem driftDue_iff (d : DecState) :
    driftDue d = true ↔ d.sync = true ∧ d.fault = false ∧ (d.fc ≠ 0 ∨ d.ec = false) := by
  simp [driftDue, and_assoc]

/-- Step 3, when it is due and sees a partial frame. -/
theorem pollDrift_of_checked {d : DecState} (h : driftDue d = true ∧ partialBytes d ≠ 0) (c : Config) (now : Binary64) :
    pollDrift c now d =
      { driftCompare c (arrivalEstimate c now d) { d with t0 := some (arrivalEstimate c now d) } with
        t1 := some (arrivalEstimate c now d) } := if_pos (by simpa using h)

/-- The comparison reads T1, FC and BUF, and writes FC or raises the fault. -/
theorem driftCompare_of_some {d : DecState} {p : Binary64} (h : d.t1 = some p) (c : Config) (estimate : Binary64)
    (t : Option Binary64) :
    driftCompare c estimate { d with t0 := t } =
      if flt (discrepancy c estimate p d) c.driftTol then { d with t0 := t, fc := 0 }
      else raiseFault .drift { d with t0 := t } := by
  simp only [driftCompare, h]
  rfl

/-- Step 3 without an earlier estimate takes the new one. -/
theorem pollDrift_of_first {d : DecState} (h : driftDue d = true ∧ partialBytes d ≠ 0) (ht1 : d.t1 = none) (c : Config)
    (now : Binary64) :
    pollDrift c now d =
      { d with t0 := some (arrivalEstimate c now d), t1 := some (arrivalEstimate c now d) } := by
  rw [pollDrift_of_checked h]
  simp only [driftCompare, ht1]

/-- Step 3 with an earlier estimate takes the new one, and either starts counting anew or raises the fault. -/
theorem pollDrift_of_later {d : DecState} {p : Binary64} (h : driftDue d = true ∧ partialBytes d ≠ 0)
    (ht1 : d.t1 = some p) (c : Config) (now : Binary64) :
    pollDrift c now d =
      if flt (discrepancy c (arrivalEstimate c now d) p d) c.driftTol then
        { d with t0 := some (arrivalEstimate c now d), t1 := some (arrivalEstimate c now d), fc := 0 }
      else
        { d with t0 := some (arrivalEstimate c now d), t1 := some (arrivalEstimate c now d), fault := true,
                 cause := { d.cause with drift := true } } := by
  rw [pollDrift_of_checked h, driftCompare_of_some ht1]
  split_ifs <;> rfl

/-- Settles O38: step 3 runs when it is due and sees a partial frame, and compares when there is an earlier estimate. -/
theorem driftCheckRule : Obligations.DriftCheckRule := by
  intro c now d part t0 nominal due
  have hdue : driftDue d = true ↔ due := driftDue_iff d
  refine ⟨fun h => ?_, fun hd hp ht1 => pollDrift_of_first ⟨hdue.mpr hd, hp⟩ ht1 c now, fun p hd hp ht1 => ?_⟩
  · exact pollDrift_of_not_checked (fun hc => h.elim (· (hdue.mp hc.1)) hc.2) c now
  · have hrun := pollDrift_of_later ⟨hdue.mpr hd, hp⟩ ht1 c now
    exact ⟨fun hlt => hrun.trans (if_pos hlt), fun hlt => hrun.trans (if_neg (ne_true_of_eq_false hlt))⟩

/-! ### The extraction loop -/

theorem pollExtract_of_unsynced {d : DecState} (h : d.sync = false) (c : Config) :
    pollExtract c d = { dec := d, records := [] } := by
  rw [pollExtract]
  cases d.bufLen / frameLen with
  | zero => rfl
  | succ fuel => rw [extractFrames_succ, if_neg (by simp [h])]

/-- Step 4 ends synchronized with less than a frame left and no fault raised, or at a head that fails the marker test. -/
theorem pollExtract_end {d : DecState} (h : d.sync = true) (c : Config) :
    ((pollExtract c d).dec.sync = true ∧ (pollExtract c d).dec.buf.length < 17 ∧
        (pollExtract c d).dec.fault = d.fault ∧ (pollExtract c d).dec.cause = d.cause) ∨
    ((pollExtract c d).dec.sync = false ∧ 17 ≤ (pollExtract c d).dec.buf.length ∧
        markersOK (pollExtract c d).dec.buf 0 = false ∧
        (c.mismatchFaults = true →
          (pollExtract c d).dec.fault = true ∧ (pollExtract c d).dec.cause = { d.cause with marker := true }) ∧
        (c.mismatchFaults = false → (pollExtract c d).dec.fault = d.fault ∧ (pollExtract c d).dec.cause = d.cause)) := by
  obtain ⟨frames, rest, -, -, -, ⟨e, hend⟩ | ⟨e, -, hlen, hhead⟩⟩ := pollExtract_spec c d <;> rw [e]
  · obtain ⟨hs, -⟩ | ⟨-, hshort⟩ := hend
    · exact absurd (hs.symm.trans h) Bool.false_ne_true
    · exact .inl ⟨h, hshort, rfl, rfl⟩
  · obtain ⟨hbuf, -⟩ := markerMismatch_keeps c (d.afterFrames frames rest)
    refine .inr ⟨markerMismatch_sync c _, ?_, ?_, fun hf => ?_, fun hf => ?_⟩
    · rw [hbuf]
      exact hlen
    · rw [hbuf]
      exact hhead
    · rw [markerMismatch_of_faults hf]
      exact ⟨rfl, rfl⟩
    · rw [markerMismatch_of_not_faults hf]
      exact ⟨rfl, rfl⟩

/-- Step 4 leaves a whole frame in BUF only where it leaves the unit unsynchronized (41_decoder_poll.md R158). -/
theorem pollExtract_unsynced_or_short (c : Config) (d : DecState) :
    (pollExtract c d).dec.sync = false ∨ (pollExtract c d).dec.buf.length < 17 := by
  cases hs : d.sync with
  | false =>
    rw [pollExtract_of_unsynced hs]
    exact .inl hs
  | true =>
    obtain ⟨-, hshort, -⟩ | ⟨hlost, -⟩ := pollExtract_end hs c
    · exact .inr hshort
    · exact .inl hlost

/-- Step 4 counts the records it emits, and completes a frame with the first (41_decoder_poll.md R159). -/
theorem pollExtract_counts (c : Config) (d : DecState) :
    (pollExtract c d).dec.fc = d.fc + (pollExtract c d).records.length ∧
      (pollExtract c d).dec.ec = (d.ec || !(pollExtract c d).records.isEmpty) := by
  obtain ⟨frames, -, -, hrec, hfc, hec⟩ := pollExtract_partition c d
  rw [hrec, List.length_map, List.isEmpty_map]
  exact ⟨hfc, hec⟩

/-- Settles O39: the loop does not run unsynchronized, and else ends in one of two ways. -/
theorem extractionLoopEndsByTheRules : Obligations.ExtractionLoopEndsByTheRules := by
  intro c d x
  obtain ⟨hfc, hec⟩ := pollExtract_counts c d
  obtain ⟨hlr, ht0, ht1, -⟩ := pollExtract_frame c d
  refine ⟨fun hs => pollExtract_of_unsynced hs c, pollExtract_unsynced_or_short c d, hfc, hec, hlr, ht0, ht1,
    fun hs hx => ?_, fun hs hx => ?_⟩
  · obtain ⟨-, -, hkept⟩ | ⟨hlost, -⟩ := pollExtract_end hs c
    · exact hkept
    · exact absurd (hlost.symm.trans hx) Bool.false_ne_true
  · obtain ⟨hstays, -⟩ | ⟨-, hlost⟩ := pollExtract_end hs c
    · exact absurd (hx.symm.trans hstays) Bool.false_ne_true
    · exact hlost

/-! ### The sticky fault -/

/-- FAULT and each cause bit set in d is set in d' (41_decoder_poll.md R163). -/
structure KeepsFaults (d d' : DecState) : Prop where
  fault  : d.fault = true → d'.fault = true
  drift  : d.cause.drift = true → d'.cause.drift = true
  marker : d.cause.marker = true → d'.cause.marker = true
  stale  : d.cause.stale = true → d'.cause.stale = true

theorem KeepsFaults.of_eq {d d' : DecState} (hf : d'.fault = d.fault) (hc : d'.cause = d.cause) : KeepsFaults d d' where
  fault := (hf.trans ·)
  drift := (congrArg Cause.drift hc).trans
  marker := (congrArg Cause.marker hc).trans
  stale := (congrArg Cause.stale hc).trans

theorem KeepsFaults.trans {d d' d'' : DecState} (h : KeepsFaults d d') (h' : KeepsFaults d' d'') : KeepsFaults d d'' where
  fault := h'.fault ∘ h.fault
  drift := h'.drift ∘ h.drift
  marker := h'.marker ∘ h.marker
  stale := h'.stale ∘ h.stale

/-- Raising a fault clears no bit. -/
theorem raiseFault_keepsFaults (x : FaultCause) (d : DecState) : KeepsFaults d (raiseFault x d) := by
  refine ⟨fun _ => rfl, ?_, ?_, ?_⟩ <;> cases x <;> simp +contextual

theorem pollDrift_keepsFaults (c : Config) (now : Binary64) (d : DecState) : KeepsFaults d (pollDrift c now d) := by
  obtain e | ⟨-, -, -, t, -, e | e | e⟩ := pollDrift_cases c now d <;> rw [e]
  · exact .of_eq rfl rfl
  · exact .of_eq rfl rfl
  · exact .of_eq rfl rfl
  · have hestimate : KeepsFaults d { d with t0 := some t, t1 := some t } := .of_eq rfl rfl
    exact hestimate.trans (raiseFault_keepsFaults .drift _)

theorem markerMismatch_keepsFaults (c : Config) (d : DecState) : KeepsFaults d (markerMismatch c d) := by
  have hunsynced : KeepsFaults d { d with sync := false } := .of_eq rfl rfl
  cases h : c.mismatchFaults with
  | true =>
    rw [markerMismatch_of_faults h]
    exact hunsynced.trans (raiseFault_keepsFaults .marker _)
  | false =>
    rw [markerMismatch_of_not_faults h]
    exact hunsynced

theorem pollExtract_keepsFaults (c : Config) (d : DecState) : KeepsFaults d (pollExtract c d).dec := by
  obtain ⟨frames, rest, -, -, -, ⟨e, -⟩ | ⟨e, -⟩⟩ := pollExtract_spec c d <;> rw [e]
  · exact .of_eq rfl rfl
  · have hframes : KeepsFaults d (d.afterFrames frames rest) := .of_eq rfl rfl
    exact hframes.trans (markerMismatch_keepsFaults c _)

theorem pollStale_keepsFaults (c : Config) (now : Binary64) (d : DecState) : KeepsFaults d (pollStale c now d) := by
  obtain e | e := pollStale_cases c now d <;> rw [e]
  · exact .of_eq rfl rfl
  · exact raiseFault_keepsFaults .stale d

theorem pollSteps_keepsFaults (c : Config) (now : Binary64) (data : List Byte) (d : DecState) :
    KeepsFaults d (pollSteps c now data d).dec := by
  obtain ⟨hfault, hcause, -⟩ := pollSync_pollAppend_frame now data d
  exact (((KeepsFaults.of_eq hfault hcause).trans (pollDrift_keepsFaults c now _)).trans
    (pollExtract_keepsFaults c _)).trans (pollStale_keepsFaults c now _)

/-- A command of another unit does not write FAULT, and a poll clears none of its bits (41_decoder_poll.md R163). -/
theorem exec_keepsFaults {i : Instr} (hi : i ≠ .decReset) (s : State) :
    ∃ t : State, exec i s = .next t ∧ KeepsFaults s.dec t.dec := by
  have hother (hd : isDecCommand i = false) : ∃ t : State, exec i s = .next t ∧ KeepsFaults s.dec t.dec := by
    obtain ⟨d, p, r, e, -⟩ := exec_next i s
    have hdec := exec_dec_of_not_decCommand hd e
    exact ⟨_, e, .of_eq (congrArg DecState.fault hdec) (congrArg DecState.cause hdec)⟩
  cases i with
  | decReset => exact absurd rfl hi
  | decPoll now data =>
    obtain ⟨st, -, -, e⟩ | ⟨-, e⟩ := execDecPoll_cases now data s
    · exact ⟨_, e, .of_eq rfl rfl⟩
    · exact ⟨_, e, pollSteps_keepsFaults s.cfg now data s.dec⟩
  | pidReset | pidUpdate | readReg => exact hother rfl

/-! ### The steps on a faulted unit -/

theorem pollDrift_faulted (c : Config) (now : Binary64) (d : DecState) :
    pollDrift c now { d with fault := true } = { d with fault := true } := by
  refine pollDrift_of_not_checked (fun h => ?_) c now
  obtain ⟨-, hfault, -⟩ := (driftDue_iff _).mp h.1
  cases hfault

theorem pollAppend_faulted (now : Binary64) (data : List Byte) (d : DecState) :
    pollAppend now data { d with fault := true } = { pollAppend now data d with fault := true } := by
  rw [pollAppend_eq, pollAppend_eq]

theorem pollSync_faulted (d : DecState) : pollSync { d with fault := true } = { pollSync d with fault := true } := by
  rw [pollSync_eq, pollSync_eq]
  split_ifs
  · cases syncOffset d.buf <;> rfl
  · rfl

theorem markerMismatch_faulted (c : Config) (d : DecState) :
    markerMismatch c { d with fault := true } = { markerMismatch c d with fault := true } := by
  cases h : c.mismatchFaults with
  | true => rw [markerMismatch_of_faults h, markerMismatch_of_faults h]; rfl
  | false => rw [markerMismatch_of_not_faults h, markerMismatch_of_not_faults h]

theorem extractFrames_faulted (c : Config) (fuel : Nat) (d : DecState) :
    extractFrames c fuel { d with fault := true } =
      { dec := { (extractFrames c fuel d).dec with fault := true }, records := (extractFrames c fuel d).records } := by
  induction fuel generalizing d with
  | zero => rfl
  | succ fuel ih =>
    have hlater : extractFrames c fuel (acceptFrame { d with fault := true }) = _ := ih (acceptFrame d)
    rw [extractFrames_succ, extractFrames_succ, hlater, markerMismatch_faulted]
    split_ifs <;> rfl

theorem pollExtract_faulted (c : Config) (d : DecState) :
    pollExtract c { d with fault := true } =
      { dec := { (pollExtract c d).dec with fault := true }, records := (pollExtract c d).records } :=
  extractFrames_faulted c _ d

theorem pollStale_faulted (c : Config) (now : Binary64) (d : DecState) :
    pollStale c now { d with fault := true } = { pollStale c now d with fault := true } := by
  obtain hnone | ⟨last, hlast⟩ := Option.eq_none_or_eq_some d.lr
  · simp only [pollStale, hnone]
  · have hlast' : DecState.lr { d with fault := true } = some last := hlast
    rw [pollStale_of_some hlast' c now, pollStale_of_some hlast c now]
    split_ifs <;> rfl

/-- Settles O41: raising is the only write of FAULT and CAUSE in a poll, and only step 3 reads FAULT. -/
theorem faultIsSticky : Obligations.FaultIsSticky := by
  refine ⟨fun i s hi => ?_, fun s => ⟨_, execDecReset_eq s, rfl, rfl⟩, fun s hr => ?_, fun c now data d d' hd => ?_⟩
  · obtain ⟨t, e, h⟩ := exec_keepsFaults hi s
    exact ⟨t, e, h.fault, h.drift, h.marker, h.stale⟩
  · exact ⟨s.blockReset, by simp only [step, hr, if_true], rfl, rfl⟩
  · subst hd
    rw [pollExtract_faulted]
    exact ⟨pollDrift_faulted c now d, pollAppend_faulted now data d, pollSync_faulted d, rfl, rfl,
      pollStale_faulted c now d⟩

/-! ### The consequences of R165 -/

/-- A poll ends synchronized with less than a frame in BUF (41_decoder_poll.md R165, 1). -/
theorem pollSteps_synced {c : Config} {now : Binary64} {data : List Byte} {d : DecState}
    (h : (pollSteps c now data d).dec.sync = true) : (pollSteps c now data d).dec.buf.length ≤ 16 := by
  obtain ⟨hsync, -⟩ := pollStale_frame c now (pollExtract c (pollBeforeExtract c now data d)).dec
  obtain ⟨hbuf, -⟩ := pollStale_keeps c now (pollExtract c (pollBeforeExtract c now data d)).dec
  dsimp only [pollSteps] at h ⊢
  rw [hsync] at h
  rw [hbuf]
  obtain hlost | hshort := pollExtract_unsynced_or_short c (pollBeforeExtract c now data d)
  · exact absurd (hlost.symm.trans h) Bool.false_ne_true
  · omega

/-- A poll ends unsynchronized since step 2 found no offset or since step 4 met a mismatch (41_decoder_poll.md R165, 2). -/
theorem pollSteps_unsynced {c : Config} {now : Binary64} {data : List Byte} {d : DecState}
    (h : (pollSteps c now data d).dec.sync = false) :
    (d.sync = false ∧ (pollSteps c now data d).dec.buf = d.buf ++ data ∧
        ∀ i, i + 17 ≤ (d.buf ++ data).length → markersOK (d.buf ++ data) i = false) ∨
    (17 ≤ (pollSteps c now data d).dec.buf.length ∧ markersOK (pollSteps c now data d).dec.buf 0 = false) := by
  obtain ⟨hsync₅, -⟩ := pollStale_frame c now (pollExtract c (pollBeforeExtract c now data d)).dec
  obtain ⟨hbuf₅, -⟩ := pollStale_keeps c now (pollExtract c (pollBeforeExtract c now data d)).dec
  obtain ⟨hsync₃, -⟩ := pollDrift_frame c now (pollSync (pollAppend now data d))
  obtain ⟨hbuf₃, -⟩ := pollDrift_keeps c now (pollSync (pollAppend now data d))
  obtain ⟨hbuf₁, hsync₁, -⟩ := pollAppend_keeps now data d
  dsimp only [pollSteps] at h ⊢
  rw [hsync₅] at h
  rw [hbuf₅]
  cases hs : (pollBeforeExtract c now data d).sync with
  | false =>
    obtain ⟨hs₁, e, hnone⟩ := pollSync_unsynced (hsync₃.symm.trans hs)
    rw [hsync₁] at hs₁
    rw [hbuf₁] at hnone
    refine .inl ⟨hs₁, ?_, hnone⟩
    rw [pollExtract_of_unsynced hs, pollBeforeExtract, hbuf₃, e, hbuf₁]
  | true =>
    obtain ⟨hstays, -⟩ | ⟨-, hlen, hhead, -⟩ := pollExtract_end hs c
    · exact absurd (h.symm.trans hstays) Bool.false_ne_true
    · exact .inr ⟨hlen, hhead⟩

/-- The counter after the poll is the one after step 3, and the records (41_decoder_poll.md R165, 3). -/
theorem pollSteps_fc (c : Config) (now : Binary64) (data : List Byte) (d : DecState) :
    (pollSteps c now data d).dec.fc =
      (pollDrift c now (pollSync (pollAppend now data d))).fc + (pollSteps c now data d).records.length := by
  obtain ⟨-, hstale, -⟩ := pollStale_keeps c now (pollExtract c (pollBeforeExtract c now data d)).dec
  obtain ⟨hextract, -⟩ := pollExtract_counts c (pollBeforeExtract c now data d)
  exact hstale.trans hextract

/-- Only step 3 writes CAUSE.DRIFT, T1 and T0 (41_decoder_poll.md R165, 4 and 5). -/
theorem pollSteps_drift (c : Config) (now : Binary64) (data : List Byte) (d : DecState) :
    (pollSteps c now data d).dec.cause.drift = (pollDrift c now (pollSync (pollAppend now data d))).cause.drift ∧
      (pollSteps c now data d).dec.t1 = (pollDrift c now (pollSync (pollAppend now data d))).t1 ∧
      (pollSteps c now data d).dec.t0 = (pollDrift c now (pollSync (pollAppend now data d))).t0 := by
  obtain ⟨-, -, ht0, ht1, hdrift⟩ := pollStale_frame c now (pollExtract c (pollBeforeExtract c now data d)).dec
  obtain ⟨-, ht0', ht1', hdrift', -⟩ := pollExtract_frame c (pollBeforeExtract c now data d)
  exact ⟨hdrift.trans hdrift', ht1.trans ht1', ht0.trans ht0'⟩

/-- Where step 3 is not due or sees no partial frame, the poll leaves what only step 3 writes. -/
theorem pollSteps_drift_of_not_checked {now : Binary64} {data : List Byte} {d : DecState}
    (h : ¬ (driftDue (pollSync (pollAppend now data d)) = true ∧ partialBytes (pollSync (pollAppend now data d)) ≠ 0))
    (c : Config) :
    (pollSteps c now data d).dec.cause.drift = d.cause.drift ∧ (pollSteps c now data d).dec.t1 = d.t1 ∧
      (pollSteps c now data d).dec.t0 = d.t0 := by
  obtain ⟨-, hcause, ht0, ht1, -⟩ := pollSync_pollAppend_frame now data d
  have hwritten := pollSteps_drift c now data d
  rwa [pollDrift_of_not_checked h, hcause, ht1, ht0] at hwritten

/-- Settles O42: each consequence is about the step that alone can break it. -/
theorem pollConsequences : Obligations.PollConsequences := by
  intro s now data ha buf before part checked t0 nominal noLoss
  obtain ⟨hfault, -, -, ht1, hfc, hec⟩ : before.fault = s.dec.fault ∧ _ ∧ _ ∧ before.t1 = s.dec.t1 ∧
    before.fc = s.dec.fc ∧ before.ec = s.dec.ec := pollSync_pollAppend_frame now data s.dec
  have hchecked : (driftDue before = true ∧ partialBytes before ≠ 0) ↔ checked := by
    rw [driftDue_iff, hfault, hfc, hec, and_assoc, and_assoc]
    rfl
  have hdiscrepancy (p : Binary64) :
      discrepancy s.cfg (arrivalEstimate s.cfg now before) p before = fsub (fsub t0 p) nominal := by
    rw [discrepancy, nominalTime, hfc]
    rfl
  have hfc₃ : (pollDrift s.cfg now before).fc = if noLoss then 0 else s.dec.fc := by
    rw [pollDrift_fc, hfc]
    refine if_congr ?_ rfl rfl
    rw [← and_assoc, hchecked, ht1]
    simp only [hdiscrepancy, noLoss]
  have hkept (h : ¬ checked) := pollSteps_drift_of_not_checked (mt hchecked.mp h) s.cfg
  refine ⟨_, (pollSteps s.cfg now data s.dec).records.length, _, _, exec_decPoll_of_accepted ha,
    congrArg (s.resp ++ 0x00 :: ·) (pollResult_eq s.cfg _), ?_, pollSteps_synced, pollSteps_unsynced,
    fun h => ?_, fun h => ?_, fun h => (hkept fun ⟨_, _, _, hpart⟩ => hpart h).1, hkept⟩
  · rw [length_flatten_of_length_eq (List.forall_mem_map.mpr fun r _ => length_packRecord s.cfg r), List.length_map,
      Nat.mul_comm]
  · exact (pollSteps_fc s.cfg now data s.dec).trans (by rw [hfc₃, if_pos h, Nat.zero_add])
  · exact (pollSteps_fc s.cfg now data s.dec).trans (by rw [hfc₃, if_neg h])

end Sys2Proof.Machine

namespace Sys2Proof.Machine

/-! SUPPORT. The proofs for 42_pid.md: the reset, the first call, the later updates and their refusals, the range of the
output, and the held setpoint. -/

/-! ### The flags byte and the clamp -/

/-- The flags byte of the first call is FIRST and SAT (30_encoding.md R109). -/
theorem updateFlags_of_first (sat : Bool) : updateFlags sat false true = if sat then 0x05 else 0x04 := by
  cases sat <;> rfl

/-- The flags byte of a later update is SAT and CLAMPED (30_encoding.md R109). -/
theorem updateFlags_of_later (sat clamped : Bool) :
    updateFlags sat clamped false = BitVec.ofNat 8 ((if sat then 1 else 0) + (if clamped then 2 else 0)) := by
  cases sat <;> cases clamped <;> rfl

/-- The clamp's output and its flag, each by itself (42_pid.md R196). -/
theorem clampOutput_eq (raw : Binary64) :
    clampOutput raw = (if flt raw posZero then posZero else if fgt raw one then one else raw,
      flt raw posZero || fgt raw one) := by
  obtain ⟨hl, e⟩ | ⟨hl, hg, e⟩ | ⟨hl, hg, e⟩ := clampOutput_cases raw
  · simp [e, hl]
  · simp [e, hl, hg]
  · simp [e, hl, hg]

/-- What the first call stores, field by field (42_pid.md R191). -/
theorem storeFirst_eq (c : Config) (sp pv : Binary64) (p : PidState) :
    storeFirst c sp pv p =
      { p with pv := some pv, pe := if c.firstCallError = .store then fsub sp pv else p.pe } := by
  cases h : c.firstCallError <;> simp [storeFirst, h]

/-- The numeric refusal test, term by term (42_pid.md R199). -/
theorem anyNaN_eq_true_iff (t : PidTerms) :
    t.anyNaN = true ↔
      isNaN t.error = true ∨ isNaN t.integral = true ∨ isNaN t.deriv = true ∨ isNaN t.raw = true := by
  simp only [PidTerms.anyNaN, Bool.or_eq_true, or_assoc]

theorem anyNaN_eq_false_iff (t : PidTerms) :
    t.anyNaN = false ↔
      isNaN t.error = false ∧ isNaN t.integral = false ∧ isNaN t.deriv = false ∧ isNaN t.raw = false := by
  rw [← Bool.not_eq_true, anyNaN_eq_true_iff]
  simp only [not_or, Bool.not_eq_true]

/-! ### The statements that follow the branches of PID_UPDATE -/

/-- Settles O46: a refusal writes only its status, the first call answers +0.0, and a later update answers a clamped
number. -/
theorem pidOutputStaysInTheUnitInterval : Obligations.PidOutputStaysInTheUnitInterval := by
  intro s t sp pv h
  obtain ⟨st, hst, e⟩ | ⟨-, -, -, e⟩ | ⟨-, -, hn, ht, e⟩ := execPidUpdate_cases sp pv s <;>
    obtain rfl := Host.Outcome.next.inj (e.symm.trans h)
  · exact .inl ⟨st, hst, rfl⟩
  · exact .inr ⟨posZero, _, rfl, fun _ => rfl, by decide, signedUnits_posZero.ge,
      signedUnits_posZero.trans_le (Int.natCast_nonneg _)⟩
  · obtain ⟨-, -, -, hraw⟩ := anyNaN_eq_false ht
    exact .inr ⟨_, _, rfl, fun h0 => absurd h0 hn, clampOutput_range hraw⟩

/-- Settles O14: the reset writes the reset state whatever stood there. -/
theorem pidResetRestoresResetValues : Obligations.PidResetRestoresResetValues := by
  refine ⟨rfl, execPidReset_eq, fun s t h => ⟨_, execPidReset_eq t, ?_⟩⟩
  rw [← Host.Outcome.next.inj ((execPidReset_eq s).symm.trans h)]

/-- Settles O43: the branch of PID_UPDATE with PV absent. -/
theorem pidFirstCall : Obligations.PidFirstCall := by
  intro s sp pv hn hsp hpv
  refine (execPidUpdate_of_first ⟨hsp, hpv⟩ hn).trans ?_
  rw [storeFirst_eq, updateResult, updateFlags_of_first]
  rfl

/-- Settles O44: the branch of PID_UPDATE with PV present and no NaN among the terms. -/
theorem pidUpdateFollowsTheRules : Obligations.PidUpdateFollowsTheRules := by
  intro s sp pv prev hprev hsp hpv e i d raw out clamped he hi hd hraw
  have hn : s.pid.pv ≠ none := by simp [hprev]
  have ht : pidTerms s.cfg s.pid sp pv = ⟨e, i, d, raw⟩ := rfl
  have hnumbers : PidTerms.anyNaN ⟨e, i, d, raw⟩ = false := (anyNaN_eq_false_iff _).mpr ⟨he, hi, hd, hraw⟩
  refine (execPidUpdate_of_not_anyNaN ⟨hsp, hpv⟩ hn ht hnumbers).trans ?_
  rw [clampOutput_eq, updateResult, updateFlags_of_later]
  rfl

/-- Settles O45: the two refusing branches of PID_UPDATE. -/
theorem pidUpdateRefusals : Obligations.PidUpdateRefusals := by
  intro s sp pv
  refine ⟨fun h => execPidUpdate_of_not_finite ?_ s, ?_⟩
  · rintro ⟨hsp, hpv⟩
    simp [hsp, hpv] at h
  · intro prev hsp hpv hprev e i d raw hnan
    exact execPidUpdate_of_anyNaN ⟨hsp, hpv⟩ (by simp [hprev]) ((anyNaN_eq_true_iff _).mpr hnan)

/-! ### Sums, products and quotients with a zero -/

/-- The value of a pattern fixes its magnitude bits, so its kind. -/
theorem magnitude_eq_of_signedUnits_eq {x y : Binary64} (h : signedUnits x = signedUnits y) :
    magnitude x = magnitude y := by
  apply unitsOf_strictMono.injective
  rw [← units_eq, ← units_eq, ← natAbs_signedUnits, ← natAbs_signedUnits, h]

theorem isFinite_eq_of_signedUnits_eq {x y : Binary64} (h : signedUnits x = signedUnits y) :
    isFinite x = isFinite y := by
  rw [Bool.eq_iff_iff, isFinite_iff, isFinite_iff, magnitude_eq_of_signedUnits_eq h]

theorem isNaN_eq_of_signedUnits_eq {x y : Binary64} (h : signedUnits x = signedUnits y) : isNaN x = isNaN y := by
  rw [Bool.eq_iff_iff, isNaN_iff, isNaN_iff, magnitude_eq_of_signedUnits_eq h]

theorem signedUnits_eq_zero_iff (x : Binary64) : signedUnits x = 0 ↔ units x = 0 := by
  rw [← Int.natAbs_eq_zero, natAbs_signedUnits]

theorem addFinite_comm (x y : Binary64) : addFinite x y = addFinite y x := by
  simp only [addFinite, add_comm (signedUnits x), Bool.and_comm (signBit x)]

/-- A finite value is its own rounding, so adding a zero keeps it. -/
theorem signedUnits_addFinite_zero {x z : Binary64} (hx : isFinite x = true) (hz : units z = 0) :
    signedUnits (addFinite x z) = signedUnits x := by
  have hm : magnitude x < infMagnitude := (isFinite_iff x).mp hx
  have hsum : signedUnits x + signedUnits z = signedUnits x := by rw [(signedUnits_eq_zero_iff z).mpr hz, add_zero]
  obtain ⟨h0, b, hb⟩ | ⟨-, b, n, hb, hs, hn⟩ := addFinite_cases x z
  · rw [hb, signedUnits_withSign_zero, ← h0, hsum]
  · rw [hsum] at hs hn
    rw [natAbs_signedUnits, units_eq] at hn
    rw [hb, ← hs, hn, roundUnits_unitsOf b _ hm, signedUnits_eq, signBit_withSign b (magnitude_lt x),
      magnitude_withSign b (magnitude_lt x)]
    rfl

/-- A sum with a zero, on either side, has the other operand's value, also where that is infinite. -/
theorem signedUnits_fadd_zero {x z : Binary64} (hx : isNaN x = false) (hz : units z = 0) :
    signedUnits (fadd x z) = signedUnits x ∧ signedUnits (fadd z x) = signedUnits x := by
  have hzf := isFinite_of_units_eq_zero hz
  obtain ⟨hn, -, -⟩ | ⟨-, hi, -⟩ | ⟨-, -, hf⟩ := kind_cases x
  · exact absurd (hx.symm.trans hn) Bool.false_ne_true
  · have hleft : fadd x z = x := by simp [fadd_of_isInf_left hi (isNaN_of_isFinite hzf), isInf_of_isFinite hzf]
    rw [hleft, fadd_of_isInf_right hzf hi]
    exact ⟨rfl, rfl⟩
  · rw [fadd_of_finite hf hzf, fadd_of_finite hzf hf, addFinite_comm z x]
    exact ⟨signedUnits_addFinite_zero hf hz, signedUnits_addFinite_zero hf hz⟩

/-- x - x is +0.0: of x and its opposite not both are negative. -/
theorem fsub_self {x : Binary64} (hx : isFinite x = true) : fsub x x = posZero := by
  have hsum : signedUnits x + signedUnits (fneg x) = 0 := by rw [signedUnits_fneg, add_neg_cancel]
  rw [fsub, fadd_of_sum_eq_zero hx (by rw [isFinite_fneg, hx]) hsum, if_neg]
  · rfl
  · rintro ⟨rfl, h⟩
    exact absurd h (by decide)

theorem roundUnits_zero (neg : Bool) {den : Nat} (h : 0 < den) : roundUnits neg 0 den = withSign neg 0 := by
  have hq : quantum 0 den = 0 := by simp [quantum]
  have hs : significand 0 den = 0 := Nat.le_zero.mp (divHalfEven_le (by positivity) (Nat.zero_le _))
  rw [roundUnits_eq, hq, hs]
  rfl

theorem fmul_of_zero_factor {x y : Binary64} (hx : isFinite x = true) (hy : isFinite y = true)
    (h : units x = 0 ∨ units y = 0) : fmul x y = withSign (signBit x != signBit y) 0 := by
  rw [fmul_of_finite hx hy, Nat.mul_eq_zero.mpr h, roundUnits_zero _ unitsPerOne_pos]

theorem fdiv_of_zero_dividend {x y : Binary64} (hx : units x = 0) (hy : isFinite y = true) (hy0 : units y ≠ 0) :
    fdiv x y = withSign (signBit x != signBit y) 0 := by
  rw [fdiv_of_finite (isFinite_of_units_eq_zero hx) hy hy0, hx, Nat.zero_mul,
    roundUnits_zero _ (Nat.pos_of_ne_zero hy0)]

theorem units_withSign_zero (neg : Bool) : units (withSign neg 0) = 0 :=
  (signedUnits_eq_zero_iff _).mp (signedUnits_withSign_zero neg)

theorem fgt_posZero_iff {x : Binary64} (hx : isFinite x = true) :
    fgt x posZero = true ↔ signBit x = false ∧ units x ≠ 0 := by
  rw [fgt, flt_iff isNaN_posZero (isNaN_of_isFinite hx), signedUnits_posZero, signedUnits]
  cases signBit x <;> simp [Nat.pos_iff_ne_zero]

/-! ### The held setpoint (42_pid.md R202) -/

/-- The controller's constants in range, test by test (00_scope.md R11, R12). -/
theorem gainsLegal_iff (c : Config) :
    c.gainsLegal = true ↔ isFinite c.kp = true ∧ isFinite c.ki = true ∧ isFinite c.kd = true ∧ isFinite c.dt = true ∧
      fgt c.dt posZero = true ∧ isFinite c.windupLimit = true ∧ fge c.windupLimit posZero = true := by
  simp only [Config.gainsLegal, Bool.and_eq_true, and_assoc]

/-- An error of +0.0 is within every legal limit and adds +0.0 to the integral. -/
theorem newIntegral_of_zero_error {c : Config} (hc : c.gainsLegal = true) (i : Binary64) :
    newIntegral c i posZero = fadd i posZero := by
  obtain ⟨-, -, -, hdt, hdtpos, hw, hwpos⟩ := (gainsLegal_iff c).mp hc
  obtain ⟨hsign, -⟩ := (fgt_posZero_iff hdt).mp hdtpos
  have hlimit : ¬ fgt (fabs posZero) c.windupLimit = true := by
    have habs : fabs posZero = posZero := by decide
    rw [fge, fle_iff isNaN_posZero (isNaN_of_isFinite hw)] at hwpos
    rw [habs, fgt, flt_iff (isNaN_of_isFinite hw) isNaN_posZero]
    omega
  have hproduct : fmul posZero c.dt = posZero := by
    rw [fmul_of_zero_factor (by decide) hdt (.inl (by decide)), hsign]
    rfl
  rw [newIntegral, if_neg hlimit, hproduct]

theorem units_derivative_of_zero_errors {c : Config} (hc : c.gainsLegal = true) :
    units (derivative c posZero posZero) = 0 := by
  obtain ⟨-, -, -, hdt, hdtpos, -⟩ := (gainsLegal_iff c).mp hc
  obtain ⟨-, hdt0⟩ := (fgt_posZero_iff hdt).mp hdtpos
  rw [derivative, fsub_self (by decide), fdiv_of_zero_dividend (by decide) hdt hdt0, units_withSign_zero]

/-- With no error and no derivative the sum has the value of KI * I, also where that product overflows. -/
theorem signedUnits_outputSum_of_zero_error {c : Config} (hc : c.gainsLegal = true) {i d : Binary64}
    (hi : isFinite i = true) (hd : units d = 0) :
    signedUnits (outputSum c posZero i d) = signedUnits (fmul c.ki i) := by
  obtain ⟨hkp, hki, hkd, -⟩ := (gainsLegal_iff c).mp hc
  have hp : units (fmul c.kp posZero) = 0 := by
    rw [fmul_of_zero_factor hkp (by decide) (.inr (by decide)), units_withSign_zero]
  have hd' : units (fmul c.kd d) = 0 := by
    rw [fmul_of_zero_factor hkd (isFinite_of_units_eq_zero hd) (.inr hd), units_withSign_zero]
  have hv : isNaN (fmul c.ki i) = false := isNaN_fmul hki hi
  obtain ⟨-, hsum⟩ := signedUnits_fadd_zero hv hp
  have hsumNumber : isNaN (fadd (fmul c.kp posZero) (fmul c.ki i)) = false := (isNaN_eq_of_signedUnits_eq hsum).trans hv
  exact (signedUnits_fadd_zero hsumNumber hd').1.trans hsum

/-- The clamp's output depends on the value of its operand only. -/
theorem signedUnits_clampOutput_congr {x y : Binary64} (hy : isNaN y = false) (h : signedUnits x = signedUnits y) :
    signedUnits (clampOutput x).1 = signedUnits (clampOutput y).1 := by
  have hx : isNaN x = false := (isNaN_eq_of_signedUnits_eq h).trans hy
  have hlow : flt x posZero = flt y posZero := by
    rw [Bool.eq_iff_iff, flt_iff hx isNaN_posZero, flt_iff hy isNaN_posZero, h]
  have hhigh : fgt x one = fgt y one := by
    rw [Bool.eq_iff_iff, fgt, fgt, flt_iff isNaN_one hx, flt_iff isNaN_one hy, h]
  simp only [clampOutput_eq, hlow, hhigh]
  split_ifs
  · rfl
  · rfl
  · exact h

/-- The terms of an update with pv = sp after an error of +0.0. -/
theorem pidTerms_of_held {c : Config} (hc : c.gainsLegal = true) {p : PidState} (hpe : p.pe = posZero) {sp : Binary64}
    (hsp : isFinite sp = true) :
    pidTerms c p sp sp =
      { error := posZero, integral := fadd p.i posZero, deriv := derivative c posZero posZero,
        raw := outputSum c posZero (fadd p.i posZero) (derivative c posZero posZero) } := by
  simp only [pidTerms, fsub_self hsp, hpe, newIntegral_of_zero_error hc]

/-- Settles O49: the error and the derivative are zeros, so the sum is KI * I. -/
theorem heldSetpointIsASteadyState : Obligations.HeldSetpointIsASteadyState := by
  intro s sp prev hlegal hprev hpe hi hsp v held
  obtain ⟨hc, -⟩ := (legal_iff s.cfg).mp hlegal
  obtain ⟨-, hki, -⟩ := (gainsLegal_iff s.cfg).mp hc
  have hintegral : signedUnits (fadd s.pid.i posZero) = signedUnits s.pid.i :=
    (signedUnits_fadd_zero (isNaN_of_isFinite hi) (by decide)).1
  have hfinite : isFinite (fadd s.pid.i posZero) = true := (isFinite_eq_of_signedUnits_eq hintegral).trans hi
  have hderiv := units_derivative_of_zero_errors hc
  have hv : isNaN v = false := isNaN_fmul hki hfinite
  have hraw := signedUnits_outputSum_of_zero_error hc hfinite hderiv
  have hheld : (clampOutput v).1 = held := by
    rw [clampOutput_eq]
    rfl
  refine ⟨_, _, _, execPidUpdate_of_not_anyNaN ⟨hsp, hsp⟩ (by simp [hprev]) (pidTerms_of_held hc hpe hsp) ?_,
    rfl, hintegral, rfl, ?_⟩
  · rw [anyNaN_eq_false_iff]
    exact ⟨isNaN_posZero, isNaN_of_isFinite hfinite, isNaN_of_isFinite (isFinite_of_units_eq_zero hderiv),
      (isNaN_eq_of_signedUnits_eq hraw).trans hv⟩
  · rw [← hheld]
    exact signedUnits_clampOutput_congr hv hraw

end Sys2Proof.Machine

namespace Sys2Proof.Machine

/-! SUPPORT. The proofs for 43_register_access.md: which numbers have a register, what a register reads, what READ_REG
answers, and the reserved opcodes. -/

/-! ### Which numbers have a register, and what a register reads -/

/-- The match of RegValue has an arm for exactly the numbers R220 lists. -/
theorem isSome_regValue_iff (reg : Byte) (s : State) : (regValue reg s).isSome = true ↔ registerDefined reg := by
  unfold regValue registerDefined
  split
  all_goals
    simp only [Option.isSome_some, Option.isSome_none, Bool.false_eq_true, true_iff, false_iff, imp_false] at *
    omega

theorem regValue_of_not_defined {reg : Byte} (h : ¬ registerDefined reg) (s : State) : regValue reg s = none := by
  rwa [← isSome_regValue_iff reg s, Bool.not_eq_true, Option.isSome_eq_false_iff, Option.isNone_iff_eq_none] at h

/-- No register reads a stream or the reset pin. -/
theorem regValue_congr {s s' : State} (hc : s'.cfg = s.cfg) (hd : s'.dec = s.dec) (hp : s'.pid = s.pid) (reg : Byte) :
    regValue reg s' = regValue reg s := by
  simp only [regValue, hc, hd, hp]

/-- From 0x20 on a register reads the parameters alone. -/
theorem regValue_congr_cfg {s s' : State} (hc : s'.cfg = s.cfg) {reg : Byte} (h : 0x20 ≤ reg.toNat) :
    regValue reg s' = regValue reg s := by
  by_cases hdef : registerDefined reg
  · obtain hr | hr | hr | hr | hr := hdef
    · omega
    · omega
    · obtain ⟨hlo, hhi⟩ := hr
      interval_cases hn : reg.toNat <;> simp only [regValue, hn, hc]
    · obtain ⟨hlo, hhi⟩ := hr
      interval_cases hn : reg.toNat <;> simp only [regValue, hn, hc]
    · simp only [regValue, hr]
  · rw [regValue_of_not_defined hdef, regValue_of_not_defined hdef]

theorem decStatus_reset : decStatus .reset = 0 := by decide

theorem pidStatus_reset : pidStatus .reset = 0 := by decide

/-- After a reset the registers of the two units read 0 (10_state.md R53). -/
theorem regValue_resetWith (c : Config) {reg : Byte}
    (h : reg.toNat ≤ 0x05 ∨ (0x10 ≤ reg.toNat ∧ reg.toNat ≤ 0x13)) :
    regValue reg (State.resetWith c) = some 0 := by
  obtain hhi | ⟨hlo, hhi⟩ := h
  · interval_cases hn : reg.toNat <;> simp only [regValue, hn, resetWith_dec, decStatus_reset] <;> rfl
  · interval_cases hn : reg.toNat <;> simp only [regValue, hn, resetWith_pid, pidStatus_reset] <;> rfl

/-! ### The registers made of bits -/

/-- The word x denotes v, and its bits from n on are 0. -/
structure DenotesBelow {w : Nat} (x : BitVec w) (v n : Nat) : Prop where
  toNat_eq : x.toNat = v
  lt : v < 2 ^ n

theorem denotesBelow_zero {w : Nat} : DenotesBelow 0#w 0 0 where
  toNat_eq := BitVec.toNat_zero
  lt := by decide

/-- A field that begins above every set bit of a word adds its weight. -/
theorem DenotesBelow.toNat_or {w v n k m : Nat} {x y : BitVec w} (h : DenotesBelow x v n) (hnk : n ≤ k)
    (hy : y.toNat = 2 ^ k * m) : (x ||| y).toNat = v + 2 ^ k * m := by
  have hv : v < 2 ^ k := h.lt.trans_le (Nat.pow_le_pow_right Nat.two_pos hnk)
  rw [BitVec.toNat_or, h.toNat_eq, hy, Nat.or_comm, ← Nat.two_pow_add_eq_or_of_lt hv, Nat.add_comm]

theorem toNat_flagAt {w k : Nat} (hk : k < w) (b : Bool) : (flagAt w k b).toNat = 2 ^ k * b.toNat := by
  cases b with
  | false => exact BitVec.toNat_zero
  | true => exact (BitVec.toNat_twoPow_of_lt hk).trans (Nat.mul_one _).symm

/-- A flag above every set bit of a word adds its weight. -/
theorem DenotesBelow.or_flagAt {w v n : Nat} {x : BitVec w} (h : DenotesBelow x v n) (k : Nat) (hnk : n ≤ k)
    (hk : k < w) (b : Bool) : DenotesBelow (x ||| flagAt w k b) (v + if b then 2 ^ k else 0) (k + 1) := by
  have hv : v < 2 ^ k := h.lt.trans_le (Nat.pow_le_pow_right Nat.two_pos hnk)
  have hweight : 2 ^ k * b.toNat = if b then 2 ^ k else 0 := by cases b <;> simp
  refine ⟨(h.toNat_or hnk (toNat_flagAt hk b)).trans (by rw [hweight]), ?_⟩
  rw [Nat.pow_succ]
  split_ifs <;> omega

theorem denotesBelow_flagAt_zero {w : Nat} (hw : 0 < w) (b : Bool) :
    DenotesBelow (flagAt w 0 b) (if b then 2 ^ 0 else 0) 1 := by
  simpa only [BitVec.zero_or, Nat.zero_add] using denotesBelow_zero.or_flagAt 0 le_rfl hw b

/-- DEC_STATUS is the sum of its bits: each flag stands above the ones before it. -/
theorem toNat_decStatus (d : DecState) :
    (decStatus d).toNat =
      (if d.sync then 2 ^ 0 else 0) + (if d.fault then 2 ^ 1 else 0) + (if d.ec then 2 ^ 2 else 0) +
      (if d.lr.isSome then 2 ^ 3 else 0) + (if d.t0.isSome then 2 ^ 4 else 0) + (if d.t1.isSome then 2 ^ 5 else 0) +
      (if d.cause.drift then 2 ^ 8 else 0) + (if d.cause.marker then 2 ^ 9 else 0) +
      (if d.cause.stale then 2 ^ 10 else 0) := by
  have hlink := denotesBelow_flagAt_zero (w := 64) (by decide) d.sync
    |>.or_flagAt 1 (by decide) (by decide) d.fault
    |>.or_flagAt 2 (by decide) (by decide) d.ec
  have htimes := hlink.or_flagAt 3 (by decide) (by decide) d.lr.isSome
    |>.or_flagAt 4 (by decide) (by decide) d.t0.isSome
    |>.or_flagAt 5 (by decide) (by decide) d.t1.isSome
  have hcauses := htimes.or_flagAt 8 (by decide) (by decide) d.cause.drift
    |>.or_flagAt 9 (by decide) (by decide) d.cause.marker
    |>.or_flagAt 10 (by decide) (by decide) d.cause.stale
  exact hcauses.toNat_eq

theorem denotesBelow_two_flags (b0 b1 : Bool) :
    DenotesBelow (flagAt 64 0 b0 ||| flagAt 64 1 b1) ((if b0 then 2 ^ 0 else 0) + if b1 then 2 ^ 1 else 0) 2 :=
  (denotesBelow_flagAt_zero (by decide) b0).or_flagAt 1 le_rfl (by decide) b1

theorem toNat_pidStatus (p : PidState) :
    (pidStatus p).toNat = (if p.pv.isSome then 2 ^ 0 else 0) + (if p.sat then 2 ^ 1 else 0) :=
  (denotesBelow_two_flags p.pv.isSome p.sat).toNat_eq

/-- CFG_FLAGS is the sum of its two bits and M2_INFO_BYTE in its second byte (70_reset_and_hazards.md R313). -/
theorem toNat_cfgFlags {c : Config} (h : c.m2InfoByte = 13 ∨ c.m2InfoByte = 14) :
    (cfgFlags c).toNat =
      (if c.mismatchFaults then 2 ^ 0 else 0) + (if c.firstCallError == .store then 2 ^ 1 else 0) +
      c.m2InfoByte * 256 := by
  have hinfo : (BitVec.ofNat 64 c.m2InfoByte <<< 8).toNat = 2 ^ 8 * c.m2InfoByte := by
    obtain h | h := h <;> rw [h] <;> rfl
  rw [Nat.mul_comm]
  exact (denotesBelow_two_flags c.mismatchFaults (c.firstCallError == .store)).toNat_or (by decide) hinfo

/-- The invariant bounds every number a register shows: none is cut to 64 bits (10_state.md R32, R39). -/
theorem State.Inv.registerNumbers_lt {s : State} (hs : s.Inv) :
    s.dec.buf.length < 2 ^ 64 ∧ s.dec.fc < 2 ^ 64 ∧ s.cfg.bufCap < 2 ^ 64 := by
  obtain ⟨-, -, ⟨-, hcap⟩, -⟩ := (legal_iff s.cfg).mp hs.legal
  have hfits := hs.dec.bufFits
  have hcount := hs.dec.counterBounded
  omega

theorem map_toNat_some_ofNat {n : Nat} (h : n < 2 ^ 64) : (some (BitVec.ofNat 64 n)).map BitVec.toNat = some n :=
  congrArg some (Nat.mod_eq_of_lt h)

/-- Settles O51: the registers made of bits are sums, the numbers fit, and the rest is read as it stands. -/
theorem registerValues : Obligations.RegisterValues := by
  intro s hs d p c bit
  obtain ⟨hbuf, hfc, hcap⟩ := hs.registerNumbers_lt
  obtain ⟨-, -, -, hinfo, -⟩ := (legal_iff s.cfg).mp hs.legal
  exact ⟨congrArg some (toNat_decStatus d), map_toNat_some_ofNat hbuf, map_toNat_some_ofNat hfc, rfl, rfl, rfl,
    congrArg some (toNat_pidStatus p), rfl, rfl, rfl, rfl, rfl, rfl, rfl, rfl, rfl, rfl, rfl, rfl,
    map_toNat_some_ofNat hcap, congrArg some (toNat_cfgFlags hinfo), rfl, rfl, rfl, rfl⟩

/-! ### READ_REG -/

theorem exec_readReg_of_some {reg : Byte} {s : State} {v : Word64} (h : regValue reg s = some v) :
    exec (.readReg reg) s = .next { s with resp := s.resp ++ 0x00 :: word64Bytes v } := by
  simp only [exec, execReadReg, h, respondOk_eq]

theorem exec_readReg_of_none {reg : Byte} {s : State} (h : regValue reg s = none) :
    exec (.readReg reg) s = .next { s with resp := s.resp ++ [0x03] } := by
  simp only [exec, execReadReg, h, refuseWith_eq, Status.code]

/-- Settles O50: a register's value is answered exactly where the map has one. -/
theorem readRegAnswersEveryNumber : Obligations.ReadRegAnswersEveryNumber := by
  refine fun s reg => ⟨fun h => ?_, fun h => exec_readReg_of_none (regValue_of_not_defined h s)⟩
  obtain ⟨v, hv⟩ := Option.isSome_iff_exists.mp ((isSome_regValue_iff reg s).mpr h)
  exact ⟨v, hv, exec_readReg_of_some hv⟩

/-- READ_REG's response is fixed by the parameters and the two units, and nothing else changes. -/
theorem exec_readReg_reads (reg : Byte) (s : State) :
    ∃ r : List Byte, ∀ s' : State, s'.cfg = s.cfg → s'.dec = s.dec → s'.pid = s.pid →
      exec (.readReg reg) s' = .next { s' with resp := s'.resp ++ r } := by
  cases hv : regValue reg s with
  | some v =>
    exact ⟨0x00 :: word64Bytes v, fun s' hc hd hp => exec_readReg_of_some ((regValue_congr hc hd hp reg).trans hv)⟩
  | none => exact ⟨[0x03], fun s' hc hd hp => exec_readReg_of_none ((regValue_congr hc hd hp reg).trans hv)⟩

/-- A command's effect and response are fixed by the parameters and the two units: no command reads the streams. -/
theorem exec_reads (i : Instr) (s : State) :
    ∃ d p r, ∀ s' : State, s'.cfg = s.cfg → s'.dec = s.dec → s'.pid = s.pid →
      exec i s' = .next { s' with dec := d, pid := p, resp := s'.resp ++ r } := by
  by_cases hdec : isDecCommand i = true
  · obtain ⟨d, r, h⟩ := exec_decCommand_reads hdec s.cfg s.dec
    exact ⟨d, s.pid, r, fun s' hc hd hp => hp ▸ h s' hc hd⟩
  by_cases hpid : isPidCommand i = true
  · obtain ⟨p, r, h⟩ := exec_pidCommand_reads hpid s.cfg s.pid
    exact ⟨s.dec, p, r, fun s' hc hd hp => hd ▸ h s' hc hp⟩
  cases i with
  | readReg reg =>
    obtain ⟨r, h⟩ := exec_readReg_reads reg s
    exact ⟨s.dec, s.pid, r, fun s' hc hd hp => hd ▸ hp ▸ h s' hc hd hp⟩
  | decReset | decPoll => exact absurd rfl hdec
  | pidReset | pidUpdate => exact absurd rfl hpid

/-- Settles O52: a read lengthens the response stream, which no command reads, and no step writes the parameters. -/
theorem readingRegistersIsHarmless : Obligations.ReadingRegistersIsHarmless := by
  refine ⟨fun s reg => ?_, fun s t reg h hreg => regValue_congr_cfg (stepKeepsTheParameters s t h) hreg,
    fun c _ h => regValue_resetWith c h⟩
  obtain ⟨r, hread⟩ := exec_readReg_reads reg s
  refine ⟨_, r, hread s rfl rfl rfl, rfl, ⟨_, hread { s with resp := s.resp ++ r } rfl rfl rfl, rfl⟩, fun i v hv => ?_⟩
  obtain ⟨d, p, q, hexec⟩ := exec_reads i s
  obtain rfl := Host.Outcome.next.inj ((hexec s rfl rfl rfl).symm.trans hv)
  exact ⟨_, q, hexec { s with resp := s.resp ++ r } rfl rfl rfl, rfl, rfl, rfl, rfl⟩

/-! ### Reserved opcodes -/

/-- A reserved opcode is a command of one byte (30_encoding.md R112). -/
theorem decode_reserved {op : Byte} (h : op ∉ ([0x01, 0x02, 0x11, 0x12, 0xF0] : List Byte)) (rest : List Byte) :
    decode (op :: rest) = .reserved op rest := by
  simp only [List.mem_cons, List.not_mem_nil, or_false, not_or] at h
  obtain ⟨hDecReset, hDecPoll, hPidReset, hPidUpdate, hReadReg⟩ := h
  have hcommand : decodeCommand [op] = none := by
    simp only [decodeCommand, opDecReset, opDecPoll, opPidReset, opPidUpdate, opReadReg, *, if_false]
  have hlong : ¬ (op :: rest).length < 1 := by simp
  rw [decode_of_length (commandLength_one op rest hDecPoll hPidUpdate hReadReg), if_neg hlong, List.take_succ_cons,
    List.take_zero, hcommand]
  rfl

theorem step_of_reserved {s : State} {op : Byte} {rest : List Byte} (hr : s.rst = false)
    (hd : decode s.cmd = .reserved op rest) : step s = .next { s with cmd := rest, resp := s.resp ++ [0x01] } := by
  simp only [step, hr, hd, answerReserved, refuseWith_eq, Status.code, Bool.false_eq_true, if_false]

/-- Settles O6: the decoder takes the opcode alone, and the step answers it. -/
theorem reservedOpcodeIsAnsweredIllegal : Obligations.ReservedOpcodeIsAnsweredIllegal :=
  fun _ _ rest hr hcmd hop => step_of_reserved hr (hcmd ▸ decode_reserved hop rest)

end Sys2Proof.Machine

namespace Sys2Proof.Machine

/-! SUPPORT. The proofs for 45_host_environment.md: the trajectory, the configuration check, and one tick of the host. -/

/-! ### The exact remainder of two finite values -/

/-- A finite magnitude is at most 53 bits at a quantum. -/
theorem exists_unitsOf_eq_mul (m : Nat) : ∃ q k, q < 2 ^ 53 ∧ unitsOf m = q * 2 ^ k := by
  rw [unitsOf]
  split_ifs with h
  · exact ⟨m, 0, by omega, by simp⟩
  · exact ⟨2 ^ 52 + m % 2 ^ 52, m / 2 ^ 52 - 1, by omega, rfl⟩

/-- Twice a magnitude is a magnitude: its binade is the next one, or its subnormal significand doubles. -/
theorem exists_unitsOf_double (m : Nat) : ∃ n, unitsOf n = unitsOf m * 2 := by
  unfold unitsOf
  by_cases h : m < 2 ^ 52
  · refine ⟨m * 2, ?_⟩
    split_ifs with h2
    · rfl
    · have hexp : m * 2 / 2 ^ 52 - 1 = 0 := by omega
      rw [hexp]
      omega
  · have hexp : (m + 2 ^ 52) / 2 ^ 52 - 1 = m / 2 ^ 52 - 1 + 1 := by omega
    refine ⟨m + 2 ^ 52, ?_⟩
    rw [if_neg (by omega), if_neg h, Nat.add_mod_right, hexp, pow_succ 2 (m / 2 ^ 52 - 1), Nat.mul_assoc]

/-- At most 53 bits at any quantum are a magnitude. -/
theorem exists_unitsOf_of_lt {q : Nat} (hq : q < 2 ^ 53) (k : Nat) : ∃ n, unitsOf n = q * 2 ^ k := by
  induction k with
  | zero =>
    refine ⟨q, ?_⟩
    rw [unitsOf]
    split_ifs
    · omega
    · have hexp : q / 2 ^ 52 - 1 = 0 := by omega
      rw [hexp]
      omega
  | succ k ih =>
    obtain ⟨n, hn⟩ := ih
    rw [pow_succ, ← Nat.mul_assoc, ← hn]
    exact exists_unitsOf_double n

/-- The remainder of two magnitudes is a magnitude: at the smaller of the two quanta it needs no more bits than the
operand that has this quantum. -/
theorem exists_unitsOf_mod (a b : Nat) (hb : 0 < unitsOf b) : ∃ n, unitsOf n = unitsOf a % unitsOf b := by
  obtain ⟨qa, ka, hqa, ha⟩ := exists_unitsOf_eq_mul a
  obtain ⟨qb, kb, hqb, hb'⟩ := exists_unitsOf_eq_mul b
  rw [hb'] at hb
  have hqb0 : 0 < qb := Nat.pos_of_mul_pos_right hb
  rw [ha, hb']
  obtain ⟨j, rfl⟩ | ⟨j, rfl⟩ : (∃ j, ka = j + kb) ∨ ∃ j, kb = j + ka := by
    rcases Nat.le_total kb ka with h | h
    · exact .inl ⟨ka - kb, by omega⟩
    · exact .inr ⟨kb - ka, by omega⟩
  · rw [pow_add, ← Nat.mul_assoc, Nat.mul_mod_mul_right]
    exact exists_unitsOf_of_lt ((Nat.mod_lt _ hqb0).trans hqb) kb
  · rw [pow_add, ← Nat.mul_assoc, Nat.mul_mod_mul_right]
    exact exists_unitsOf_of_lt ((Nat.mod_le _ _).trans_lt hqa) ka

/-! ### The position in the cycle -/

theorem signedUnits_of_nonneg {x : Binary64} (h : 0 ≤ signedUnits x) : signedUnits x = units x := by
  rw [← natAbs_signedUnits, Int.natAbs_of_nonneg h]

theorem validElapsed_iff (elapsed : Binary64) :
    validElapsed elapsed = true ↔ isFinite elapsed = true ∧ 0 ≤ signedUnits elapsed := by
  rw [validElapsed, Bool.and_eq_true]
  refine and_congr_right fun hf => ?_
  rw [fge, fle_iff isNaN_posZero (isNaN_of_isFinite hf), signedUnits_posZero]

/-- A legal trajectory has a finite period above 0 (45_host_environment.md R253). -/
theorem Trajectory.period_of_legal {t : Trajectory} (h : t.legal = true) :
    isFinite t.period = true ∧ 0 < signedUnits t.period := by
  simp only [Trajectory.legal, Bool.and_eq_true] at h
  obtain ⟨⟨⟨-, hf⟩, hpos⟩, -⟩ := h
  rw [fgt, flt_iff isNaN_posZero (isNaN_of_isFinite hf), signedUnits_posZero] at hpos
  exact ⟨hf, hpos⟩

/-- The position in the cycle is the exact remainder: rounding leaves it alone (45_host_environment.md R253). -/
theorem cyclePosition_exact {t : Trajectory} {elapsed : Binary64} (hf : isFinite elapsed = true)
    (hp : 0 < units t.period) :
    isFinite (cyclePosition t elapsed) = true ∧
      signedUnits (cyclePosition t elapsed) = (units elapsed % units t.period : Nat) := by
  rw [units_eq] at hp
  obtain ⟨n, hn⟩ := exists_unitsOf_mod (magnitude elapsed) (magnitude t.period) hp
  have hle : n ≤ magnitude elapsed := by
    rw [← unitsOf_strictMono.le_iff_le, hn]
    exact Nat.mod_le _ _
  have hinf : n < infMagnitude := hle.trans_lt ((isFinite_iff elapsed).mp hf)
  have h63 : n < 2 ^ 63 := hle.trans_lt (magnitude_lt elapsed)
  rw [cyclePosition, units_eq, units_eq, ← hn, roundUnits_unitsOf false n hinf, isFinite_iff, signedUnits_eq,
    magnitude_withSign false h63, signBit_withSign false h63]
  exact ⟨hinf, rfl⟩

/-- Settles O53: division with remainder on whole units of 2^-1074, since the remainder is a binary64 value. -/
theorem iterationAndPositionAreExact : Obligations.IterationAndPositionAreExact := by
  intro traj elapsed hlegal hvalid
  obtain ⟨hf, helapsed⟩ := (validElapsed_iff elapsed).mp hvalid
  obtain ⟨hpf, hpos⟩ := Trajectory.period_of_legal hlegal
  have he := signedUnits_of_nonneg helapsed
  have hp := signedUnits_of_nonneg hpos.le
  have hp0 : 0 < units traj.period := by omega
  obtain ⟨hx, hxu⟩ := cyclePosition_exact hf hp0
  rw [flt_iff (isNaN_of_isFinite hf) (isNaN_of_isFinite hpf), fge,
    fle_iff (isNaN_of_isFinite hpf) (isNaN_of_isFinite hf), hxu, he, hp, Trajectory.iteration]
  refine ⟨hx, ?_, Int.natCast_nonneg _, Int.ofNat_lt.mpr (Nat.mod_lt _ hp0), fun h => ?_, fun h h2 => ?_⟩
  · exact_mod_cast (Nat.div_add_mod' (units elapsed) (units traj.period)).symm
  · exact Nat.div_eq_of_lt (Int.ofNat_lt.mp h)
  · exact Nat.div_eq_of_lt_le (by omega) (by omega)

/-! ### The Step variant -/

/-- Settles O54: the first waypoint that passes the test, or else the last one. -/
theorem stepTrajectoryTakesTheFirstBoundary : Obligations.StepTrajectoryTakesTheFirstBoundary := by
  intro traj elapsed hkind hne
  rw [Trajectory.value, hkind]
  cases hfind : traj.waypoints.find? fun w => fge w.1 (cyclePosition traj elapsed) with
  | some w =>
    obtain ⟨hw, j, hj, hget, hbefore⟩ := List.find?_eq_some_iff_getElem.mp hfind
    refine ⟨j, w, List.getElem?_eq_some_iff.mpr ⟨hj, hget⟩, ?_, fun k u hk hu => ?_, .inl hw⟩
    · simp only [stepValue, hfind]
    · obtain ⟨hlt, rfl⟩ := List.getElem?_eq_some_iff.mp hu
      simpa using hbefore k hk
  | none =>
    have hnone := List.find?_eq_none.mp hfind
    have hlen := List.length_pos_iff.mpr hne
    have hlast := List.getLast?_eq_some_getLast hne
    refine ⟨traj.waypoints.length - 1, traj.waypoints.getLast hne, ?_, ?_, fun k u _ hu => ?_, .inr (by omega)⟩
    · rw [← hlast, List.getLast?_eq_getElem?]
    · simp only [stepValue, hfind, hlast, Option.map_some]
    · simpa using hnone u (List.mem_of_getElem? hu)

/-! ### The configuration check -/

theorem sameConfig_self (r : MeasurementRecord) : sameConfig r r = true :=
  (configurationIsTheDecodedTriple r r).mpr ⟨rfl, rfl, rfl⟩

/-- With a reference the check passes exactly when every record agrees with it (45_host_environment.md R246). -/
theorem checkRecords_some (r0 : MeasurementRecord) (records : List MeasurementRecord) :
    checkRecords (some r0) records = if records.all (sameConfig · r0) then some (some r0) else none := by
  induction records with
  | nil => rfl
  | cons r records ih =>
    rw [checkRecords, ih, List.all_cons]
    cases sameConfig r r0 <;> rfl

/-- The reference is the one kept, or the first record, which agrees with itself (45_host_environment.md R246). -/
theorem checkRecords_of_reference {first : Option MeasurementRecord} {records : List MeasurementRecord}
    {r0 : MeasurementRecord} (h : first.or records.head? = some r0) :
    checkRecords first records = if records.all (sameConfig · r0) then some (some r0) else none := by
  cases first with
  | some r =>
    obtain rfl : r = r0 := Option.some.inj h
    exact checkRecords_some r records
  | none =>
    obtain ⟨later, rfl⟩ := List.head?_eq_some_iff.mp h
    rw [checkRecords, checkRecords_some, List.all_cons, sameConfig_self, Bool.true_and]

/-- Settles O56: the reference is kept, and one differing record fails the check. -/
theorem configurationCheckUsesTheFirstRecord : Obligations.ConfigurationCheckUsesTheFirstRecord := by
  intro first records
  cases h : first.or records.head? with
  | none =>
    obtain ⟨rfl, hhead⟩ := Option.or_eq_none_iff.mp h
    rw [List.head?_eq_none_iff.mp hhead]
    rfl
  | some r0 =>
    rw [checkRecords_of_reference h]
    simp only [← configurationIsTheDecodedTriple _ r0]
    exact ⟨fun hall => if_pos (List.all_eq_true.mpr hall), fun ⟨r, hr, hdiff⟩ =>
      if_neg fun hall => hdiff (List.all_eq_true.mp hall r hr)⟩

/-! ### One command at an idle port -/

theorem State.PortIdle.portIdle_eq_true {s : State} (h : s.PortIdle) : portIdle s = true := by
  simp [portIdle, h.cmd, h.resp, h.rst]

/-- At an idle port the block runs the command, and the host takes its whole response (30_encoding.md R99, R105). -/
theorem transact_of_exec {i : Instr} {s : State} {d : DecState} {p : PidState} {bytes : List Byte} (hs : s.PortIdle)
    (hi : i.wf = true) (he : exec i s = .next { s with dec := d, pid := p, resp := bytes }) :
    transact i s = some (bytes, { s with dec := d, pid := p }) := by
  have hdecode : decode (s.deliver (encode i)).cmd = .command i [] := by
    rw [deliver_cmd, hs.cmd, List.nil_append, ← List.append_nil (encode i), decode_encode_append hi]
  have hstart : { s.deliver (encode i) with cmd := [] } = s := by
    simp only [State.deliver, ← hs.cmd]
  rw [transact, if_pos hs.portIdle_eq_true, step_of_command (s := s.deliver (encode i)) hs.rst hdecode, hstart, he]
  simp only [State.takeResponses, ← hs.resp]

/-! ### The outcomes of a tick -/

theorem tick_of_cancel {x : TickInput} (h : x.cancel = true) (traj : Trajectory) (limit : Nat) (s : State)
    (l : LoopState) : tick traj limit x s l = .ended .cancelled s l := if_pos h

section

variable {traj : Trajectory} {limit : Nat} {x : TickInput} {s s' : State} {l : LoopState} {reply : PollReply}

/-- A tick that is not cancelled polls first, and tests what came of it in order (45_host_environment.md R245). -/
theorem tick_of_polls (hcancel : x.cancel = false)
    (hpolls : runPolls x.now (pollChunks (x.lcrBytes.length / chunkMax) x.lcrBytes) s = some (reply, s')) :
    tick traj limit x s l =
      if x.chamberError then .ended .chamberLinkFault s' l
      else if reply.refused || reply.fault then .ended .lcrLinkFault s' l
      else (checkRecords l.first reply.records).elim (.ended .configurationChanged s' l)
        fun first => tickAfterCheck traj limit x reply.records s' { l with first := first } := by
  simp only [tick, hcancel, hpolls, Bool.false_eq_true, if_false]
  cases checkRecords l.first reply.records <;> rfl

/-- Past the check of step 3 the tick is its steps 4 to 6. -/
theorem tick_of_checked {first : Option MeasurementRecord} (hcancel : x.cancel = false)
    (hchamber : x.chamberError = false)
    (hpolls : runPolls x.now (pollChunks (x.lcrBytes.length / chunkMax) x.lcrBytes) s = some (reply, s'))
    (hrefused : reply.refused = false) (hfault : reply.fault = false)
    (hcheck : checkRecords l.first reply.records = some first) :
    tick traj limit x s l = tickAfterCheck traj limit x reply.records s' { l with first := first } := by
  simp only [tick_of_polls hcancel hpolls, hchamber, hrefused, hfault, hcheck, Bool.or_self, Bool.false_eq_true, if_false,
    Option.elim_some]

end

/-- Step 4 ends the run at the iteration limit (45_host_environment.md R247). -/
theorem tickAfterCheck_of_limit {traj : Trajectory} {limit : Nat} {x : TickInput} {l : LoopState}
    (hvalid : validElapsed (fsub x.now l.runStart) = true) (h : limit ≤ traj.iteration (fsub x.now l.runStart))
    (records : List MeasurementRecord) (s : State) :
    tickAfterCheck traj limit x records s l = .ended .normalCompletion s l := by
  simp only [tickAfterCheck, hvalid, h, Bool.not_true, Bool.false_eq_true, if_false, if_true]

/-- Settles O55: the tests stand in this order in the tick. -/
theorem tickOutcomePrecedence : Obligations.TickOutcomePrecedence := by
  intro traj limit x s l
  refine ⟨fun h => tick_of_cancel h traj limit s l, fun reply s' hcancel hpolls => ⟨fun hchamber => ?_,
    fun hchamber hlink => ?_, fun hchamber hrefused hfault hcheck => ?_,
    fun first hchamber hrefused hfault hcheck hvalid hlimit => ?_⟩⟩
  · rw [tick_of_polls hcancel hpolls, if_pos hchamber]
  · rw [tick_of_polls hcancel hpolls, if_neg (ne_true_of_eq_false hchamber), if_pos ((Bool.or_eq_true _ _).mpr hlink)]
  · rw [tick_of_polls hcancel hpolls, hchamber, hrefused, hfault, hcheck]
    rfl
  · rw [tick_of_checked hcancel hchamber hpolls hrefused hfault hcheck]
    exact tickAfterCheck_of_limit (l := { l with first := first }) hvalid hlimit reply.records s'

/-! ### Steps 5 and 6 -/

/-- Each record joins the measurements as its entry under the reference (45_host_environment.md R250). -/
theorem appendMeasurements_eq (records : List MeasurementRecord) (l : LoopState) :
    appendMeasurements records l =
      { l with meas := l.meas ++ l.first.elim [] fun r0 => records.map (measurementEntry r0) } := by
  obtain ⟨runStart, first, lastPair, temps, meas, writes⟩ := l
  cases first with
  | none => simp [appendMeasurements]
  | some r0 => rfl

/-- The newest sample takes this tick's pair, the older ones the last known pair (45_host_environment.md R248). -/
theorem sampleEntries_concat (last : Option (Binary64 × Binary64)) (pair : Binary64 × Binary64) (older : List Binary64)
    (newest : Binary64) :
    sampleEntries last pair (older ++ [newest]) =
      older.map (fun sample => (sample, last.getD pair)) ++ [(newest, pair)] := by
  simp [sampleEntries]

/-- The host reads the output of an accepted update (30_encoding.md R109). -/
theorem readUpdateReply_accepted (out : Binary64) (flags : Byte) :
    readUpdateReply (0x00 :: (word64Bytes out ++ [flags])) = some out := by
  have htake : (word64Bytes out ++ [flags]).take 8 = word64Bytes out := List.take_left' (word64Bytes_length out)
  simp [readUpdateReply, Status.code, htake]

/-- Only the status OK has the code 0x00 (30_encoding.md R106). -/
theorem Status.code_ne_zero {st : Status} (h : st ≠ .ok) : st.code ≠ 0x00 := by
  cases st with
  | ok => exact absurd rfl h
  | illegal | badOperand | badRegister | overflow | numeric => decide

theorem readUpdateReply_refused {st : Status} (h : st ≠ .ok) : readUpdateReply [st.code] = none :=
  if_neg (Status.code_ne_zero h)

section

variable {sp newest : Binary64} {s : State} {p : PidState} {bytes : List Byte} (hs : s.PortIdle)
  (he : exec (.pidUpdate sp newest) s = .next { s with pid := p, resp := bytes })
include hs he

/-- Step 5 with an accepted update writes the output to the chamber (45_host_environment.md R248). -/
theorem controlStep_of_accepted {out : Binary64} (h : readUpdateReply bytes = some out) (samples : List Binary64)
    (l : LoopState) :
    controlStep sp newest samples s l =
      some ({ s with pid := p }, some ({ l with
        writes := l.writes ++ [out]
        temps := l.temps ++ sampleEntries l.lastPair (sp, out) samples
        lastPair := some (sp, out) }, out)) := by
  simp [controlStep, transact_of_exec hs rfl he, h]

/-- Step 5 with a refused update writes nothing (45_host_environment.md R248). -/
theorem controlStep_of_refused (h : readUpdateReply bytes = none) (samples : List Binary64) (l : LoopState) :
    controlStep sp newest samples s l = some ({ s with pid := p }, none) := by
  simp [controlStep, transact_of_exec hs rfl he, h]

end

section

variable {traj : Trajectory} {limit : Nat} {x : TickInput} {l : LoopState}
  (hvalid : validElapsed (fsub x.now l.runStart) = true) (hlimit : traj.iteration (fsub x.now l.runStart) < limit)
include hvalid hlimit

/-- Without samples there is no step 5 (45_host_environment.md R248). -/
theorem tickAfterCheck_of_no_samples (h : x.samples = []) (records : List MeasurementRecord) (s : State) :
    tickAfterCheck traj limit x records s l = .running s (appendMeasurements records l) none := by
  simp only [tickAfterCheck, hvalid, hlimit.not_ge, h, Bool.not_true, Bool.false_eq_true, if_false, List.getLast?_nil]

variable {newest sp : Binary64} (hnewest : x.samples.getLast? = some newest)
  (hsp : traj.value (fsub x.now l.runStart) = some sp)
include hnewest hsp

/-- With samples an accepted step 5 is followed by step 6. -/
theorem tickAfterCheck_of_accepted {s s' : State} {l' : LoopState} {out : Binary64}
    (h : controlStep sp newest x.samples s l = some (s', some (l', out))) (records : List MeasurementRecord) :
    tickAfterCheck traj limit x records s l = .running s' (appendMeasurements records l') (some out) := by
  simp only [tickAfterCheck, hvalid, hlimit.not_ge, hnewest, hsp, h, Bool.not_true, Bool.false_eq_true, if_false]

/-- A refused update ends the run (45_host_environment.md R252). -/
theorem tickAfterCheck_of_refused {s s' : State} (h : controlStep sp newest x.samples s l = some (s', none))
    (records : List MeasurementRecord) :
    tickAfterCheck traj limit x records s l = .ended .chamberLinkFault s' l := by
  simp only [tickAfterCheck, hvalid, hlimit.not_ge, hnewest, hsp, h, Bool.not_true, Bool.false_eq_true, if_false]

end

/-- Settles O60: past the check the tick is its control step, and the entries of its records. -/
theorem tickControlStep : Obligations.TickControlStep := by
  intro traj limit x s s' l reply first elapsed entries hcancel hchamber hpolls hrefused hfault hcheck hvalid hlimit
  have hentries : entries = first.elim [] fun r0 => reply.records.map (measurementEntry r0) := by
    cases first <;> rfl
  have htick := tick_of_checked (traj := traj) (limit := limit) hcancel hchamber hpolls hrefused hfault hcheck
  -- The reference is no operand of steps 4 and 5.
  have hvalid' : validElapsed (fsub x.now { l with first := first }.runStart) = true := hvalid
  refine ⟨fun hnone => ?_, fun older newest sp p bytes hsamples hsp hidle hexec => ?_⟩
  · rw [htick, tickAfterCheck_of_no_samples hvalid' hlimit hnone, appendMeasurements_eq, hentries]
  · have hnewest : x.samples.getLast? = some newest := by rw [hsamples, List.getLast?_concat]
    refine ⟨fun out flags hbytes => ?_, fun st hst hbytes => ?_⟩
    · have hreply : readUpdateReply bytes = some out := by rw [hbytes, readUpdateReply_accepted]
      rw [htick, tickAfterCheck_of_accepted hvalid' hlimit hnewest hsp (controlStep_of_accepted hidle hexec hreply _ _),
        appendMeasurements_eq, hentries, hsamples, sampleEntries_concat, ← List.append_assoc]
    · have hreply : readUpdateReply bytes = none := by rw [hbytes, readUpdateReply_refused hst]
      rw [htick, tickAfterCheck_of_refused hvalid' hlimit hnewest hsp (controlStep_of_refused hidle hexec hreply _ _)]

/-! ### A poll of whole frames after a reset -/

theorem markersOK_append {f : List Byte} (hf : ValidFrame f) (rest : List Byte) : markersOK (f ++ rest) 0 = true := by
  obtain ⟨hlen, hmarkers⟩ := hf
  rw [markersOK_iff] at hmarkers ⊢
  rwa [List.getElem?_append_left (by omega), List.getElem?_append_left (by omega), List.getElem?_append_left (by omega),
    List.getElem?_append_left (by omega)]

/-- Step 2 with a frame at the head of BUF keeps all of BUF (41_decoder_poll.md R155). -/
theorem pollSync_of_marked_head {d : DecState} (hs : d.sync = false) (hlen : 17 ≤ d.buf.length)
    (h : markersOK d.buf 0 = true) : pollSync d = { d with sync := true } := by
  obtain ⟨-, hs' | hnone⟩ | ⟨i, -, -, -, hleast, e⟩ := pollSync_cases d
  · exact absurd (hs.symm.trans hs') Bool.false_ne_true
  · exact absurd ((hnone 0 hlen).symm.trans h) Bool.false_ne_true
  · cases i with
    | zero => exact e
    | succ i => exact absurd ((hleast 0 i.succ_pos).symm.trans h) Bool.false_ne_true

/-- The loop of step 4 on whole frames takes them all and raises no fault (41_decoder_poll.md R159). -/
theorem extractFrames_of_frames {frames : List (List Byte)} (hvalid : ∀ f ∈ frames, ValidFrame f) (c : Config)
    {d : DecState} (hs : d.sync = true) (hbuf : d.buf = frames.flatten) :
    (extractFrames c frames.length d).records = frames.map (emitFrame c) ∧
      (extractFrames c frames.length d).dec.fault = d.fault := by
  induction frames generalizing d with
  | nil => exact ⟨rfl, rfl⟩
  | cons f later ih =>
    obtain ⟨hf, hlater⟩ := List.forall_mem_cons.mp hvalid
    rw [List.flatten_cons] at hbuf
    have hlen : 17 ≤ d.buf.length := by
      rw [hbuf, List.length_append, hf.1]
      omega
    have hhead : markersOK d.buf 0 = true := by rw [hbuf, markersOK_append hf]
    have htake : d.buf.take 17 = f := by rw [hbuf, List.take_left' hf.1]
    have hdrop : (acceptFrame d).buf = later.flatten := by rw [acceptFrame_buf, hbuf, List.drop_left' hf.1]
    obtain ⟨hrec, hfault⟩ := ih hlater (d := acceptFrame d) hs hdrop
    rw [List.length_cons, extractFrames_succ, if_pos ⟨hs, hlen⟩, if_pos hhead, htake]
    exact ⟨congrArg (emitFrame c f :: ·) hrec, hfault⟩

/-- A reset unit synchronized on the bytes it received at `now`. -/
def DecState.freshlySynced (now : Binary64) (buf : List Byte) : DecState :=
  { DecState.reset with buf := buf, sync := true, lr := some now }

section

variable {frames : List (List Byte)} (hne : frames ≠ []) (hvalid : ∀ f ∈ frames, ValidFrame f)
include hvalid

theorem length_flatten_frames : frames.flatten.length = frames.length * 17 :=
  length_flatten_of_length_eq fun f hf => (hvalid f hf).1

include hne

/-- Whole frames sent to a reset unit synchronize it at the first byte, with no partial frame to check
(41_decoder_poll.md R155, R157). -/
theorem pollBeforeExtract_of_frames (c : Config) (now : Binary64) :
    pollBeforeExtract c now frames.flatten .reset = .freshlySynced now frames.flatten := by
  have hlen := length_flatten_frames hvalid
  have hpos := List.length_pos_iff.mpr hne
  have happend : pollAppend now frames.flatten .reset =
      { DecState.freshlySynced now frames.flatten with sync := false } := by
    rw [pollAppend_eq]
    exact congrArg (DecState.mk _ _ _ _ · _ _ _ _) (if_pos (.inr rfl))
  have hhead : markersOK frames.flatten 0 = true := by
    obtain ⟨f, later, rfl⟩ := List.exists_cons_of_ne_nil hne
    exact markersOK_append (hvalid f List.mem_cons_self) later.flatten
  have hsync : pollSync { DecState.freshlySynced now frames.flatten with sync := false } =
      .freshlySynced now frames.flatten :=
    pollSync_of_marked_head rfl (by simp only [DecState.freshlySynced]; omega) hhead
  have hpartial : partialBytes (.freshlySynced now frames.flatten) = 0 := by
    rw [partialBytes, bufLen_eq, DecState.freshlySynced, hlen]
    exact Nat.mul_mod_left _ _
  rw [pollBeforeExtract, happend, hsync, pollDrift_of_not_checked fun h => h.2 hpartial]

/-- A poll that brings whole frames to a reset unit returns all of them and raises no fault. -/
theorem pollSteps_of_frames {c : Config} (hc : c.timesLegal = true) {now : Binary64} (hnow : isFinite now = true) :
    (pollSteps c now frames.flatten .reset).records = frames.map (emitFrame c) ∧
      (pollSteps c now frames.flatten .reset).dec.fault = false := by
  have hfresh : fgt (fsub now now) c.staleTimeout = false := by
    simp only [Config.timesLegal, Bool.and_eq_true] at hc
    obtain ⟨⟨-, hfinite⟩, hpos⟩ := hc
    have hnum := isNaN_of_isFinite hfinite
    rw [fgt, flt_iff isNaN_posZero hnum] at hpos
    rw [fsub_self hnow, fgt, ← Bool.not_eq_true, flt_iff hnum isNaN_posZero]
    exact hpos.not_gt
  have hextract : pollExtract c (.freshlySynced now frames.flatten) =
      extractFrames c frames.length (.freshlySynced now frames.flatten) := by
    rw [pollExtract, bufLen_eq, DecState.freshlySynced, length_flatten_frames hvalid, frameLen,
      Nat.mul_div_cancel _ (by norm_num)]
  obtain ⟨hlr, -⟩ := pollExtract_frame c (.freshlySynced now frames.flatten)
  rw [pollSteps, pollBeforeExtract_of_frames hne hvalid]
  dsimp only
  rw [pollStale_of_some hlr, hfresh, hextract]
  exact extractFrames_of_frames hvalid c rfl rfl

end

/-! ### The host's reading of a poll -/

theorem getLsbD_flagAt (w n k : Nat) (b : Bool) :
    (flagAt w n b).getLsbD k = (b && (decide (n < w) && decide (n = k))) := by
  cases b with
  | false => exact BitVec.getLsbD_zero
  | true => exact BitVec.getLsbD_twoPow n k

/-- Bit 1 of the flags byte is FAULT (30_encoding.md R107). -/
theorem getLsbD_pollFlags_one (d : DecState) : (pollFlags d).getLsbD 1 = d.fault := by
  simp only [pollFlags, BitVec.getLsbD_or, getLsbD_flagAt]
  simp

theorem splitRecords_flatten {records : List (List Byte)} (h : ∀ r ∈ records, r.length = 12) :
    splitRecords records.length records.flatten = records := by
  induction records with
  | nil => rfl
  | cons r later ih =>
    obtain ⟨hr, hlater⟩ := List.forall_mem_cons.mp h
    rw [List.length_cons, splitRecords, List.flatten_cons, List.take_left' hr, List.drop_left' hr, ih hlater]

/-- The host reads FAULT and the records of the poll's frames in its response (30_encoding.md R107, R108). -/
theorem readPollReply_of_frames {c : Config} (hc : c.legal = true) {x : Extraction} {frames : List (List Byte)}
    (hx : x.records = frames.map (emitFrame c)) (hlen : frames.length ≤ chunkMax) :
    readPollReply c (0x00 :: pollResult c x) =
      some { refused := false, fault := x.dec.fault, records := frames.map (decodeFrame c) } := by
  obtain ⟨packed, hpacked⟩ : ∃ packed, packed = frames.map fun f => packRecord c (emitFrame c f) := ⟨_, rfl⟩
  have hcount : frames.length = packed.length := by rw [hpacked, List.length_map]
  have hlengths : ∀ r ∈ packed, r.length = 12 := by
    rw [hpacked]
    exact List.forall_mem_map.mpr fun f _ => length_packRecord c _
  have hunpacked : packed.map (unpackRecord c) = frames.map (decodeFrame c) := by
    rw [hpacked, List.map_map]
    exact List.map_congr_left fun f _ => unpackRecord_packRecord hc f
  have hresult : pollResult c x = pollFlags x.dec ::
      BitVec.ofNat 8 (frames.length / 256) :: BitVec.ofNat 8 frames.length :: packed.flatten := by
    rw [pollResult_eq, hx, List.length_map, List.map_map, hpacked]
    rfl
  rw [hresult, ← getLsbD_pollFlags_one, ← hunpacked]
  simp only [readPollReply, u16be_count _ hlen, Status.code, if_true]
  rw [hcount, splitRecords_flatten hlengths]

/-- At most CHUNK_MAX bytes go in one poll (45_host_environment.md R243). -/
theorem pollChunks_of_le {bs : List Byte} (h : bs.length ≤ chunkMax) (n : Nat) : pollChunks n bs = [bs] := by
  cases n with
  | zero => rfl
  | succ n => exact if_pos h

theorem runPolls_singleton {now : Binary64} {chunk bytes : List Byte} {s s' : State} {reply : PollReply}
    (ht : transact (.decPoll now chunk) s = some (bytes, s')) (hr : readPollReply s'.cfg bytes = some reply) :
    runPolls now [chunk] s = some (reply, s') := by
  simp [runPolls, ht, hr]

/-- Whole frames polled from a reset unit at an idle port: the host reads their records and no fault. -/
theorem runPolls_of_frames {s : State} (hs : s.PortIdle) (hdec : s.dec = .reset) (hc : s.cfg.legal = true)
    {now : Binary64} (hnow : isFinite now = true) {frames : List (List Byte)} (hne : frames ≠ [])
    (hvalid : ∀ f ∈ frames, ValidFrame f) (hfits : frames.flatten.length ≤ s.cfg.bufCap)
    (hchunk : frames.flatten.length ≤ chunkMax) :
    ∃ d : DecState, d.fault = false ∧ runPolls now [frames.flatten] s =
      some ({ refused := false, fault := false, records := frames.map (decodeFrame s.cfg) }, { s with dec := d }) := by
  have haccepted : PollAccepted now frames.flatten s := by
    refine ⟨hnow, ?_, ?_⟩ <;> rw [hdec]
    · simpa [DecState.reset] using hfits
    · rw [chunkMax] at hchunk
      simp only [DecState.reset, List.length_nil]
      omega
  have hcount : frames.length ≤ chunkMax := by
    rw [length_flatten_frames hvalid] at hchunk
    omega
  obtain ⟨-, htimes, -⟩ := (legal_iff s.cfg).mp hc
  obtain ⟨hrec, hfault⟩ := pollSteps_of_frames hne hvalid htimes hnow
  have hexec := exec_decPoll_of_accepted haccepted
  rw [hdec, hs.resp, List.nil_append] at hexec
  have hwf : (Instr.decPoll now frames.flatten).wf = true := decide_eq_true hchunk
  refine ⟨_, hfault, runPolls_singleton (transact_of_exec hs hwf hexec) ?_⟩
  rw [readPollReply_of_frames hc hrec hcount, hfault]

/-! ### A run -/

/-- A run from an idle port starts with both units reset (45_host_environment.md R242, R243). -/
theorem runLoop_of_idle {s : State} (hs : s.PortIdle) (traj : Trajectory) (limit : Nat) (clock : Binary64)
    (ticks : List TickInput) :
    runLoop traj limit clock ticks s =
      runTicks traj limit ticks { s with dec := .reset, pid := .reset } (LoopState.start clock) := by
  have hdec := transact_of_exec hs (i := .decReset) rfl (execDecReset_eq s)
  have hs' : State.PortIdle { s with dec := .reset } := ⟨hs.cmd, hs.resp, hs.rst⟩
  have hpid := transact_of_exec hs' (i := .pidReset) rfl (execPidReset_eq { s with dec := .reset })
  simp only [runLoop, hdec, hpid]

theorem runTicks_singleton (traj : Trajectory) (limit : Nat) (x : TickInput) (s : State) (l : LoopState) :
    runTicks traj limit [x] s l = tick traj limit x s l := by
  rw [runTicks]
  cases tick traj limit x s l <;> rfl

/-- Settles O57: the one poll returns the records of the five frames, which agree with the first of them. -/
theorem fiveFramesGiveFiveMeasurements : Obligations.FiveFramesGiveFiveMeasurements := by
  intro traj limit clock now frames s hs hc hcap hfive hvalid hsame hnow helapsed hlimit
  obtain ⟨f, later, rfl⟩ := List.exists_cons_of_length_eq_add_one hfive
  have hlen := length_flatten_frames hvalid
  rw [hfive] at hlen
  have hchunk : (f :: later).flatten.length ≤ chunkMax := by rw [hlen, chunkMax]; norm_num
  have hidle : State.PortIdle { s with dec := .reset, pid := .reset } := ⟨hs.cmd, hs.resp, hs.rst⟩
  obtain ⟨d, hfault, hpolls⟩ := runPolls_of_frames hidle rfl hc hnow (List.cons_ne_nil f later) hvalid
    (hlen.trans_le hcap) hchunk
  rw [← pollChunks_of_le hchunk] at hpolls
  have hcheck : checkRecords none ((f :: later).map (decodeFrame s.cfg)) = some (some (decodeFrame s.cfg f)) := by
    rw [checkRecords_of_reference rfl, if_pos]
    exact List.all_eq_true.mpr (List.forall_mem_map.mpr fun g hg => hsame g hg f List.mem_cons_self)
  refine ⟨{ s with dec := d, pid := .reset }, appendMeasurements ((f :: later).map (decodeFrame s.cfg))
    { LoopState.start clock with first := some (decodeFrame s.cfg f) }, ?_, ?_, hfault⟩
  · rw [runLoop_of_idle hs, runTicks_singleton, tick_of_checked rfl rfl hpolls rfl rfl hcheck]
    apply tickAfterCheck_of_no_samples
    exacts [helapsed, hlimit, rfl]
  · rw [appendMeasurements_eq]
    simpa [LoopState.start] using hfive

end Sys2Proof.Machine

namespace Sys2Proof.Machine

/-! SUPPORT. The proofs for 70_reset_and_hazards.md: the block reset, the unit resets that make it up, the parameters an
instantiation accepts, and the invariant after reset. -/

/-! ### The parameters an instantiation accepts -/

theorem fgt_posZero_iff_signedUnits_pos {x : Binary64} (hx : isFinite x = true) :
    fgt x posZero = true ↔ 0 < signedUnits x := by
  rw [fgt, flt_iff isNaN_posZero (isNaN_of_isFinite hx), signedUnits_posZero]

theorem fge_posZero_iff_signedUnits_nonneg {x : Binary64} (hx : isFinite x = true) :
    fge x posZero = true ↔ 0 ≤ signedUnits x := by
  rw [fge, fle_iff isNaN_posZero (isNaN_of_isFinite hx), signedUnits_posZero]

/-- The controller's constants in range, by their exact values (00_scope.md R11, R12). -/
theorem gainsLegal_iff_signedUnits (c : Config) :
    c.gainsLegal = true ↔
      (isFinite c.kp = true ∧ isFinite c.ki = true ∧ isFinite c.kd = true ∧
        isFinite c.dt = true ∧ 0 < signedUnits c.dt) ∧
      isFinite c.windupLimit = true ∧ 0 ≤ signedUnits c.windupLimit := by
  rw [gainsLegal_iff]
  simp only [and_assoc]
  exact and_congr_right fun _ => and_congr_right fun _ => and_congr_right fun _ => and_congr_right fun hdt =>
    and_congr (fgt_posZero_iff_signedUnits_pos hdt) (and_congr_right fge_posZero_iff_signedUnits_nonneg)

/-- The time constants in range, by their exact values (00_scope.md R10). -/
theorem timesLegal_iff_signedUnits (c : Config) :
    c.timesLegal = true ↔
      isFinite c.byteTime = true ∧ 0 ≤ signedUnits c.byteTime ∧
      isFinite c.framePeriod = true ∧ 0 < signedUnits c.framePeriod ∧
      isFinite c.driftTol = true ∧ 0 < signedUnits c.driftTol ∧
      isFinite c.staleTimeout = true ∧ 0 < signedUnits c.staleTimeout := by
  simp only [Config.timesLegal, Bool.and_eq_true, and_assoc]
  exact and_congr_right fun hbyte => and_congr (fge_posZero_iff_signedUnits_nonneg hbyte) <|
    and_congr_right fun hperiod => and_congr (fgt_posZero_iff_signedUnits_pos hperiod) <|
    and_congr_right fun hdrift => and_congr (fgt_posZero_iff_signedUnits_pos hdrift) <|
    and_congr_right fgt_posZero_iff_signedUnits_pos

theorem scaleTableLegal_iff (c : Config) :
    c.scaleTableLegal = true ↔
      c.scaleTable.length = 11 ∧ (c.scaleTable.map Prod.fst).Nodup ∧ ∀ e ∈ c.scaleTable, -12 ≤ e.2 ∧ e.2 ≤ 6 := by
  simp only [Config.scaleTableLegal, Bool.and_eq_true, List.all_eq_true, decide_eq_true_eq, and_assoc]

theorem instantiate_of_legal {c : Config} (h : c.legal = true) : instantiate c = .next (State.resetWith c) := if_pos h

theorem instantiate_of_not_legal {c : Config} (h : ¬ c.legal = true) :
    instantiate c = .refused .illegalConfiguration := if_neg h

/-- Settles O17: the test of the parameters is the conjunction of the listed conditions, each comparison with +0.0 read
through the exact value. -/
theorem instantiationRefusesIllegalParameters : Obligations.InstantiationRefusesIllegalParameters := by
  intro c legal
  have hlegal : c.legal = true ↔ legal := by
    rw [legal_iff, gainsLegal_iff_signedUnits, timesLegal_iff_signedUnits, scaleTableLegal_iff, and_assoc]
  exact ⟨fun h => instantiate_of_legal (hlegal.mpr h), fun h => instantiate_of_not_legal (mt hlegal.mp h)⟩

/-! ### The block reset and the unit resets -/

theorem step_of_rst {s : State} (hr : s.rst = true) : step s = .next s.blockReset := if_pos hr

/-- Settles O15: with the pin asserted a step is the block reset, and the power-on reset leaves the same values. -/
theorem blockResetRestoresEveryElement : Obligations.BlockResetRestoresEveryElement := by
  constructor
  · intro s hr
    exact ⟨s.blockReset, step_of_rst hr, blockReset_dec s, blockReset_pid s, rfl, rfl, rfl, blockReset_cmd s,
      blockReset_resp s, blockReset_cfg s⟩
  · intro c hc
    refine ⟨State.resetWith c, instantiate_of_legal hc, resetWith_cfg c, fun s => ?_⟩
    simp

/-- Settles O16: each unit reset writes its own unit's reset value, which is the block reset's, and a response. -/
theorem unitResetsMakeUpTheBlockReset : Obligations.UnitResetsMakeUpTheBlockReset := by
  intro s
  refine ⟨_, _, execDecReset_eq s, execPidReset_eq _, ?_⟩
  simp [State.blockReset]

/-! ### The invariant after reset -/

theorem resetWith_inv {c : Config} (hc : c.legal = true) : (State.resetWith c).Inv where
  legal := hc
  dec   := decReset_decInv c
  pid   := pidReset_pidInv

theorem isFinite_legalGain (x : Binary64) : isFinite (legalGain x) = true := by
  unfold legalGain
  split
  · assumption
  · decide

/-- The kept sample interval is in range (00_scope.md R11; log 2). -/
theorem legalInterval_inRange (x : Binary64) :
    isFinite (legalInterval x) = true ∧ fgt (legalInterval x) posZero = true := by
  unfold legalInterval
  split
  case isTrue h => exact (Bool.and_eq_true _ _).mp h
  case isFalse => decide

/-- Every default is in range, so that the four open values decide (00_scope.md section 4). -/
theorem withGains_legal {kp ki kd dt : Binary64} (hkp : isFinite kp = true) (hki : isFinite ki = true)
    (hkd : isFinite kd = true) (hdt : isFinite dt = true) (hpos : fgt dt posZero = true) :
    (Config.withGains kp ki kd dt).legal = true := by
  have hwindup : isFinite 0x4024000000000000 = true ∧ fge 0x4024000000000000 posZero = true := by decide
  have hgains : (Config.withGains kp ki kd dt).gainsLegal = true :=
    (gainsLegal_iff _).mpr ⟨hkp, hki, hkd, hdt, hpos, hwindup⟩
  have htimes : (Config.withGains kp ki kd dt).timesLegal = true := by
    simp only [Config.timesLegal, Config.withGains]
    decide
  have hcap : 17 ≤ 65552 ∧ 65552 < 1114112 := by decide
  have hscale : defaultScaleTable.length = 11 ∧ (defaultScaleTable.map Prod.fst).Nodup ∧
      ∀ e ∈ defaultScaleTable, -12 ≤ e.2 ∧ e.2 ≤ 6 := by decide
  exact (legal_iff _).mpr ⟨hgains, htimes, hcap, .inr rfl, (scaleTableLegal_iff _).mpr hscale⟩

theorem defaults_legal : Config.defaults.legal = true := by
  obtain ⟨hdt, hpos⟩ := legalInterval_inRange Config.freeDt
  exact withGains_legal (isFinite_legalGain _) (isFinite_legalGain _) (isFinite_legalGain _) hdt hpos

/-- Settles O18: both units are fresh, and the parameters are legal, the defaults as well as the instantiated ones. -/
theorem resetMeetsTheInvariant : Obligations.ResetMeetsTheInvariant := by
  refine ⟨resetWith_inv defaults_legal, fun c t h => ?_⟩
  by_cases hc : c.legal = true
  · rw [instantiate_of_legal hc] at h
    rw [← Host.Outcome.next.inj h]
    exact resetWith_inv hc
  · rw [instantiate_of_not_legal hc] at h
    cases h

end Sys2Proof.Machine
